-- ==== Sys2Proof/Word.lean ====
section
/-!
DEFINITION. The word types of the PGC block: registers and ARG operands are 32 bits wide (00_scope.md R8,
`REG_WIDTH`), BUF and the symbol alphabet are bytes (R8, `NUM_SYMBOLS`; 20_memory.md R100).
-/
namespace Sys2Proof

/-- A byte of BUF, and a symbol of the 256-symbol alphabet (41_huffman_build.md R230). -/
abbrev Byte := BitVec 8

/-- A 32-bit register, operand or host address (10_state.md R32). -/
abbrev Word := BitVec 32

end Sys2Proof
end

