-- ==== Sys2Proof/Config.lean ====
section
/-!
DEFINITION. What an implementation fixes (00_scope.md R9) and the free values of the model.
-/
namespace Sys2Proof

/-- The OPEN parameters of 00_scope.md R9 that the block itself reads, as plain data. `State` carries one such record
and no step changes it, so a statement about every state holds for every choice of the parameters (log entry 1).
`hdrSizeRejects` lists the header sizes for which the predicate HDR_SIZE_OK is false: every predicate on u32 is
given by such a list. -/
structure Params where
  bufSize : Nat
  hdrSizeRejects : List Word
deriving DecidableEq, Repr

/-- DESIGN CHOICE (log entry 1): the reference values of 00_scope.md R9: BUF_SIZE = 2^20, every header size accepted. -/
def Config.referenceParams : Params := { bufSize := 2 ^ 20, hdrSizeRejects := [] }

/-- A byte the spec calls unspecified (60_exceptions.md R375, 70_reset_and_hazards.md R410 and R412): the free value
number `n`. It has no body, so nothing can be proved of which byte it is (log entry 3). -/
opaque Config.freeByte : Nat → Byte

/-- The word a read of an engine-owned register returns while BUSY = 1 (10_state.md R59): the free value number `n`
(log entry 3). -/
opaque Config.freeWord : Nat → Word

end Sys2Proof
end

