-- ==== Sys2Proof/Syntax.lean ====
section
/-!
DEFINITION. The commands of the block (30_encoding.md R142), one constructor per row of spec/opcode_table.json, and the
tagged tree of 10_state.md R61. A command word holds an opcode and nothing else (R140): its operands are the latched
ARG registers (R141), so no constructor has an argument.
-/
namespace Sys2Proof

/-- The 23 defined commands, in the order of the opcode map 30_encoding.md R142. -/
inductive Instr where
  | nop
  | curSet
  | curRd8
  | curRd16
  | curRd32
  | curWr8
  | curWr16
  | curWr32
  | curSkip
  | curRdBits
  | curWrBits
  | hufFreqClear
  | hufFreqAdd
  | hufBuild
  | hufBuildFrom
  | hufDerive
  | hufSerialize
  | hufDumpCodes
  | hufDecode
  | hufPack
  | hufEncode
  | hufCompress
  | fcpParse
deriving DecidableEq, Repr

/-- The tree of 10_state.md R61: `Tree ::= Leaf(sym: u8) | Node(left: Tree, right: Tree)`. -/
inductive Tree where
  | leaf (sym : Byte)
  | node (left right : Tree)
deriving DecidableEq, Repr

/-- The number of nodes of a tree (10_state.md R46, NODE_COUNT; 41_huffman_build.md R237). -/
def Tree.size : Tree → Nat
  | .leaf _ => 1
  | .node l r => 1 + l.size + r.size

/-- The leaf symbols of a tree, left to right. -/
def Tree.symbols : Tree → List Byte
  | .leaf s => [s]
  | .node l r => l.symbols ++ r.symbols

/-- Whether a tree is a single leaf (10_state.md R46, LEAF_ROOT; 41_huffman_build.md R236). -/
def Tree.isLeaf : Tree → Bool
  | .leaf _ => true
  | .node _ _ => false

end Sys2Proof
end

