-- ==== Sys2Proof/WellFormed.lean ====
section
/-!
DEFINITION. Which terms are well formed. A command has no operand field, so every `Instr` is well formed
(30_encoding.md R140); the checks with content are on the 32-bit command word (R143), the parameters (00_scope.md R9)
and the tree (10_state.md R61).
-/
namespace Sys2Proof

/-- Every constructor stands for one defined word and carries no field (30_encoding.md R140, R142). -/
def Instr.wf : Instr → Bool := fun _ => true

/-- The opcodes of the opcode map 30_encoding.md R142, written as the ranges that its rows fill. -/
def opcodeDefined (op : Nat) : Bool :=
  op == 0x00 || (0x10 ≤ op && op ≤ 0x19) || (0x20 ≤ op && op ≤ 0x26) || op == 0x28 ||
    (0x30 ≤ op && op ≤ 0x32) || op == 0x40

/-- A command word `c` is defined iff `c[31:8] = 0` and `c[7:0]` is an opcode of R142 (30_encoding.md R143). -/
def commandWordDefined (c : Word) : Bool :=
  c.toNat / 256 == 0 && opcodeDefined (c.toNat % 256)

/-- The constraint of 00_scope.md R9 on BUF_SIZE. -/
def Params.wf (p : Params) : Bool :=
  4096 ≤ p.bufSize && p.bufSize ≤ 2 ^ 24

/-- The tree of 10_state.md R61: each leaf symbol distinct (so at most 256 leaves and 511 nodes). -/
def Tree.wf (t : Tree) : Bool :=
  decide t.symbols.Nodup

end Sys2Proof
end

