-- ==== Sys2Proof/Decode.lean ====
section
/-!
DEFINITION. The decoder of command words (30_encoding.md R140 to R144), total on every 32-bit word, and after it the
encoder. A word the map does not define is rejected by name; the engine turns the rejection into E_UNSUPPORTED (R143).
-/
namespace Sys2Proof

/-- Why a command word is reserved (30_encoding.md R143). -/
inductive DecodeReject where
  /-- bits 31:8 are not zero -/
  | zeroFieldNotZero (c : Word)
  /-- bits 31:8 are zero and bits 7:0 are no opcode of R142 -/
  | reservedOpcode (op : Byte)
deriving DecidableEq, Repr

/-- Field `op`, bits 7:0 of a command word (30_encoding.md R140). -/
def commandOp (c : Word) : Byte := c.extractLsb' 0 8

/-- Field `zero`, bits 31:8 of a command word (30_encoding.md R140). -/
def commandZero (c : Word) : BitVec 24 := c.extractLsb' 8 24

/-- The opcode map of 30_encoding.md R142, row by row. -/
def opcodeTable : List (Byte × Instr) :=
  [ (0x00, .nop),
    (0x10, .curSet), (0x11, .curRd8), (0x12, .curRd16), (0x13, .curRd32), (0x14, .curWr8), (0x15, .curWr16),
    (0x16, .curWr32), (0x17, .curSkip), (0x18, .curRdBits), (0x19, .curWrBits),
    (0x20, .hufFreqClear), (0x21, .hufFreqAdd), (0x22, .hufBuild), (0x23, .hufBuildFrom), (0x24, .hufDerive),
    (0x25, .hufSerialize), (0x26, .hufDumpCodes),
    (0x28, .hufDecode),
    (0x30, .hufPack), (0x31, .hufEncode), (0x32, .hufCompress),
    (0x40, .fcpParse) ]

/-- The row of a table that an opcode selects. -/
def lookupOpcode (op : Byte) : List (Byte × Instr) → Option Instr
  | [] => none
  | (k, i) :: rows => if k = op then some i else lookupOpcode op rows

/-- The decoder: every 32-bit word is one row of R142 or reserved (30_encoding.md R144). -/
def decode (c : Word) : Except DecodeReject Instr :=
  if commandZero c ≠ 0 then .error (.zeroFieldNotZero c)
  else
    match lookupOpcode (commandOp c) opcodeTable with
    | some i => .ok i
    | none => .error (.reservedOpcode (commandOp c))

/-- The opcode of a command (30_encoding.md R142). -/
def opcode : Instr → Byte
  | .nop => 0x00
  | .curSet => 0x10
  | .curRd8 => 0x11
  | .curRd16 => 0x12
  | .curRd32 => 0x13
  | .curWr8 => 0x14
  | .curWr16 => 0x15
  | .curWr32 => 0x16
  | .curSkip => 0x17
  | .curRdBits => 0x18
  | .curWrBits => 0x19
  | .hufFreqClear => 0x20
  | .hufFreqAdd => 0x21
  | .hufBuild => 0x22
  | .hufBuildFrom => 0x23
  | .hufDerive => 0x24
  | .hufSerialize => 0x25
  | .hufDumpCodes => 0x26
  | .hufDecode => 0x28
  | .hufPack => 0x30
  | .hufEncode => 0x31
  | .hufCompress => 0x32
  | .fcpParse => 0x40

/-- The encoder: the command word of a command, opcode in bits 7:0 and zero in bits 31:8 (30_encoding.md R140). -/
def encode (i : Instr) : Word := (opcode i).setWidth 32

/-- The instruction the decoder reads from the opcode table's bits: a command is one 32-bit word (30_encoding.md R144),
so bit 0 of the row is bit 0 of the word and there is no later word. -/
def decodeTableWord (nbits w : Nat) : Option Instr :=
  if nbits ≤ 32 && w < 2 ^ 32 then
    match decode (BitVec.ofNat 32 w) with
    | .ok i => some i
    | .error _ => none
  else none

end Sys2Proof
end

