-- ==== Sys2Proof/Machine/State.lean ====
section
/-!
DEFINITION. The state of the PGC block as plain data: the host-visible registers (10_state.md section 2), the internal
tables (section 4), the latched command (R63), the buffer memory BUF (20_memory.md R100), the parameters (00_scope.md R9)
and three fields of the model's own (`script`, `response`, `freeIdx`). INVENTORY.md lists every line of it.
-/
namespace Sys2Proof.Machine

/-- BUF as address and byte pairs, in the canonical form of `Mem.wf` (Machine/Ops.lean). -/
abbrev Mem := List Host.Cell

/-- DESIGN CHOICE, unsafe (log entry 2): what a byte of BUF that nothing has written reads as after `State.reset`.
20_memory.md R104 leaves it open. -/
def unlistedByte : Byte := 0

/-- STATUS (10_state.md R35). Its reserved bits read 0, so they have no field. -/
structure Status where
  busy : Bool
  done : Bool
  err : Bool
  rejected : Bool
  errCode : Byte
  lastOp : Byte
deriving DecidableEq, Repr

/-- CUR_BASE, CUR_LEN and CUR_BITPOS (10_state.md R45). -/
structure Cursor where
  base : Word
  len : Word
  bitPos : Word
deriving DecidableEq, Repr

/-- The HUF registers: the fields of HUF_STATE (10_state.md R46), HUF_TOTAL (R47) and HUF_MAXLEN (R48). -/
structure HufRegs where
  treeValid : Bool
  codesValid : Bool
  leafRoot : Bool
  nodeCount : BitVec 9
  total : Word
  maxLen : Word
deriving DecidableEq, Repr

/-- IRQ_EN (10_state.md R49). Its reserved bits read 0, so they have no field. -/
structure IrqEnable where
  doneIE : Bool
  errIE : Bool
deriving DecidableEq, Repr

/-- The latched command of 10_state.md R63: the accepted word and the copy of ARG0 to ARG7 taken at acceptance. -/
structure Pending where
  word : Word
  args : Vector Word 8
deriving DecidableEq, Repr

/-- The width of a host access: 1, 2 or 4 bytes (20_memory.md R105). -/
inductive AccessWidth where
  | byte
  | half
  | word
deriving DecidableEq, Repr

/-- One access of the host port (20_memory.md R101): a read, or a write of the low bytes of `value`. -/
inductive HostAccess where
  | read (addr : Word) (width : AccessWidth)
  | write (addr : Word) (width : AccessWidth) (value : Word)
deriving DecidableEq, Repr

/-- One event of the total order of 20_memory.md R117 (log entry 4). -/
inductive Event where
  /-- an access of the host -/
  | host (a : HostAccess)
  /-- the moment of the engine's execution step (10_state.md R50) -/
  | engine
  /-- a power-on reset (70_reset_and_hazards.md R410) -/
  | powerOn
deriving DecidableEq, Repr

/-- The host port's answer to an access (20_memory.md R106; log entry 6). -/
inductive Response where
  /-- no host access yet -/
  | none
  /-- a read completed with this data, zero-extended -/
  | data (value : Word)
  /-- a write completed (a write the block ignores completes too) -/
  | written
  /-- the access completed with a bus error: no data, no change -/
  | busError
deriving DecidableEq, Repr

/-- The error codes of 60_exceptions.md R371. -/
inductive ErrCode where
  | fmtTruncated
  | fmtBadSize
  | fmtTreeIndex
  | fmtBitstreamEnd
  | fmtDimension
  | fmtPixelRange
  | fmtBadOffset
  | bounds
  | overlap
  | capacity
  | arg
  | align
  | noTree
  | noCodes
  | noCode
  | freqOverflow
  | unsupported
deriving DecidableEq, Repr

/-- A raised error: its code and its information word, not yet cut to 32 bits (60_exceptions.md R371, R372). -/
structure CmdError where
  code : ErrCode
  info : Nat
deriving DecidableEq, Repr

/-- Why the machine stops with a fault. No state a run from reset reaches raises one. -/
inductive Fault where
  /-- Raised by a cursor command whose bytes lie at or beyond BUF_SIZE: engine address `addr` does not exist
  (20_memory.md R100). Only a state that breaks the cursor invariant of 10_state.md R45 can raise it. Safe (log entry 8). -/
  | outsideBuffer (addr : Nat)
deriving DecidableEq, Repr

/-- Why the machine gives a command no meaning. Every command of the opcode table has one. -/
inductive Refusal where
  /-- Raised by an arm of `exec` without a meaning: there is none in this model. Safe. -/
  | notModelled (mnemonic : String)
deriving DecidableEq, Repr

/-- The whole state of the block. -/
structure State where
  /-- STATUS, 10_state.md R35 to R41 -/
  status : Status
  /-- ERRINFO, 10_state.md R42 -/
  errInfo : Word
  /-- ARG0 to ARG7, 10_state.md R43 -/
  args : Vector Word 8
  /-- RES0 to RES3, 10_state.md R44 -/
  res : Vector Word 4
  /-- CUR_BASE, CUR_LEN, CUR_BITPOS, 10_state.md R45 -/
  cur : Cursor
  /-- HUF_STATE, HUF_TOTAL, HUF_MAXLEN, 10_state.md R46 to R48 -/
  huf : HufRegs
  /-- IRQ_EN, 10_state.md R49 -/
  irqEn : IrqEnable
  /-- FREQ[0..255], 10_state.md R60 -/
  freq : Vector Word 256
  /-- TREE, 10_state.md R61 -/
  tree : Tree
  /-- CODE[0..255], 10_state.md R62; `true` is bit 1 -/
  code : Vector (List Bool) 256
  /-- PENDING, 10_state.md R63 -/
  pending : Option Pending
  /-- BUF, 20_memory.md R100 -/
  buf : Mem
  /-- BUF_SIZE and HDR_SIZE_OK, 00_scope.md R9; no step changes them (log entry 1) -/
  params : Params
  /-- the model's own: the events still to come (log entry 4) -/
  script : List Event
  /-- the model's own: the port's answer to the last host access (log entry 6) -/
  response : Response
  /-- the model's own: how many free values have been drawn (log entry 3) -/
  freeIdx : Nat
deriving DecidableEq, Repr

/-- The machine right after a power-on reset: 10_state.md R65. TREE and CODE (log entry 7), the bytes of BUF (log entry 2),
the parameters (log entry 1) and the model's own fields have values the log names. -/
def State.reset : State where
  status :=
    { busy := false, done := false, err := false, rejected := false, errCode := 0, lastOp := 0 }
  errInfo := 0
  args := Vector.replicate 8 0
  res := Vector.replicate 4 0
  cur := { base := 0, len := 0, bitPos := 0 }
  huf :=
    { treeValid := false, codesValid := false, leafRoot := false, nodeCount := 0, total := 0, maxLen := 0 }
  irqEn := { doneIE := false, errIE := false }
  freq := Vector.replicate 256 0
  tree := .leaf 0
  code := Vector.replicate 256 []
  pending := none
  buf := []
  params := Config.referenceParams
  script := []
  response := .none
  freeIdx := 0

end Sys2Proof.Machine
end

