-- ==== Sys2Proof/Machine/Ops.lean ====
section
/-!
DEFINITION. The shared operations: BUF (20_memory.md), its bits (00_scope.md R16), the 256-entry tables, the command
lifecycle (10_state.md R50 to R53), raising an error (60_exceptions.md R372) and the host's acknowledgement of one
(R378), and both resets (70_reset_and_hazards.md R410, R412).
-/
namespace Sys2Proof.Machine

/-! ### BUF -/

/-- The canonical form of BUF: addresses strictly rising from `lo`, and no entry equal to what an unlisted address reads
as. -/
def Mem.risingFrom : Nat → Mem → Bool
  | _, [] => true
  | lo, (k, b) :: rest => decide (lo ≤ k) && decide (b ≠ unlistedByte) && Mem.risingFrom (k + 1) rest

/-- The canonical form holds, so that equal memories are equal data. -/
def Mem.wf (m : Mem) : Bool := Mem.risingFrom 0 m

/-- Every listed address is an engine address, 0 to `n − 1` (20_memory.md R100). -/
def Mem.inside (m : Mem) (n : Nat) : Bool := m.all fun c => decide (c.1 < n)

/-- MemByte(a) (00_scope.md R14). -/
def Mem.readByte : Mem → Nat → Byte
  | [], _ => unlistedByte
  | (k, b) :: rest, a => if k = a then b else Mem.readByte rest a

/-- The `n` bytes at addresses `a`, `a + 1`, … in that order. -/
def Mem.bytes (m : Mem) (a : Nat) : Nat → List Byte
  | 0 => []
  | n + 1 => m.readByte a :: m.bytes (a + 1) n

/-- MemRead(a, n) = LE_n(a): the byte at the lowest address is the least significant (00_scope.md R13, R14). -/
def Mem.readLE (m : Mem) (a : Nat) : Nat → Nat
  | 0 => 0
  | n + 1 => (m.readByte a).toNat + 256 * m.readLE (a + 1) n

/-- The `n` bytes of `v` in little-endian order (00_scope.md R13). -/
def leBytes : (n : Nat) → (v : Nat) → List Byte
  | 0, _ => []
  | n + 1, v => BitVec.ofNat 8 v :: leBytes n (v / 256)

/-- The entries that hold `bs` at `a`, `a + 1`, …, less those an unlisted address already reads as. -/
def Mem.cells : Nat → List Byte → Mem
  | _, [] => []
  | a, b :: bs => if b = unlistedByte then Mem.cells (a + 1) bs else (a, b) :: Mem.cells (a + 1) bs

/-- The one write to BUF: the bytes `bs` at `a`, `a + 1`, …; every other byte keeps its value. -/
def Mem.store (m : Mem) (a : Nat) (bs : List Byte) : Mem :=
  (m.filter fun c => decide (c.1 < a)) ++ Mem.cells a bs ++ (m.filter fun c => decide (a + bs.length ≤ c.1))

/-- MemWrite(a, n, v) (00_scope.md R14). -/
def Mem.writeLE (m : Mem) (a n v : Nat) : Mem := m.store a (leBytes n v)

/-! ### Bits of BUF -/

/-- Bit `p` of the bytes at `base`, in the byte form of 30_encoding.md R160; the cursor's CB (40_cursor.md R200). -/
def Mem.bit (m : Mem) (base p : Nat) : Bool := (m.readByte (base + p / 8)).getLsbD (p % 8)

/-- Stream bit `p` of the blob at `base`, in the word form of 00_scope.md R16: the bit `p mod 16` of the little-endian
16-bit word `p div 16`. -/
def Mem.wordBit (m : Mem) (base p : Nat) : Bool :=
  decide (m.readLE (base + 2 * (p / 16)) 2 / 2 ^ (p % 16) % 2 = 1)

/-- A byte with its bit `k` set to `b`, every other bit kept (43_huffman_encode.md R300). -/
def byteSetBit (v : Byte) (k : Nat) (b : Bool) : Byte :=
  if b then v ||| (1#8 <<< k) else v &&& ~~~(1#8 <<< k)

/-- Sets bit `p` of the bytes at `base` (43_huffman_encode.md R293, R300). -/
def Mem.setBit (m : Mem) (base p : Nat) (b : Bool) : Mem :=
  m.store (base + p / 8) [byteSetBit (m.readByte (base + p / 8)) (p % 8) b]

/-- The `n` bits from position `q` on, first bit first. -/
def Mem.bits (m : Mem) (base q : Nat) : Nat → List Bool
  | 0 => []
  | n + 1 => m.bit base q :: m.bits base (q + 1) n

/-- Places the bits `c` at position `q` of the bytes at `base` (43_huffman_encode.md R293). -/
def Mem.placeBits (m : Mem) (base q : Nat) : List Bool → Mem
  | [] => m
  | b :: bs => (m.setBit base q b).placeBits base (q + 1) bs

/-- The value whose bit `j` is the `j`-th bit of the list (40_cursor.md R211). -/
def bitsToNat : List Bool → Nat
  | [] => 0
  | b :: bs => b.toNat + 2 * bitsToNat bs

/-- The low `n` bits of a value, bit 0 first (40_cursor.md R212). -/
def natToBits : (n : Nat) → (v : Nat) → List Bool
  | 0, _ => []
  | n + 1, v => decide (v % 2 = 1) :: natToBits n (v / 2)

/-- ceil16(n) = 16 · ((n + 15) div 16) (00_scope.md R11). -/
def ceil16 (n : Nat) : Nat := 16 * ((n + 15) / 16)

/-! ### The 256-entry tables -/

/-- A byte value is an index of a 256-entry table. -/
theorem byte_lt_256 (v : Byte) : v.toNat < 256 := v.isLt

/-- Entry `v` of a table indexed by the byte values (10_state.md R60, R62). -/
def tableGet {α : Type} (t : Vector α 256) (v : Byte) : α := t[v.toNat]'(byte_lt_256 v)

/-- A table with entry `v` replaced. -/
def tableSet {α : Type} (t : Vector α 256) (v : Byte) (x : α) : Vector α 256 := t.set v.toNat x (byte_lt_256 v)

/-- The 256 byte values in ascending order (41_huffman_build.md R230). -/
def allBytes : List Byte := (List.range 256).map (BitVec.ofNat 8)

/-! ### The command lifecycle -/

/-- Acceptance of the command word `c` (10_state.md R50): PENDING latches the word and the live ARG values (R63); BUSY = 1,
DONE = 0, ERR = 0, ERRCODE = 0, ERRINFO = 0, LASTOP = c[7:0] (R41); REJECTED is kept (R39). -/
def State.accept (s : State) (c : Word) : State :=
  { s with
    pending := some { word := c, args := s.args }
    status :=
      { s.status with busy := true, done := false, err := false, errCode := 0, lastOp := commandOp c }
    errInfo := 0 }

/-- Rejection of a CMD write while BUSY = 1 (10_state.md R51). -/
def State.reject (s : State) : State :=
  { s with status := { s.status with rejected := true } }

/-- Completion without error (10_state.md R52): RES as the command's rule says, a RES register the rule does not list
written 0 (R44); PENDING empty, BUSY = 0, DONE = 1. -/
def State.complete (s : State) (r0 r1 r2 r3 : Nat := 0) : State :=
  { s with
    res := #v[BitVec.ofNat 32 r0, BitVec.ofNat 32 r1, BitVec.ofNat 32 r2, BitVec.ofNat 32 r3]
    pending := none
    status := { s.status with busy := false, done := true } }

/-- The 8-bit code of an error (60_exceptions.md R371). -/
def ErrCode.byte : ErrCode → Byte
  | .fmtTruncated => 0x01
  | .fmtBadSize => 0x02
  | .fmtTreeIndex => 0x03
  | .fmtBitstreamEnd => 0x04
  | .fmtDimension => 0x05
  | .fmtPixelRange => 0x06
  | .fmtBadOffset => 0x07
  | .bounds => 0x10
  | .overlap => 0x11
  | .capacity => 0x12
  | .arg => 0x13
  | .align => 0x14
  | .noTree => 0x16
  | .noCodes => 0x17
  | .noCode => 0x18
  | .freqOverflow => 0x19
  | .unsupported => 0x1F

/-- A value as a 32-bit information word: `min(value, 2^32 − 1)` (10_state.md R42). -/
def saturate32 (v : Nat) : Word := BitVec.ofNat 32 (min v (2 ^ 32 - 1))

/-- TAKING AN EXCEPTION on this hardware: `raise E_<CODE>(info)` completes the command with an error (10_state.md R53,
60_exceptions.md R372): ERRCODE, ERRINFO, ERR = 1, BUSY = 0, PENDING empty; every other register, the tables and BUF are
kept. There is no vector, no saved pc and no mode (R377). -/
def State.raise (s : State) (code : ErrCode) (info : Nat) : State :=
  { s with
    pending := none
    errInfo := saturate32 info
    status := { s.status with busy := false, err := true, errCode := code.byte } }

/-- THE RETURN FROM ONE: the host acknowledges by a W1C write of STATUS (60_exceptions.md R378). The write clears those of
DONE, ERR and REJECTED (bits 1, 2, 3) whose bit is 1 in the word; every other bit of the word is ignored and ERRCODE,
ERRINFO and LASTOP are kept (10_state.md R35, R38). -/
def State.writeStatus (s : State) (v : Word) : State :=
  { s with
    status :=
      { s.status with
        done := s.status.done && !v.getLsbD 1
        err := s.status.err && !v.getLsbD 2
        rejected := s.status.rejected && !v.getLsbD 3 } }

/-! ### Registers written by the host or by commands -/

/-- A host write of ARGk stores the whole word (10_state.md R43). -/
def State.writeArg (s : State) (k : Fin 8) (v : Word) : State :=
  { s with args := s.args.set k v }

/-- A host write of IRQ_EN keeps bits 1:0 only (10_state.md R49). -/
def State.writeIrqEn (s : State) (v : Word) : State :=
  { s with irqEn := { doneIE := v.getLsbD 0, errIE := v.getLsbD 1 } }

/-- The cursor registers as CUR_SET writes them (40_cursor.md R203). -/
def State.setCursor (s : State) (base len bitPos : Nat) : State :=
  { s with
    cur := { base := BitVec.ofNat 32 base, len := BitVec.ofNat 32 len, bitPos := BitVec.ofNat 32 bitPos } }

/-- CUR_BITPOS alone (40_cursor.md R204 to R212). -/
def State.moveCursor (s : State) (q : Nat) : State :=
  { s with cur := { s.cur with bitPos := BitVec.ofNat 32 q } }

/-- BUF replaced by the memory a command leaves. -/
def State.withBuf (s : State) (m : Mem) : State := { s with buf := m }

/-- FREQ and TOTAL replaced together (10_state.md R60). -/
def State.setFreq (s : State) (f : Vector Word 256) (total : Nat) : State :=
  { s with freq := f, huf := { s.huf with total := BitVec.ofNat 32 total } }

/-- A tree installed as 41_huffman_build.md R238 says: TREE_VALID = 1, CODES_VALID = 0, LEAF_ROOT, NODE_COUNT, and HUF_MAXLEN
0 because CODES_VALID = 0 (10_state.md R48). CODE keeps its contents, which nothing reads (log entry 20). -/
def State.installTree (s : State) (t : Tree) : State :=
  { s with
    tree := t
    huf :=
      { s.huf with
        treeValid := true
        codesValid := false
        leafRoot := t.isLeaf
        nodeCount := BitVec.ofNat 9 t.size
        maxLen := 0 } }

/-- A codeword table installed as 41_huffman_build.md R244 says. -/
def State.installCodes (s : State) (c : Vector (List Bool) 256) (maxLen : Nat) : State :=
  { s with code := c, huf := { s.huf with codesValid := true, maxLen := BitVec.ofNat 32 maxLen } }

/-! ### Unspecified bytes -/

/-- `n` free bytes from number `i` on (log entry 3). -/
def freeBytes (i n : Nat) : List Byte := (List.range n).map fun k => Config.freeByte (i + k)

/-- Region(b, n) becomes unspecified: each byte takes a free value of its own (60_exceptions.md R375). -/
def State.havoc (s : State) (b n : Nat) : State :=
  { s with buf := s.buf.store b (freeBytes s.freeIdx n), freeIdx := s.freeIdx + n }

/-- Each byte of Region(b, n) that lies inside BUF becomes unspecified (70_reset_and_hazards.md R412). -/
def State.havocInside (s : State) (b n : Nat) : State := s.havoc b (min n (s.params.bufSize - b))

/-- The regions of a list become unspecified, in order. -/
def State.havocAll (s : State) : List (Nat × Nat) → State
  | [] => s
  | (b, n) :: rest => (s.havocInside b n).havocAll rest

/-! ### Resets -/

/-- Every register and internal table at its value of 10_state.md R65. BUF, the parameters and the model's own fields are
those of `s`. -/
def State.resetRegisters (s : State) : State :=
  { State.reset with
    buf := s.buf
    params := s.params
    script := s.script
    response := s.response
    freeIdx := s.freeIdx }

/-- A power-on reset (70_reset_and_hazards.md R410): the registers and tables as R65 says, every byte of BUF unspecified
(20_memory.md R104; log entry 10). -/
def State.powerOn (s : State) : State := s.resetRegisters.havoc 0 s.params.bufSize

/-- The machine with its next event taken off the script. -/
def State.dropEvent (s : State) : State := { s with script := s.script.tail }

/-- The port's answer to a host access (log entry 6). -/
def State.respond (s : State) (r : Response) : State := { s with response := r }

end Sys2Proof.Machine
end

