-- ==== Sys2Proof/Machine/Operands.lean ====
section
/-!
DEFINITION. The operand forms: the latched ARG values (30_encoding.md R141, 10_state.md R63), a region operand
(20_memory.md R114, R115), the cursor's current byte and bit (40_cursor.md R200), and the destination regions of a pending
command (70_reset_and_hazards.md R412).
-/
namespace Sys2Proof.Machine

/-- The operand copy a command reads (10_state.md R63). The engine runs a command only while PENDING holds it; with PENDING
empty, a case no step runs, these are the values an acceptance would latch (log entry 9). -/
def State.latched (s : State) : Vector Word 8 :=
  match s.pending with
  | some p => p.args
  | none => s.args

/-- Operand `ARGk` of the running command, a u32 read as an unsigned natural (30_encoding.md R141). -/
def State.arg (s : State) (k : Fin 8) : Nat := s.latched[k].toNat

/-- Region(b, n) is valid iff b + n ≤ BUF_SIZE, a sum that never wraps (20_memory.md R114, 00_scope.md R15). -/
def State.regionValid (s : State) (b n : Nat) : Bool := decide (b + n ≤ s.params.bufSize)

/-- Region(b1, n1) and Region(b2, n2) overlap (20_memory.md R115). -/
def regionsOverlap (b1 n1 b2 n2 : Nat) : Bool :=
  decide (0 < n1) && decide (0 < n2) && decide (b1 < b2 + n2) && decide (b2 < b1 + n1)

/-- The destination regions of a command (70_reset_and_hazards.md R412), given its latched operands. -/
def State.destRegions (s : State) : Instr → List (Nat × Nat)
  | .curWr8 => [(s.cur.base.toNat, s.cur.len.toNat)]
  | .curWr16 => [(s.cur.base.toNat, s.cur.len.toNat)]
  | .curWr32 => [(s.cur.base.toNat, s.cur.len.toNat)]
  | .curWrBits => [(s.cur.base.toNat, s.cur.len.toNat)]
  | .hufSerialize => [(s.arg 0, s.arg 1)]
  | .hufDumpCodes => [(s.arg 0, s.arg 1)]
  | .hufDecode => [(s.arg 6, 2 * s.arg 5)]
  | .hufPack => [(s.arg 2, s.arg 1 / 2)]
  | .hufEncode => [(s.arg 2, s.arg 3)]
  | .hufCompress => [(s.arg 3, s.arg 4), (s.arg 5, 4 * s.arg 1)]
  | .fcpParse => [(s.arg 2, s.arg 3)]
  | .nop => []
  | .curSet => []
  | .curRd8 => []
  | .curRd16 => []
  | .curRd32 => []
  | .curSkip => []
  | .curRdBits => []
  | .hufFreqClear => []
  | .hufFreqAdd => []
  | .hufBuild => []
  | .hufBuildFrom => []
  | .hufDerive => []

/-- The destination regions of PENDING: none when it is empty or holds a reserved word (70_reset_and_hazards.md R412). -/
def State.pendingDestRegions (s : State) : List (Nat × Nat) :=
  match s.pending with
  | none => []
  | some p =>
    match decode p.word with
    | .ok i => s.destRegions i
    | .error _ => []

/-- A soft reset (70_reset_and_hazards.md R412): every register and internal table at its value of 10_state.md R65, BUF kept;
if BUSY = 1, the pending command is discarded without completing and the bytes of its destination regions that lie inside
BUF become unspecified. -/
def State.softReset (s : State) : State :=
  (if s.status.busy then s.havocAll s.pendingDestRegions else s).resetRegisters

end Sys2Proof.Machine
end

