-- ==== Sys2Proof/Machine/Cursor.lean ====
section
/-!
DEFINITION. NOP and the cursor commands (40_cursor.md R201 to R212).
-/
namespace Sys2Proof.Machine

/-- An engine access to the `n` bytes at `a` goes on as `next` if every byte exists, and faults if one does not
(20_memory.md R100; log entry 8). -/
def State.accessing (s : State) (a n : Nat) (next : State) : Host.Outcome State Fault Refusal :=
  if a + n ≤ s.params.bufSize then .next next else .fault (.outsideBuffer a)

/-- The cursor's current byte address, `CUR_BASE + (q div 8)` with `q = CUR_BITPOS` (40_cursor.md R200). -/
def State.cursorByte (s : State) : Nat := s.cur.base.toNat + s.cur.bitPos.toNat / 8

/-- A typed read of `n` bytes at the cursor (40_cursor.md R200, R204 to R206). -/
def State.cursorRead (s : State) (n : Nat) : Host.Outcome State Fault Refusal :=
  let q := s.cur.bitPos.toNat
  if q % 8 ≠ 0 then .next (s.raise .align q)
  else if s.cur.len.toNat < q / 8 + n then .next (s.raise .fmtTruncated q)
  else
    s.accessing s.cursorByte n ((s.moveCursor (q + 8 * n)).complete (s.buf.readLE s.cursorByte n) (q + 8 * n))

/-- A typed write of the low `n` bytes of ARG0 at the cursor (40_cursor.md R200, R207 to R209). -/
def State.cursorWrite (s : State) (n : Nat) : Host.Outcome State Fault Refusal :=
  let q := s.cur.bitPos.toNat
  if q % 8 ≠ 0 then .next (s.raise .align q)
  else if s.cur.len.toNat < q / 8 + n then .next (s.raise .capacity q)
  else
    s.accessing s.cursorByte n
      (((s.withBuf (s.buf.writeLE s.cursorByte n (s.arg 0))).moveCursor (q + 8 * n)).complete 0 (q + 8 * n))

/-- NOP (40_cursor.md R201): no effect but completion, RES0 to RES3 written 0. -/
def execNop (s : State) : Host.Outcome State Fault Refusal := .next s.complete

/-- CUR_SET (40_cursor.md R203). -/
def execCurSet (s : State) : Host.Outcome State Fault Refusal :=
  if 8 * s.arg 1 < s.arg 2 then .next (s.raise .arg 2)
  else if !s.regionValid (s.arg 0) (s.arg 1) then .next (s.raise .bounds 0)
  else .next ((s.setCursor (s.arg 0) (s.arg 1) (s.arg 2)).complete)

/-- CUR_RD8 (40_cursor.md R204). -/
def execCurRd8 (s : State) : Host.Outcome State Fault Refusal := s.cursorRead 1

/-- CUR_RD16 (40_cursor.md R205). -/
def execCurRd16 (s : State) : Host.Outcome State Fault Refusal := s.cursorRead 2

/-- CUR_RD32 (40_cursor.md R206). -/
def execCurRd32 (s : State) : Host.Outcome State Fault Refusal := s.cursorRead 4

/-- CUR_WR8 (40_cursor.md R207). -/
def execCurWr8 (s : State) : Host.Outcome State Fault Refusal := s.cursorWrite 1

/-- CUR_WR16 (40_cursor.md R208). -/
def execCurWr16 (s : State) : Host.Outcome State Fault Refusal := s.cursorWrite 2

/-- CUR_WR32 (40_cursor.md R209). -/
def execCurWr32 (s : State) : Host.Outcome State Fault Refusal := s.cursorWrite 4

/-- CUR_SKIP (40_cursor.md R210): no byte is read. -/
def execCurSkip (s : State) : Host.Outcome State Fault Refusal :=
  let q := s.cur.bitPos.toNat
  if q % 8 ≠ 0 then .next (s.raise .align q)
  else if s.cur.len.toNat < q / 8 + s.arg 0 then .next (s.raise .fmtTruncated q)
  else .next ((s.moveCursor (q + 8 * s.arg 0)).complete 0 (q + 8 * s.arg 0))

/-- The number of bytes that hold the `n` bits from bit `q` of a byte range, counted from the byte of bit `q`
(40_cursor.md R200). -/
def bytesSpanned (q n : Nat) : Nat := (q % 8 + n + 7) / 8

/-- CUR_RDBITS (40_cursor.md R211): the first bit read is bit 0 of the value. -/
def execCurRdBits (s : State) : Host.Outcome State Fault Refusal :=
  let n := s.arg 0
  let q := s.cur.bitPos.toNat
  if n < 1 ∨ 32 < n then .next (s.raise .arg 0)
  else if 8 * s.cur.len.toNat < q + n then .next (s.raise .fmtTruncated q)
  else
    s.accessing s.cursorByte (bytesSpanned q n)
      ((s.moveCursor (q + n)).complete (bitsToNat (s.buf.bits s.cur.base.toNat q n)) (q + n))

/-- CUR_WRBITS (40_cursor.md R212): every other bit of the bytes touched keeps its value. -/
def execCurWrBits (s : State) : Host.Outcome State Fault Refusal :=
  let n := s.arg 0
  let q := s.cur.bitPos.toNat
  if n < 1 ∨ 32 < n then .next (s.raise .arg 0)
  else if 8 * s.cur.len.toNat < q + n then .next (s.raise .capacity q)
  else
    s.accessing s.cursorByte (bytesSpanned q n)
      (((s.withBuf (s.buf.placeBits s.cur.base.toNat q (natToBits n (s.arg 1)))).moveCursor (q + n)).complete 0 (q + n))

end Sys2Proof.Machine
end

