-- ==== Sys2Proof/Machine/Bitstream.lean ====
section
/-!
DEFINITION. The bitstream functions of the decoder (42_huffman_decode.md R271 to R275) and of the encoder
(43_huffman_encode.md R291 to R294, R298).
-/
namespace Sys2Proof.Machine

/-- Where a decode reads: a tree of `treeLen` bytes at `tree` and a blob of `blobLen` bytes at `blob`
(42_huffman_decode.md R270). -/
structure DecodeSource where
  tree : Nat
  treeLen : Nat
  blob : Nat
  blobLen : Nat
deriving DecidableEq, Repr

/-- Fetch(p) (42_huffman_decode.md R271): stream bit `p`, after checking that its whole 16-bit word is inside the blob. -/
def fetchBit (m : Mem) (d : DecodeSource) (p : Nat) : Except CmdError Bool :=
  if d.blobLen < 2 * (p / 16) + 2 then .error { code := .fmtBitstreamEnd, info := p }
  else .ok (m.wordBit d.blob p)

/-- The inner loop of 42_huffman_decode.md R272 from byte offset `tp` of the tree: one bit is consumed, a child index read, and
the record it names tested; a leaf ends the loop with its payload and the next bit position. `fuel` counts the fetches left
before the blob must end (R276): with no fuel left the next fetch is past the blob. -/
def descend (m : Mem) (d : DecodeSource) : (fuel p tp : Nat) → Except CmdError (Byte × Nat)
  | 0, p, _ => .error { code := .fmtBitstreamEnd, info := p }
  | fuel + 1, p, tp =>
    match fetchBit m d p with
    | .error e => .error e
    | .ok b =>
      let o := tp + 2 * b.toNat
      if d.treeLen < o + 2 then .error { code := .fmtTreeIndex, info := o }
      else
        let child := 6 * m.readLE (d.tree + o) 2
        if d.treeLen < child + 2 then .error { code := .fmtTreeIndex, info := child }
        else if m.readLE (d.tree + child) 2 = 0 then
          if d.treeLen < child + 3 then .error { code := .fmtTreeIndex, info := child + 2 }
          else .ok (m.readByte (d.tree + child + 2), p + 1)
        else descend m d fuel (p + 1) child

/-- One symbol: the walk from record 0 (42_huffman_decode.md R272). A fetch succeeds only below bit 8·B (R276), so
`8·B + 1 − p` fetches are never used up. -/
def decodeSymbol (m : Mem) (d : DecodeSource) (p : Nat) : Except CmdError (Byte × Nat) :=
  descend m d (8 * d.blobLen + 1 - p) p 0

/-- The two pixel values of a leaf payload, the low nibble first (42_huffman_decode.md R273). -/
def nibbles (v : Byte) : List Byte := [BitVec.ofNat 8 (v.toNat % 16), BitVec.ofNat 8 (v.toNat / 16)]

/-- DecodeCore (42_huffman_decode.md R272): `nsym` symbols from bit `p`; the pixel values and the end position, or the first
error of the walk. -/
def decodeCore (m : Mem) (d : DecodeSource) : (nsym p : Nat) → Except CmdError (List Byte × Nat)
  | 0, p => .ok ([], p)
  | nsym + 1, p =>
    match decodeSymbol m d p with
    | .error e => .error e
    | .ok (v, p') =>
      match decodeCore m d nsym p' with
      | .error e => .error e
      | .ok (out, pend) => .ok (nibbles v ++ out, pend)

/-- Pack (43_huffman_encode.md R291): the first pixel of each pair in the low nibble. -/
def packPixels : List Byte → List Byte
  | x :: y :: rest => BitVec.ofNat 8 (x.toNat + 16 * y.toNat) :: packPixels rest
  | _ => []

/-- The index of the first pixel value above 15, counted from `i` (43_huffman_encode.md R296). -/
def firstBadPixel : (i : Nat) → List Byte → Option Nat
  | _, [] => none
  | i, x :: xs => if 15 < x.toNat then some i else firstBadPixel (i + 1) xs

/-- Bits(d_0 … d_{n−1}): the codewords one after another (43_huffman_encode.md R292). -/
def codeBits (c : Vector (List Bool) 256) (d : List Byte) : List Bool := d.flatMap fun s => tableGet c s

/-- The first symbol of a list that has no codeword (43_huffman_encode.md R297, R298). -/
def firstNoCode (c : Vector (List Bool) 256) : List Byte → Option Byte
  | [] => none
  | s :: rest => if (tableGet c s).length = 0 then some s else firstNoCode c rest

/-- The bytes an encode that ends at bit `e` occupies (43_huffman_encode.md R294). -/
def blobBytesFor (e : Nat) : Nat := 2 * ((e + 15) / 16)

/-- The bits `[e, ceil16(e))` set to 0 (43_huffman_encode.md R294). -/
def padBlob (m : Mem) (base e : Nat) : Mem := m.placeBits base e (List.replicate (ceil16 e - e) false)

/-- The start position of each glyph's stream when the streams are placed back to back from `q` (43_huffman_encode.md R298:
`st[i + 1] = st[i] + |Bits(g_i)|`). -/
def glyphStarts (q : Nat) : List (List Bool) → List Nat
  | [] => []
  | c :: rest => q :: glyphStarts (q + c.length) rest

/-- Each glyph's stream placed at its start position (43_huffman_encode.md R298). -/
def placeStreams (m : Mem) (base q : Nat) : List (List Bool) → Mem
  | [] => m
  | c :: rest => placeStreams (m.placeBits base q c) base (q + c.length) rest

/-- The position table: each start as a 4-byte little-endian i32 (43_huffman_encode.md R299). -/
def positionTable (starts : List Nat) : List Byte := starts.flatMap fun st => leBytes 4 st

end Sys2Proof.Machine
end

