-- ==== Sys2Proof/Machine/Container.lean ====
section
/-!
DEFINITION. The container parse of 44_container.md R321 to R343, with its private cursor, and the Font Model image it writes
(30_encoding.md R180 to R182).
-/
namespace Sys2Proof.Machine

/-- A glyph's metrics (30_encoding.md R181): character code, bearingX, advance and width. -/
structure GlyphMetrics where
  code : Nat
  bearingX : Nat
  advance : Nat
  width : Int
deriving DecidableEq, Repr

/-- A decoded font (30_encoding.md R180): the header counts, the 16 colours as (red, green, blue), the metrics and grids of
the glyphs in index order. -/
structure FontModel where
  numGlyphs : Nat
  charWidth : Nat
  charHeight : Nat
  images : Nat
  palette : List (Byte × Byte × Byte)
  metrics : List GlyphMetrics
  grids : List (List Byte)
deriving DecidableEq, Repr

/-- The source region of a parse (44_container.md R321): `len` bytes at `base`. -/
structure Source where
  base : Nat
  len : Nat
deriving DecidableEq, Repr

/-- Rd(n) (44_container.md R321): an `n`-byte little-endian read at offset `o`, and the offset after it. -/
def Source.rd (src : Source) (m : Mem) (n o : Nat) : Except CmdError (Nat × Nat) :=
  if src.len < o + n then .error { code := .fmtTruncated, info := o } else .ok (m.readLE (src.base + o) n, o + n)

/-- Skip(n) and Blk(n) (44_container.md R321): the offset after `n` bytes that need only exist. -/
def Source.skip (src : Source) (n o : Nat) : Except CmdError Nat :=
  if src.len < o + n then .error { code := .fmtTruncated, info := o } else .ok (o + n)

/-- FMSIZE(G, CW, CH) (30_encoding.md R180). -/
def fontImageSize (g cw ch : Nat) : Nat := 56 + 8 * g + g * cw * ch

/-- Step 1 of 44_container.md R322, the header (R323, R324, 30_encoding.md R168): G, CW, CH and the offset after it. -/
def parseHeader (m : Mem) (hdrSizeOk : Word → Bool) (src : Source) : Except CmdError (Nat × Nat × Nat × Nat) := do
  let (hs, o) ← src.rd m 4 0
  if !hdrSizeOk (BitVec.ofNat 32 hs) then .error { code := .fmtBadSize, info := 0 }
  else
    let o ← src.skip 4 o
    let o ← src.skip 6 o
    let (g, o) ← src.rd m 2 o
    let (cw, o) ← src.rd m 2 o
    let (ch, o) ← src.rd m 2 o
    let (_, o) ← src.rd m 2 o
    let (_, o) ← src.rd m 2 o
    let o ← src.skip 8 o
    pure (g, cw, ch, o)

/-- Step 2 of 44_container.md R322, `n` palette entries from offset `o`: R, G, B are kept, alpha is discarded (R326). -/
def parsePalette (m : Mem) (src : Source) : (n o : Nat) → Except CmdError (List (Byte × Byte × Byte) × Nat)
  | 0, o => .ok ([], o)
  | n + 1, o => do
    let (r, o) ← src.rd m 1 o
    let (g, o) ← src.rd m 1 o
    let (b, o) ← src.rd m 1 o
    let (_, o) ← src.rd m 1 o
    let (rest, o) ← parsePalette m src n o
    pure ((BitVec.ofNat 8 r, BitVec.ofNat 8 g, BitVec.ofNat 8 b) :: rest, o)

/-- The loop of step 3 of 44_container.md R322 for `n` glyphs from index `i`: a glyph below `ngi` has an entry of bearingX and
advance and width = advance − bearingX (R328, R331), a later one has zeros (R329); the character code is 0x20 + i
(R330). -/
def parseMetrics (m : Mem) (src : Source) (ngi : Nat) : (n i o : Nat) → Except CmdError (List GlyphMetrics × Nat)
  | 0, _, o => .ok ([], o)
  | n + 1, i, o =>
    if i < ngi then do
      let (bx, o) ← src.rd m 1 o
      let (adv, o) ← src.rd m 1 o
      let (rest, o) ← parseMetrics m src ngi n (i + 1) o
      pure ({ code := 0x20 + i, bearingX := bx, advance := adv, width := (adv : Int) - bx } :: rest, o)
    else do
      let (rest, o) ← parseMetrics m src ngi n (i + 1) o
      pure ({ code := 0x20 + i, bearingX := 0, advance := 0, width := 0 } :: rest, o)

/-- Step 3 of 44_container.md R322: the variable-width table, with its length check (R327). -/
def parseWidthTable (m : Mem) (src : Source) (g o : Nat) : Except CmdError (List GlyphMetrics × Nat) := do
  let (len, o') ← src.rd m 4 o
  if len % 2 ≠ 0 ∨ g < len / 2 then .error { code := .fmtBadSize, info := o }
  else parseMetrics m src (len / 2) g 0 o'

/-- What the section header gives the parse (44_container.md R333). -/
structure SectionInfo where
  treeSize : Int
  dataSize : Int
  glyphSize : Nat
  numImages : Nat
deriving DecidableEq, Repr

/-- sext_32 (00_scope.md R12). -/
def sext32 (v : Nat) : Int := (BitVec.ofNat 32 v).toInt

/-- Step 5 of 44_container.md R322: the section header at `o` and its size checks (R333, R334). -/
def parseSectionHeader (m : Mem) (src : Source) (start : Nat) : Except CmdError (SectionInfo × Nat) := do
  let (_, o) ← src.rd m 4 start
  let (hts, o) ← src.rd m 4 o
  let (cds, o) ← src.rd m 4 o
  let (_, o) ← src.rd m 4 o
  let (gs, o) ← src.rd m 4 o
  let (ni, o) ← src.rd m 4 o
  let (_, o) ← src.rd m 4 o
  let (_, o) ← src.rd m 4 o
  if sext32 hts < 2 then .error { code := .fmtBadSize, info := start + 4 }
  else if sext32 cds < 0 then .error { code := .fmtBadSize, info := start + 8 }
  else pure ({ treeSize := sext32 hts, dataSize := sext32 cds, glyphSize := gs, numImages := ni }, o)

/-- Step 7 of 44_container.md R322: `n` position entries, each an i32 (R336). -/
def parsePositions (m : Mem) (src : Source) : (n o : Nat) → Except CmdError (List Int × Nat)
  | 0, o => .ok ([], o)
  | n + 1, o => do
    let (v, o) ← src.rd m 4 o
    let (rest, o) ← parsePositions m src n o
    pure (sext32 v :: rest, o)

/-- Step 9 of 44_container.md R322: the images with the given start positions, in index order from `i` (R339). -/
def decodeImages (m : Mem) (d : DecodeSource) (gs : Nat) : (i : Nat) → List Int → Except CmdError (List (List Byte))
  | _, [] => .ok []
  | i, pos :: rest =>
    if pos < 0 then .error { code := .fmtBadOffset, info := i }
    else
      match decodeCore m d gs pos.toNat with
      | .error e => .error e
      | .ok (px, _) =>
        match decodeImages m d gs (i + 1) rest with
        | .error e => .error e
        | .ok grids => .ok (px :: grids)

/-- Steps 1 to 9 of 44_container.md R322: the font and the number of container bytes consumed (R343), or the first error of
the parse. `cap` is ARG3. -/
def parseContainer (m : Mem) (hdrSizeOk : Word → Bool) (src : Source) (cap : Nat) : Except CmdError (FontModel × Nat) := do
  let (g, cw, ch, o) ← parseHeader m hdrSizeOk src
  if cap < fontImageSize g cw ch then .error { code := .capacity, info := fontImageSize g cw ch }
  else
    let (palette, o) ← parsePalette m src 16 o
    let (metrics, o) ← parseWidthTable m src g o
    let o ← src.skip (4 + 4 * g) o
    let (sec, o) ← parseSectionHeader m src o
    let o ← src.skip 2 o
    let treeLen := (sec.treeSize - 2).toNat
    let treeAt := src.base + o
    let o ← src.skip treeLen o
    let (positions, o) ← parsePositions m src sec.numImages o
    let blobLen := sec.dataSize.toNat
    let blobAt := src.base + o
    let consumed ← src.skip blobLen o
    let images := min sec.numImages g
    if 0 < images ∧ 2 * sec.glyphSize ≠ cw * ch then .error { code := .fmtDimension, info := sec.glyphSize }
    else
      let grids ←
        decodeImages m { tree := treeAt, treeLen := treeLen, blob := blobAt, blobLen := blobLen } sec.glyphSize 0
          (positions.take images)
      pure
        ({ numGlyphs := g
           charWidth := cw
           charHeight := ch
           images := images
           palette := palette
           metrics := metrics
           grids := grids ++ List.replicate (g - images) (List.replicate (cw * ch) 0) }, consumed)

/-- The 8-byte metrics record (30_encoding.md R181); the width is an i16 in two's complement. -/
def metricsRecord (g : GlyphMetrics) : List Byte :=
  leBytes 4 g.code ++ leBytes 1 g.bearingX ++ leBytes 1 g.advance ++ leBytes 2 (BitVec.ofInt 16 g.width).toNat

/-- The Font Model image (30_encoding.md R180). -/
def fontImage (f : FontModel) : List Byte :=
  leBytes 2 f.numGlyphs ++ leBytes 2 f.charWidth ++ leBytes 2 f.charHeight ++ leBytes 2 f.images ++
    (f.palette.flatMap fun c => [c.1, c.2.1, c.2.2]) ++ f.metrics.flatMap metricsRecord ++ f.grids.flatten

end Sys2Proof.Machine
end

