-- ==== Sys2Proof/Machine/FontContainer.lean ====
section
/-!
DEFINITION. FCP_PARSE (44_container.md R322).
-/
namespace Sys2Proof.Machine

/-- HDR_SIZE_OK (44_container.md R324): the OPEN predicate, as the parameters give it (log entry 1). -/
def hdrSizeOk (p : Params) (hs : Word) : Bool := !p.hdrSizeRejects.contains hs

/-- FCP_PARSE (44_container.md R322). An error after the overlap check leaves the whole destination region unspecified
(60_exceptions.md R375). The cursor registers are neither read nor written (44_container.md R321). -/
def execFcpParse (s : State) : Host.Outcome State Fault Refusal :=
  if !s.regionValid (s.arg 0) (s.arg 1) then .next (s.raise .bounds 0)
  else if !s.regionValid (s.arg 2) (s.arg 3) then .next (s.raise .bounds 2)
  else if regionsOverlap (s.arg 0) (s.arg 1) (s.arg 2) (s.arg 3) then .next (s.raise .overlap 0)
  else
    match parseContainer s.buf (hdrSizeOk s.params) { base := s.arg 0, len := s.arg 1 } (s.arg 3) with
    | .error e => .next ((s.havoc (s.arg 2) (s.arg 3)).raise e.code e.info)
    | .ok (f, consumed) =>
      .next
        ((s.withBuf (s.buf.store (s.arg 2) (fontImage f))).complete f.numGlyphs f.images
          (fontImageSize f.numGlyphs f.charWidth f.charHeight) consumed)

end Sys2Proof.Machine
end

