-- ==== Sys2Proof/Machine/HuffmanTree.lean ====
section
/-!
DEFINITION. The pure functions of the tree builder (41_huffman_build.md): counting (R232), BuildTree (R233 to R236), Derive
(R241, R242), Serialize (R245) and the codeword dump entry (30_encoding.md R183).
-/
namespace Sys2Proof.Machine

/-- Adds one to the count of each byte of the list (41_huffman_build.md R232). -/
def countSymbols (f : Vector Word 256) : List Byte → Vector Word 256
  | [] => f
  | v :: vs => countSymbols (tableSet f v (tableGet f v + 1)) vs

/-- TOTAL = Σ FREQ[v] (10_state.md R47, R60), as an unbounded number. -/
def freqSum (f : Vector Word 256) : Nat := (f.toList.map BitVec.toNat).sum

/-- The present symbols, those with FREQ[v] > 0, in ascending order (41_huffman_build.md R230, R233). -/
def presentSymbols (f : Vector Word 256) : List Byte :=
  allBytes.filter fun v => decide (0 < (tableGet f v).toNat)

/-- An item of the build queue: (frequency, sequence, tree) (41_huffman_build.md R233). -/
structure QueueItem where
  freq : Nat
  seq : Nat
  tree : Tree
deriving DecidableEq, Repr

/-- The order of 41_huffman_build.md R234: lower frequency first, among equal frequencies the lower sequence number. -/
def QueueItem.before (a b : QueueItem) : Bool :=
  decide (a.freq < b.freq) || (decide (a.freq = b.freq) && decide (a.seq < b.seq))

/-- The queue is kept sorted by the order of R234, so its head is its least item. This puts an item in its place. -/
def queueInsert (x : QueueItem) : List QueueItem → List QueueItem
  | [] => [x]
  | y :: ys => if x.before y then x :: y :: ys else y :: queueInsert x ys

/-- The queue of 41_huffman_build.md R233: one leaf per present symbol, numbered from 0 in ascending order of its byte. -/
def leafQueue (f : Vector Word 256) (symbols : List Byte) : List QueueItem :=
  symbols.zipIdx.foldr
    (fun p q => queueInsert { freq := (tableGet f p.1).toNat, seq := p.2, tree := .leaf p.1 } q) []

/-- The merge loop of 41_huffman_build.md R233: while two items are left, the two least are taken out and their parent is put
in, the first of them as the left child (R235), with the next sequence number. Each round takes one item away, so `fuel`
rounds are enough for a queue of `fuel + 1` items. -/
def mergeQueue : (fuel next : Nat) → List QueueItem → Tree
  | _, _, [] => .leaf 0
  | _, _, [a] => a.tree
  | 0, _, a :: _ :: _ => a.tree
  | fuel + 1, next, a :: b :: rest =>
    mergeQueue fuel (next + 1)
      (queueInsert { freq := a.freq + b.freq, seq := next, tree := .node a.tree b.tree } rest)

/-- BuildTree(FREQ) (41_huffman_build.md R233); with no present symbol Leaf(0x00), with one the leaf of that symbol
(R236). -/
def buildTree (f : Vector Word 256) : Tree :=
  match presentSymbols f with
  | [] => .leaf 0
  | [v] => .leaf v
  | symbols => mergeQueue symbols.length symbols.length (leafQueue f symbols)

/-- The walk of 41_huffman_build.md R241: the left child appends bit 0, the right child bit 1. -/
def walkCodes : Tree → List Bool → Vector (List Bool) 256 → Vector (List Bool) 256
  | .leaf s, p, c => tableSet c s p
  | .node l r, p, c => walkCodes r (p ++ [true]) (walkCodes l (p ++ [false]) c)

/-- A codeword table with no codeword (41_huffman_build.md R241). -/
def emptyCodes : Vector (List Bool) 256 := Vector.replicate 256 []

/-- Derive(T) (41_huffman_build.md R241); the codeword of a single leaf is the one bit 0 (R242). -/
def deriveCodes : Tree → Vector (List Bool) 256
  | .leaf s => tableSet emptyCodes s [false]
  | .node l r => walkCodes (.node l r) [] emptyCodes

/-- max_v |CODE[v]| (10_state.md R48). -/
def maxCodeLength (c : Vector (List Bool) 256) : Nat :=
  c.toList.foldr (fun w m => max w.length m) 0

/-- The number of symbols with a codeword (41_huffman_build.md R244). -/
def codeCount (c : Vector (List Bool) 256) : Nat :=
  (c.toList.filter fun w => decide (1 ≤ w.length)).length

/-- The records of a subtree whose root has record index `i`, in index order (41_huffman_build.md R245): pre-order numbering
puts the left child at `i + 1` and the right child after the left subtree (R246). A leaf is `00 00 s 00 00 00`, an internal
node its two child indices and two zero bytes (30_encoding.md R166). -/
def serializeFrom : (i : Nat) → Tree → List Byte
  | _, .leaf s => [0, 0, s, 0, 0, 0]
  | i, .node l r =>
    leBytes 2 (i + 1) ++ leBytes 2 (i + 1 + l.size) ++ [0, 0] ++ serializeFrom (i + 1) l ++
      serializeFrom (i + 1 + l.size) r

/-- Serialize(T) (41_huffman_build.md R245): the root is record 0. -/
def serializeTree (t : Tree) : List Byte := serializeFrom 0 t

/-- The 36-byte entry of a codeword (30_encoding.md R183): u16 length, u16 0, then bit `j` of the codeword at bit `j mod 8` of
byte `4 + j div 8`, every other bit 0. -/
def dumpEntry (c : List Bool) : List Byte :=
  leBytes 2 c.length ++ leBytes 2 0 ++
    (List.range 32).map fun j => BitVec.ofNat 8 (bitsToNat ((c.drop (8 * j)).take 8))

/-- The 9216-byte dump, the entry of symbol `v` at `36 v` (30_encoding.md R183). -/
def dumpCodes (c : Vector (List Bool) 256) : List Byte := c.toList.flatMap dumpEntry

end Sys2Proof.Machine
end

