-- ==== Sys2Proof/Machine/HuffmanBuild.lean ====
section
/-!
DEFINITION. The tree builder's commands (41_huffman_build.md R231, R232, R238, R239, R244, R247, R250).
-/
namespace Sys2Proof.Machine

/-- The build step of 41_huffman_build.md R238 over FREQ as it stands: the tree is installed and the command completes with
its node count and its number of present symbols. -/
def State.buildFromFreq (s : State) : State :=
  (s.installTree (buildTree s.freq)).complete (buildTree s.freq).size (presentSymbols s.freq).length

/-- HUF_FREQ_CLEAR (41_huffman_build.md R231). -/
def execHufFreqClear (s : State) : Host.Outcome State Fault Refusal :=
  .next ((s.setFreq (Vector.replicate 256 0) 0).complete)

/-- HUF_FREQ_ADD (41_huffman_build.md R232). -/
def execHufFreqAdd (s : State) : Host.Outcome State Fault Refusal :=
  if !s.regionValid (s.arg 0) (s.arg 1) then .next (s.raise .bounds 0)
  else if 2 ^ 32 - 1 < s.huf.total.toNat + s.arg 1 then .next (s.raise .freqOverflow 0)
  else
    .next
      ((s.setFreq (countSymbols s.freq (s.buf.bytes (s.arg 0) (s.arg 1))) (s.huf.total.toNat + s.arg 1)).complete
        (s.huf.total.toNat + s.arg 1))

/-- HUF_BUILD (41_huffman_build.md R238). -/
def execHufBuild (s : State) : Host.Outcome State Fault Refusal := .next s.buildFromFreq

/-- HUF_BUILD_FROM (41_huffman_build.md R239): FREQ is cleared, the source counted, and a tree built as HUF_BUILD does. -/
def execHufBuildFrom (s : State) : Host.Outcome State Fault Refusal :=
  if !s.regionValid (s.arg 0) (s.arg 1) then .next (s.raise .bounds 0)
  else
    .next
      (s.setFreq (countSymbols (Vector.replicate 256 0) (s.buf.bytes (s.arg 0) (s.arg 1))) (s.arg 1)).buildFromFreq

/-- HUF_DERIVE (41_huffman_build.md R244). -/
def execHufDerive (s : State) : Host.Outcome State Fault Refusal :=
  if !s.huf.treeValid then .next (s.raise .noTree 0)
  else
    let c := deriveCodes s.tree
    .next ((s.installCodes c (maxCodeLength c)).complete (codeCount c) (maxCodeLength c))

/-- HUF_SERIALIZE (41_huffman_build.md R247). -/
def execHufSerialize (s : State) : Host.Outcome State Fault Refusal :=
  let need := 6 * s.huf.nodeCount.toNat
  if !s.huf.treeValid then .next (s.raise .noTree 0)
  else if !s.regionValid (s.arg 0) (s.arg 1) then .next (s.raise .bounds 0)
  else if s.arg 1 < need then .next (s.raise .capacity need)
  else
    .next ((s.withBuf (s.buf.store (s.arg 0) (serializeTree s.tree))).complete need s.huf.nodeCount.toNat)

/-- HUF_DUMP_CODES (41_huffman_build.md R250). -/
def execHufDumpCodes (s : State) : Host.Outcome State Fault Refusal :=
  if !s.huf.codesValid then .next (s.raise .noCodes 0)
  else if !s.regionValid (s.arg 0) (s.arg 1) then .next (s.raise .bounds 0)
  else if s.arg 1 < 9216 then .next (s.raise .capacity 9216)
  else .next ((s.withBuf (s.buf.store (s.arg 0) (dumpCodes s.code))).complete 9216)

end Sys2Proof.Machine
end

