-- ==== Sys2Proof/Machine/HuffmanDecode.lean ====
section
/-!
DEFINITION. HUF_DECODE (42_huffman_decode.md R277).
-/
namespace Sys2Proof.Machine

/-- The inputs of a HUF_DECODE: tree ARG0, ARG1; blob ARG2, ARG3 (42_huffman_decode.md R277). -/
def State.decodeSource (s : State) : DecodeSource :=
  { tree := s.arg 0, treeLen := s.arg 1, blob := s.arg 2, blobLen := s.arg 3 }

/-- HUF_DECODE (42_huffman_decode.md R277). An error of the walk leaves the destination region unspecified
(60_exceptions.md R375). -/
def execHufDecode (s : State) : Host.Outcome State Fault Refusal :=
  if !s.regionValid (s.arg 0) (s.arg 1) then .next (s.raise .bounds 0)
  else if !s.regionValid (s.arg 2) (s.arg 3) then .next (s.raise .bounds 2)
  else if !s.regionValid (s.arg 6) (2 * s.arg 5) then .next (s.raise .bounds 6)
  else if regionsOverlap (s.arg 6) (2 * s.arg 5) (s.arg 0) (s.arg 1) ||
      regionsOverlap (s.arg 6) (2 * s.arg 5) (s.arg 2) (s.arg 3) then .next (s.raise .overlap 0)
  else
    match decodeCore s.buf s.decodeSource (s.arg 5) (s.arg 4) with
    | .error e => .next ((s.havoc (s.arg 6) (2 * s.arg 5)).raise e.code e.info)
    | .ok (out, pend) => .next ((s.withBuf (s.buf.store (s.arg 6) out)).complete pend (2 * s.arg 5))

end Sys2Proof.Machine
end

