-- ==== Sys2Proof/Machine/HuffmanEncode.lean ====
section
/-!
DEFINITION. The encoder's commands (43_huffman_encode.md R296 to R298).
-/
namespace Sys2Proof.Machine

/-- HUF_PACK (43_huffman_encode.md R296). -/
def execHufPack (s : State) : Host.Outcome State Fault Refusal :=
  if s.arg 1 % 2 ≠ 0 then .next (s.raise .arg 1)
  else if !s.regionValid (s.arg 0) (s.arg 1) then .next (s.raise .bounds 0)
  else if !s.regionValid (s.arg 2) (s.arg 1 / 2) then .next (s.raise .bounds 2)
  else if regionsOverlap (s.arg 0) (s.arg 1) (s.arg 2) (s.arg 1 / 2) then .next (s.raise .overlap 0)
  else
    match firstBadPixel 0 (s.buf.bytes (s.arg 0) (s.arg 1)) with
    | some i => .next (s.raise .fmtPixelRange i)
    | none =>
      .next
        ((s.withBuf (s.buf.store (s.arg 2) (packPixels (s.buf.bytes (s.arg 0) (s.arg 1))))).complete (s.arg 1 / 2))

/-- HUF_ENCODE (43_huffman_encode.md R297). -/
def execHufEncode (s : State) : Host.Outcome State Fault Refusal :=
  if !s.huf.codesValid then .next (s.raise .noCodes 0)
  else if !s.regionValid (s.arg 0) (s.arg 1) then .next (s.raise .bounds 0)
  else if !s.regionValid (s.arg 2) (s.arg 3) then .next (s.raise .bounds 2)
  else if regionsOverlap (s.arg 0) (s.arg 1) (s.arg 2) (s.arg 3) then .next (s.raise .overlap 0)
  else
    match firstNoCode s.code (s.buf.bytes (s.arg 0) (s.arg 1)) with
    | some v => .next (s.raise .noCode v.toNat)
    | none =>
      let c := codeBits s.code (s.buf.bytes (s.arg 0) (s.arg 1))
      let e := s.arg 4 + c.length
      if s.arg 3 < blobBytesFor e then .next (s.raise .capacity (blobBytesFor e))
      else
        .next
          ((s.withBuf (padBlob (s.buf.placeBits (s.arg 2) (s.arg 4) c) (s.arg 2) e)).complete e (blobBytesFor e) c.length)

/-- The codeword streams of the `n` glyphs of `gs` packed bytes each that lie back to back from `a`
(43_huffman_encode.md R298). -/
def glyphStreams (m : Mem) (c : Vector (List Bool) 256) (a gs : Nat) : (n : Nat) → List (List Bool)
  | 0 => []
  | n + 1 => codeBits c (m.bytes a gs) :: glyphStreams m c (a + gs) gs n

/-- HUF_COMPRESS (43_huffman_encode.md R298). -/
def execHufCompress (s : State) : Host.Outcome State Fault Refusal :=
  let n := s.arg 1 * s.arg 2
  if !s.huf.codesValid then .next (s.raise .noCodes 0)
  else if !s.regionValid (s.arg 0) n then .next (s.raise .bounds 0)
  else if !s.regionValid (s.arg 3) (s.arg 4) then .next (s.raise .bounds 3)
  else if !s.regionValid (s.arg 5) (4 * s.arg 1) then .next (s.raise .bounds 5)
  else if regionsOverlap (s.arg 0) n (s.arg 3) (s.arg 4) || regionsOverlap (s.arg 0) n (s.arg 5) (4 * s.arg 1) ||
      regionsOverlap (s.arg 3) (s.arg 4) (s.arg 5) (4 * s.arg 1) then .next (s.raise .overlap 0)
  else
    match firstNoCode s.code (s.buf.bytes (s.arg 0) n) with
    | some v => .next (s.raise .noCode v.toNat)
    | none =>
      let streams := glyphStreams s.buf s.code (s.arg 0) (s.arg 2) (s.arg 1)
      let total := streams.flatten.length
      if s.arg 4 < blobBytesFor total then .next (s.raise .capacity (blobBytesFor total))
      else
        let placed := padBlob (placeStreams s.buf (s.arg 3) 0 streams) (s.arg 3) total
        .next
          ((s.withBuf (placed.store (s.arg 5) (positionTable (glyphStarts 0 streams)))).complete total
            (blobBytesFor total) (4 * s.arg 1))

end Sys2Proof.Machine
end

