-- ==== Sys2Proof/Machine/Dispatch.lean ====
section
/-!
DEFINITION. The meaning of every command of the opcode map (30_encoding.md R142), one arm per constructor: the engine's
execution step of a command (10_state.md R50).
-/
namespace Sys2Proof.Machine

def exec (i : Instr) (s : State) : Host.Outcome State Fault Refusal :=
  match i with
  | .nop => Sys2Proof.Machine.execNop s
  | .curSet => Sys2Proof.Machine.execCurSet s
  | .curRd8 => Sys2Proof.Machine.execCurRd8 s
  | .curRd16 => Sys2Proof.Machine.execCurRd16 s
  | .curRd32 => Sys2Proof.Machine.execCurRd32 s
  | .curWr8 => Sys2Proof.Machine.execCurWr8 s
  | .curWr16 => Sys2Proof.Machine.execCurWr16 s
  | .curWr32 => Sys2Proof.Machine.execCurWr32 s
  | .curSkip => Sys2Proof.Machine.execCurSkip s
  | .curRdBits => Sys2Proof.Machine.execCurRdBits s
  | .curWrBits => Sys2Proof.Machine.execCurWrBits s
  | .hufFreqClear => Sys2Proof.Machine.execHufFreqClear s
  | .hufFreqAdd => Sys2Proof.Machine.execHufFreqAdd s
  | .hufBuild => Sys2Proof.Machine.execHufBuild s
  | .hufBuildFrom => Sys2Proof.Machine.execHufBuildFrom s
  | .hufDerive => Sys2Proof.Machine.execHufDerive s
  | .hufSerialize => Sys2Proof.Machine.execHufSerialize s
  | .hufDumpCodes => Sys2Proof.Machine.execHufDumpCodes s
  | .hufDecode => Sys2Proof.Machine.execHufDecode s
  | .hufPack => Sys2Proof.Machine.execHufPack s
  | .hufEncode => Sys2Proof.Machine.execHufEncode s
  | .hufCompress => Sys2Proof.Machine.execHufCompress s
  | .fcpParse => Sys2Proof.Machine.execFcpParse s

end Sys2Proof.Machine
end

