-- ==== Sys2Proof/Machine/Flags.lean ====
section
/-!
DEFINITION. The words the status and control registers read as, and the interrupt line: STATUS (10_state.md R35), HUF_STATE
(R46), IRQ_EN (R49), IRQ (60_exceptions.md R380). The block has no condition codes (10_state.md R31).
-/
namespace Sys2Proof.Machine

/-- STATUS as a word: LASTOP in 23:16, ERRCODE in 15:8, REJECTED, ERR, DONE, BUSY in 3:0, every other bit 0
(10_state.md R35). -/
def Status.toWord (st : Status) : Word :=
  0#8 ++ st.lastOp ++ st.errCode ++ 0#4 ++ BitVec.ofBool st.rejected ++ BitVec.ofBool st.err ++ BitVec.ofBool st.done ++
    BitVec.ofBool st.busy

/-- HUF_STATE as a word: NODE_COUNT in 24:16, LEAF_ROOT, CODES_VALID, TREE_VALID in 2:0, every other bit 0
(10_state.md R46). -/
def HufRegs.stateWord (h : HufRegs) : Word :=
  0#7 ++ h.nodeCount ++ 0#13 ++ BitVec.ofBool h.leafRoot ++ BitVec.ofBool h.codesValid ++ BitVec.ofBool h.treeValid

/-- IRQ_EN as a word: ERR_IE in bit 1, DONE_IE in bit 0, every other bit 0 (10_state.md R49). -/
def IrqEnable.toWord (e : IrqEnable) : Word := 0#30 ++ BitVec.ofBool e.errIE ++ BitVec.ofBool e.doneIE

/-- The interrupt line (60_exceptions.md R380):
IRQ = (DONE ∧ DONE_IE) ∨ ((ERR ∨ REJECTED) ∧ ERR_IE). -/
def State.irq (s : State) : Bool :=
  (s.status.done && s.irqEn.doneIE) || ((s.status.err || s.status.rejected) && s.irqEn.errIE)

end Sys2Proof.Machine
end

