-- ==== Sys2Proof/Machine/HostPort.lean ====
section
/-!
DEFINITION. The host port: the address map (20_memory.md R101, R102), the register block (10_state.md R32 to R59), BUF accesses
(20_memory.md R105, R109), bus errors (R106) and the side effects of writes (R113).
-/
namespace Sys2Proof.Machine

/-- The number of bytes an access moves (20_memory.md R105). -/
def AccessWidth.bytes : AccessWidth → Nat
  | .byte => 1
  | .half => 2
  | .word => 4

/-- What a host address names (20_memory.md R101). -/
inductive Target where
  | reg (offset : Nat)
  | buf (addr : Nat)
  | nothing
deriving DecidableEq, Repr

/-- The host address of BUF's byte 0 (20_memory.md R101). -/
def bufWindow : Nat := 0x01000000

/-- The address map (20_memory.md R101): registers at 0x000 to 0xFFF, BUF at 0x0100_0000, nothing elsewhere. -/
def targetOf (p : Params) (addr : Word) : Target :=
  if addr.toNat < 0x1000 then .reg addr.toNat
  else if bufWindow ≤ addr.toNat ∧ addr.toNat < bufWindow + p.bufSize then .buf (addr.toNat - bufWindow)
  else .nothing

/-- The registers of the map 10_state.md R32. -/
inductive Reg where
  | id
  | cmd
  | status
  | errInfo
  | arg (k : Fin 8)
  | res (k : Fin 4)
  | curBase
  | curLen
  | curBitPos
  | hufState
  | hufTotal
  | hufMaxLen
  | irqEn
  | ctrl
  | freq (v : Byte)
  | codeLen (v : Byte)
  | reserved
deriving DecidableEq, Repr

/-- The register at a 4-byte-aligned offset of the register block (10_state.md R32); an offset not listed is reserved
(R55). -/
def regAt (off : Nat) : Reg :=
  if off = 0x000 then .id
  else if off = 0x004 then .cmd
  else if off = 0x008 then .status
  else if off = 0x00C then .errInfo
  else if off < 0x030 then .arg (Fin.ofNat 8 ((off - 0x010) / 4))
  else if off < 0x040 then .res (Fin.ofNat 4 ((off - 0x030) / 4))
  else if off = 0x040 then .curBase
  else if off = 0x044 then .curLen
  else if off = 0x048 then .curBitPos
  else if off = 0x04C then .hufState
  else if off = 0x050 then .hufTotal
  else if off = 0x054 then .hufMaxLen
  else if off = 0x058 then .irqEn
  else if off = 0x05C then .ctrl
  else if off < 0x400 then .reserved
  else if off < 0x800 then .freq (BitVec.ofNat 8 ((off - 0x400) / 4))
  else if off < 0xC00 then .codeLen (BitVec.ofNat 8 ((off - 0x800) / 4))
  else .reserved

/-- The registers a read of which returns an unspecified value while BUSY = 1 (10_state.md R59). -/
def Reg.engineOwned : Reg → Bool
  | .errInfo => true
  | .res _ => true
  | .curBase => true
  | .curLen => true
  | .curBitPos => true
  | .hufState => true
  | .hufTotal => true
  | .hufMaxLen => true
  | .freq _ => true
  | .codeLen _ => true
  | .id => false
  | .cmd => false
  | .status => false
  | .arg _ => false
  | .irqEn => false
  | .ctrl => false
  | .reserved => false

/-- The value of ID (10_state.md R33). -/
def idValue : Word := 0x48460007

/-- The defined value a register reads as (10_state.md R32 to R57). -/
def State.regValue (s : State) : Reg → Word
  | .id => idValue
  | .cmd => 0
  | .status => s.status.toWord
  | .errInfo => s.errInfo
  | .arg k => s.args[k]
  | .res k => s.res[k]
  | .curBase => s.cur.base
  | .curLen => s.cur.len
  | .curBitPos => s.cur.bitPos
  | .hufState => s.huf.stateWord
  | .hufTotal => s.huf.total
  | .hufMaxLen => s.huf.maxLen
  | .irqEn => s.irqEn.toWord
  | .ctrl => 0
  | .freq v => tableGet s.freq v
  | .codeLen v => if s.huf.codesValid then BitVec.ofNat 32 (tableGet s.code v).length else 0
  | .reserved => 0

/-- The one register read: an engine-owned register read while BUSY = 1 returns a free value, a new one per read (10_state.md
R59; log entry 3); every other read returns the register's value and changes nothing (20_memory.md R113). -/
def State.regRead (s : State) (r : Reg) : State :=
  if s.status.busy && r.engineOwned then
    { s with response := .data (Config.freeWord s.freeIdx), freeIdx := s.freeIdx + 1 }
  else s.respond (.data (s.regValue r))

/-- A CMD write: a command issue, accepted while BUSY = 0 and rejected while BUSY = 1 (10_state.md R34, R50, R51). -/
def State.issue (s : State) (c : Word) : State := if s.status.busy then s.reject else s.accept c

/-- The one register write (10_state.md R32): CMD issues a command, STATUS is W1C (R35), ARGk (R43) and IRQ_EN (R49) store,
CTRL bit 0 resets (R54); a write to any other register is ignored (R32, R55). -/
def State.regWrite (s : State) (v : Word) : Reg → State
  | .cmd => s.issue v
  | .status => s.writeStatus v
  | .arg k => s.writeArg k v
  | .irqEn => s.writeIrqEn v
  | .ctrl => if v.getLsbD 0 then s.softReset else s
  | .id => s
  | .errInfo => s
  | .res _ => s
  | .curBase => s
  | .curLen => s
  | .curBitPos => s
  | .hufState => s
  | .hufTotal => s
  | .hufMaxLen => s
  | .freq _ => s
  | .codeLen _ => s
  | .reserved => s

/-- A register access is allowed iff it is 32 bits wide at a 4-byte-aligned offset (10_state.md R58). -/
def regAccessOk (off : Nat) (w : AccessWidth) : Bool := w == .word && off % 4 == 0

/-- A BUF access is allowed iff it is naturally aligned and inside BUF (20_memory.md R102, R105). The window's base is a
multiple of every width, so the engine address is aligned iff the host address is. -/
def bufAccessOk (p : Params) (a : Nat) (w : AccessWidth) : Bool :=
  a % w.bytes == 0 && decide (a + w.bytes ≤ p.bufSize)

/-- One host access, as one indivisible step (20_memory.md R112). A forbidden access completes with a bus error and changes
nothing (R106). -/
def State.hostAccess (s : State) : HostAccess → State
  | .read addr w =>
    match targetOf s.params addr with
    | .reg off => if regAccessOk off w then s.regRead (regAt off) else s.respond .busError
    | .buf a =>
      if bufAccessOk s.params a w then s.respond (.data (BitVec.ofNat 32 (s.buf.readLE a w.bytes)))
      else s.respond .busError
    | .nothing => s.respond .busError
  | .write addr w v =>
    match targetOf s.params addr with
    | .reg off => if regAccessOk off w then (s.regWrite v (regAt off)).respond .written else s.respond .busError
    | .buf a =>
      if bufAccessOk s.params a w then (s.withBuf (s.buf.writeLE a w.bytes v.toNat)).respond .written
      else s.respond .busError
    | .nothing => s.respond .busError

/-- The host address of an access. -/
def HostAccess.addr : HostAccess → Word
  | .read a _ => a
  | .write a _ _ => a

/-- Whether an access is held: it is to the BUF window and BUSY = 1 (20_memory.md R109; log entry 5). -/
def State.holds (s : State) (a : HostAccess) : Bool :=
  s.status.busy &&
    match targetOf s.params a.addr with
    | .buf _ => true
    | .reg _ => false
    | .nothing => false

/-! ### The host-sequence lines of 30_encoding.md R145 and R146 -/

/-- A 32-bit host write of a register. -/
def regLine (off : Nat) (v : Word) : Event := .host (.write (BitVec.ofNat 32 off) .word v)

/-- `ARGk <- v` (30_encoding.md R145). -/
def argLine (k : Fin 8) (v : Word) : Event := regLine (0x010 + 4 * k.val) v

/-- `CMD #w` (30_encoding.md R145). -/
def cmdLine (w : Word) : Event := regLine 0x004 w

/-- `STATUS <- m` (30_encoding.md R145). -/
def statusLine (m : Word) : Event := regLine 0x008 m

/-- `IRQ_EN <- v` (30_encoding.md R145). -/
def irqEnLine (v : Word) : Event := regLine 0x058 v

/-- `CTRL <- v` (30_encoding.md R145). -/
def ctrlLine (v : Word) : Event := regLine 0x05C v

/-- `R <- REG` (30_encoding.md R145), the register at an offset. -/
def readLine (off : Nat) : Event := .host (.read (BitVec.ofNat 32 off) .word)

/-- `BUF[a] <- b0 b1 …` (30_encoding.md R145): one 1-byte host write per byte. -/
def bufLines : (a : Nat) → List Byte → List Event
  | _, [] => []
  | a, b :: bs => .host (.write (BitVec.ofNat 32 (bufWindow + a)) .byte (b.setWidth 32)) :: bufLines (a + 1) bs

/-- `ARGk <- v` for the operands of a list, from ARG `k` on. -/
def argLines : (k : Nat) → List Word → List Event
  | _, [] => []
  | k, v :: vs => argLine (Fin.ofNat 8 k) v :: argLines (k + 1) vs

/-- `OP a0, a1, …` (30_encoding.md R146): the operands, the command word, and WAIT, the host's polling of STATUS until the
engine's execution step has happened. -/
def opLines (i : Instr) (operands : List Word) : List Event := argLines 0 operands ++ [cmdLine (encode i), .engine]

end Sys2Proof.Machine
end

