-- ==== Sys2Proof/Machine/Engine.lean ====
section
/-!
DEFINITION. Who moves next: the engine's execution step of the pending command (10_state.md R50), the host's accesses and
power-on resets, in the order the script gives (20_memory.md R117; log entries 4, 5 and 11).
-/
namespace Sys2Proof.Machine

/-- The engine's execution step (10_state.md R50): the latched word is decoded and run; a reserved word raises
E_UNSUPPORTED with the word as its information (30_encoding.md R143). With PENDING empty there is nothing to run. -/
def State.executePending (s : State) : Host.Outcome State Fault Refusal :=
  match s.pending with
  | none => .next s
  | some p =>
    match decode p.word with
    | .ok i => exec i s
    | .error _ => .next (s.raise .unsupported p.word.toNat)

/-- One event. With no event left the engine's execution step happens if a command is pending (weak fairness,
70_reset_and_hazards.md R430) and the block is idle otherwise. A held host access stays at the head of the script while the
engine's step lifts it (20_memory.md R109). -/
def State.advance (s : State) : Host.Outcome State Fault Refusal :=
  match s.script with
  | [] => s.executePending
  | .engine :: _ => s.dropEvent.executePending
  | .powerOn :: _ => .next s.dropEvent.powerOn
  | .host a :: _ => if s.holds a then s.executePending else .next (s.dropEvent.hostAccess a)

/-- The command word `w` accepted, and the engine's execution step next: what `State.withFetchWord` does (log entry 4). -/
def State.placeCommand (s : State) (w : Nat) : State :=
  { s.accept (BitVec.ofNat 32 w) with script := .engine :: s.script }

end Sys2Proof.Machine
end

