-- ==== Sys2Proof/Machine/Step.lean ====
section
/-!
DEFINITION. One step of the machine: one event of the total order of 20_memory.md R117.
-/
namespace Sys2Proof.Machine

/-- One step: the next event of the script (Machine/Engine.lean). -/
def step (s : State) : Host.Outcome State Fault Refusal := s.advance

/-- `s` with the command word `w` accepted and its execution step next. A command is one 32-bit CMD write (30_encoding.md
R144), so every opcode-table row has all its bits in `w`, whatever `nbits` (log entry 4). -/
def State.withFetchWord (s : State) (_nbits w : Nat) : State := s.placeCommand w

end Sys2Proof.Machine
end

