-- ==== Sys2Proof/Machine/Contract.lean ====
section
/-!
DEFINITION. The host's assembly of a container (44_container.md R345 to R352), as a function of the font and the OPEN host
parameters: what a host that follows the contract leaves in BUF. The block itself never runs it (00_scope.md R6); it is the
other half of R353's round trip (log entry 18).
-/
namespace Sys2Proof.Machine

/-- A field of the container whose value the parse ignores, or only checks for sanity (30_encoding.md R168, R169, R171
to R173; 44_container.md R344). `alpha c` is the alpha byte of colour `c`. DESIGN CHOICE (log entry 18): the spec calls
the reserved block "unused fields" (R171) and divides it into none, so a field there is any run of its bytes: `reservedBlock o w`
is the `w` bytes from offset `o` of the block. -/
inductive IgnoredField where
  | headerSize
  | reserved
  | flags
  | pixelsPerGlyph
  | depth
  | padding
  | alpha (c : Nat)
  | reservedBlock (o w : Nat)
  | sectionSize
  | sizeInBits
  | positionTableSize
  | totalSize
  | subHeader
deriving DecidableEq, Repr

/-- The OPEN parameter SIM_FIELD (44_container.md R351) where a host writes it: the field it is, and how the operands
`totalStreamLength` and `widthTableLength` of its formula are measured on a font whose container is `E` bytes long. -/
structure SimField where
  field : IgnoredField
  totalStreamLength : FontModel → (E : Nat) → Nat
  widthTableLength : FontModel → (E : Nat) → Nat

/-- The OPEN host parameters of 44_container.md R352, one field for each of its rows; the parse ignores every one of them.
`simField = none` is SIM_FIELD not written. -/
structure ContractParams where
  headerSize : Nat
  flags : List Byte
  alpha : Byte
  sectionSize : Nat
  uncompressedSize : Nat
  simField : Option SimField

/-- Step 1 (44_container.md R346): the glyphs' packed pixels, back to back. -/
def packedGlyphs (f : FontModel) : List Byte := f.grids.flatMap packPixels

/-- Step 2 (44_container.md R347): one tree over all the packed bytes. -/
def contractTree (f : FontModel) : Tree := buildTree (countSymbols (Vector.replicate 256 0) (packedGlyphs f))

/-- Each glyph's codeword stream under the codes of the one tree (44_container.md R347, R349). -/
def contractStreams (f : FontModel) : List (List Bool) :=
  f.grids.map fun g => codeBits (deriveCodes (contractTree f)) (packPixels g)

/-- The total number of codeword bits, HUF_COMPRESS RES0 (44_container.md R350). -/
def contractBits (f : FontModel) : Nat := (contractStreams f).flatten.length

/-- The blob HUF_COMPRESS writes: the streams back to back and the padding (43_huffman_encode.md R298). -/
def contractBlob (f : FontModel) : List Byte :=
  (padBlob (placeStreams [] 0 0 (contractStreams f)) 0 (contractBits f)).bytes 0 (blobBytesFor (contractBits f))

/-- HTS = 2 + 6N (44_container.md R350). -/
def contractTreeSize (f : FontModel) : Nat := 2 + 6 * (contractTree f).size

/-- Step 3 (44_container.md R348): header, palette, variable-width table and reserved block. -/
def containerFixedPart (p : ContractParams) (f : FontModel) : List Byte :=
  leBytes 4 p.headerSize ++ List.replicate 4 0 ++ p.flags ++ leBytes 2 f.numGlyphs ++ leBytes 2 f.charWidth ++
    leBytes 2 f.charHeight ++ leBytes 2 (f.charWidth * f.charHeight) ++ leBytes 2 1 ++ List.replicate 8 0 ++
    (f.palette.flatMap fun c => [c.1, c.2.1, c.2.2, p.alpha]) ++ leBytes 4 (2 * f.numGlyphs) ++
    (f.metrics.flatMap fun g => [BitVec.ofNat 8 g.bearingX, BitVec.ofNat 8 g.advance]) ++
    List.replicate (4 + 4 * f.numGlyphs) 0

/-- Step 5 (44_container.md R350): the section header. -/
def containerSectionHeader (p : ContractParams) (f : FontModel) : List Byte :=
  leBytes 4 p.sectionSize ++ leBytes 4 (contractTreeSize f) ++ leBytes 4 (contractBlob f).length ++
    leBytes 4 (contractBits f) ++ leBytes 4 (f.charWidth * f.charHeight / 2) ++ leBytes 4 f.numGlyphs ++
    leBytes 4 (4 * f.numGlyphs) ++ leBytes 4 p.uncompressedSize

/-- The container of assembly steps 1 to 5 (44_container.md R346 to R350): fixed part, section header, sub-header `00 00` and
tree, position table, blob (R349). -/
def containerBeforeSim (p : ContractParams) (f : FontModel) : List Byte :=
  containerFixedPart p f ++ containerSectionHeader p f ++ [0, 0] ++ serializeTree (contractTree f) ++
    positionTable (glyphStarts 0 (contractStreams f)) ++ contractBlob f

/-- The offset of a field in the container of `g` glyphs, with `V = 100 + 2G` and `S = V + 4 + 4G` (30_encoding.md R168, R169,
R171 to R173, R179; 44_container.md R349). -/
def IgnoredField.offset (g : Nat) : IgnoredField → Nat
  | .headerSize => 0
  | .reserved => 4
  | .flags => 8
  | .pixelsPerGlyph => 20
  | .depth => 22
  | .padding => 24
  | .alpha c => 35 + 4 * c
  | .reservedBlock o _ => 100 + 2 * g + o
  | .sectionSize => 104 + 6 * g
  | .sizeInBits => 104 + 6 * g + 12
  | .positionTableSize => 104 + 6 * g + 24
  | .totalSize => 104 + 6 * g + 28
  | .subHeader => 104 + 6 * g + 32

/-- The number of bytes of a field (30_encoding.md R168, R169, R171 to R173). -/
def IgnoredField.width : IgnoredField → Nat
  | .headerSize => 4
  | .reserved => 4
  | .flags => 6
  | .pixelsPerGlyph => 2
  | .depth => 2
  | .padding => 8
  | .alpha _ => 1
  | .reservedBlock _ w => w
  | .sectionSize => 4
  | .sizeInBits => 4
  | .positionTableSize => 4
  | .totalSize => 4
  | .subHeader => 2

/-- Whether the container of `g` glyphs has the field: there are 16 colours, and the reserved block is `4 + 4G` bytes
(30_encoding.md R169, R171), and a field of it any run of them (log entry 18). -/
def IgnoredField.present (g : Nat) : IgnoredField → Bool
  | .alpha c => decide (c < 16)
  | .reservedBlock o w => decide (o + w ≤ 4 + 4 * g)
  | _ => true

/-- `totalStreamLength − widthTableLength − 7` (44_container.md R351) for a container of `E` bytes. -/
def SimField.value (s : SimField) (f : FontModel) (E : Nat) : Int :=
  (s.totalStreamLength f E : Int) - s.widthTableLength f E - 7

/-- The bytes of a list from offset `o` on replaced by `bs`. -/
def patchBytes (l : List Byte) (o : Nat) (bs : List Byte) : List Byte := l.take o ++ bs ++ l.drop (o + bs.length)

/-- The "size in memory" field patched last, when the container's length is known (44_container.md R351): the value's low bytes,
little-endian, in the field's width (log entry 18). -/
def patchSim (sim : Option SimField) (f : FontModel) (l : List Byte) : List Byte :=
  match sim with
  | none => l
  | some s =>
    patchBytes l (s.field.offset f.numGlyphs)
      (leBytes s.field.width (s.value f l.length % 2 ^ (8 * s.field.width)).toNat)

/-- The assembled container (44_container.md R346 to R351). -/
def assembleContainer (p : ContractParams) (f : FontModel) : List Byte := patchSim p.simField f (containerBeforeSim p f)

/-- The host's parameters have the form of 44_container.md R351 and R352 for this font: six flag bytes, and SIM_FIELD a field of
its container. -/
def ContractParams.fits (p : ContractParams) (f : FontModel) : Bool :=
  decide (p.flags.length = 6) && p.simField.all fun s => s.field.present f.numGlyphs

/-- The reference values of 44_container.md R352 for a font. -/
def referenceContract (f : FontModel) : ContractParams :=
  { headerSize := 0x20
    flags := List.replicate 6 0
    alpha := 0xFF
    sectionSize := 32 + contractTreeSize f + 4 * f.numGlyphs + (contractBlob f).length
    uncompressedSize := f.numGlyphs * (f.charWidth * f.charHeight / 2)
    simField := none }

/-- The fonts a container can hold (44_container.md R353): 1 to 65535 glyphs, CW · CH even and at least 2, one metrics record and
one grid of CW · CH pixel values 0 to 15 per glyph, 16 colours, codes 0x20 + i, byte metrics, width = advance − bearingX. -/
def FontModel.fitsContainer (f : FontModel) : Bool :=
  decide (1 ≤ f.numGlyphs ∧ f.numGlyphs < 2 ^ 16 ∧ f.charWidth < 2 ^ 16 ∧ f.charHeight < 2 ^ 16) &&
    decide (f.charWidth * f.charHeight % 2 = 0 ∧ 2 ≤ f.charWidth * f.charHeight) &&
    decide (f.images = f.numGlyphs ∧ f.palette.length = 16 ∧ f.metrics.length = f.numGlyphs ∧
      f.grids.length = f.numGlyphs) &&
    (f.metrics.zipIdx.all fun p =>
      decide (p.1.code = 0x20 + p.2 ∧ p.1.bearingX < 256 ∧ p.1.advance < 256 ∧
        p.1.width = (p.1.advance : Int) - p.1.bearingX)) &&
    (f.grids.all fun g => decide (g.length = f.charWidth * f.charHeight) && g.all fun x => decide (x.toNat ≤ 15))

end Sys2Proof.Machine
end

