-- ==== Sys2Proof/Safety.lean ====
section
/-!
DEFINITION. The terms claims use: what a completion and an error leave (10_state.md R52, R53), what a command keeps, and the
invariants of the state (10_state.md R37, R45, R47, R63, R64; 20_memory.md R100).
-/
namespace Sys2Proof.Machine

/-! ### Values in the spec's own formulas -/

/-- LE_n(a) = Σ_{k<n} byte(a + k) · 2^(8k) (00_scope.md R13). -/
def littleEndianAt (m : Mem) (a n : Nat) : Nat :=
  ((List.range n).map fun k => (m.readByte (a + k)).toNat * 2 ^ (8 * k)).sum

/-- How often byte `v` occurs among the `n` bytes from `a`. -/
def occurrences (m : Mem) (a n : Nat) (v : Byte) : Nat :=
  ((List.range n).filter fun j => decide (m.readByte (a + j) = v)).length

/-- The number of present symbols, those with FREQ[v] > 0 (41_huffman_build.md R230). -/
def presentCount (f : Vector Word 256) : Nat :=
  ((List.range 256).filter fun v => decide (tableGet f (BitVec.ofNat 8 v) ≠ 0)).length

/-- CB(t) = (MemByte(CUR_BASE + (t div 8)) div 2^(t mod 8)) mod 2 (40_cursor.md R200). -/
def State.cursorBit (s : State) (t : Nat) : Nat :=
  (s.buf.readByte (s.cur.base.toNat + t / 8)).toNat / 2 ^ (t % 8) % 2

/-- The stream bit `bit(p)` of the blob at `base`, as 00_scope.md R16 writes it. -/
def streamBit (m : Mem) (base p : Nat) : Nat :=
  littleEndianAt m (base + 2 * (p / 16)) 2 / 2 ^ (p % 16) % 2

/-- The symbol of the leaf a path of bits leads to (41_huffman_build.md R241): bit 0 to the left child, bit 1 to the right. -/
def treeFollow : Tree → List Bool → Option Byte
  | .leaf v, [] => some v
  | .leaf _, _ :: _ => none
  | .node _ _, [] => none
  | .node l _, false :: p => treeFollow l p
  | .node _ r, true :: p => treeFollow r p

/-- "the item of Q least in the order of rule R234", and Q without it (41_huffman_build.md R233), Q in any order. -/
def takeLeast : List QueueItem → Option (QueueItem × List QueueItem)
  | [] => none
  | a :: rest =>
    match takeLeast rest with
    | none => some (a, [])
    | some (b, others) => if b.before a then some (b, a :: others) else some (a, rest)

/-- The loop of 41_huffman_build.md R233 word for word: two least items out, their parent in. -/
def mergeAsWritten : (fuel next : Nat) → List QueueItem → Tree
  | 0, _, q =>
    match q with
    | [] => .leaf 0
    | a :: _ => a.tree
  | fuel + 1, next, q =>
    match takeLeast q with
    | none => .leaf 0
    | some (a, q1) =>
      match takeLeast q1 with
      | none => a.tree
      | some (b, q2) =>
        mergeAsWritten fuel (next + 1) ({ freq := a.freq + b.freq, seq := next, tree := .node a.tree b.tree } :: q2)

/-- BuildTree word for word (41_huffman_build.md R233, R236). -/
def buildTreeAsWritten (f : Vector Word 256) : Tree :=
  match (List.range 256).filter fun v => decide (tableGet f (BitVec.ofNat 8 v) ≠ 0) with
  | [] => .leaf 0
  | [v] => .leaf (BitVec.ofNat 8 v)
  | symbols =>
    mergeAsWritten symbols.length symbols.length
      (symbols.zipIdx.map fun p =>
        { freq := (tableGet f (BitVec.ofNat 8 p.1)).toNat, seq := p.2, tree := .leaf (BitVec.ofNat 8 p.1) })

/-- `emit` of 41_huffman_build.md R245 word for word: from the counter `idx`, the index given to the root, the counter after the
subtree, and the records written, each with its index. -/
def emitAsWritten : Tree → (idx : Nat) → Nat × Nat × List (Nat × List Byte)
  | .leaf s, idx => (idx, idx + 1, [(idx, [0, 0, s, 0, 0, 0])])
  | .node l r, idx =>
    let (li, idx1, recs1) := emitAsWritten l (idx + 1)
    let (ri, idx2, recs2) := emitAsWritten r idx1
    (idx, idx2,
      recs1 ++ recs2 ++
        [(idx, [BitVec.ofNat 8 li, BitVec.ofNat 8 (li / 256), BitVec.ofNat 8 ri, BitVec.ofNat 8 (ri / 256), 0, 0])])

/-- The records of one symbol's walk word for word (42_huffman_decode.md R271, R272): from bit `p` at byte offset `tp` of the
tree, the walk ends with `r`. -/
inductive WalksAsWritten (m : Mem) (d : DecodeSource) : (p tp : Nat) → Except CmdError (Byte × Nat) → Prop
  /-- `if 2*w + 2 > B: raise E_FMT_BITSTREAM_END(p)` -/
  | blobEnds {p tp} (h : 2 * (p / 16) + 2 > d.blobLen) :
      WalksAsWritten m d p tp (.error { code := .fmtBitstreamEnd, info := p })
  /-- `if o + 2 > T: raise E_FMT_TREE_INDEX(o)` -/
  | noChildIndex {p tp o} (h : 2 * (p / 16) + 2 ≤ d.blobLen) (ho : o = tp + 2 * streamBit m d.blob p)
      (h1 : o + 2 > d.treeLen) : WalksAsWritten m d p tp (.error { code := .fmtTreeIndex, info := o })
  /-- `if tp + 2 > T: raise E_FMT_TREE_INDEX(tp)` -/
  | noLeafTest {p tp o child} (h : 2 * (p / 16) + 2 ≤ d.blobLen) (ho : o = tp + 2 * streamBit m d.blob p)
      (h1 : o + 2 ≤ d.treeLen) (hc : child = 6 * littleEndianAt m (d.tree + o) 2) (h2 : child + 2 > d.treeLen) :
      WalksAsWritten m d p tp (.error { code := .fmtTreeIndex, info := child })
  /-- `if tp + 3 > T: raise E_FMT_TREE_INDEX(tp + 2)` -/
  | noPayload {p tp o child} (h : 2 * (p / 16) + 2 ≤ d.blobLen) (ho : o = tp + 2 * streamBit m d.blob p)
      (h1 : o + 2 ≤ d.treeLen) (hc : child = 6 * littleEndianAt m (d.tree + o) 2) (h2 : child + 2 ≤ d.treeLen)
      (hl : littleEndianAt m (d.tree + child) 2 = 0) (h3 : child + 3 > d.treeLen) :
      WalksAsWritten m d p tp (.error { code := .fmtTreeIndex, info := child + 2 })
  /-- the referenced record is a leaf: its payload byte ends the symbol -/
  | leaf {p tp o child} (h : 2 * (p / 16) + 2 ≤ d.blobLen) (ho : o = tp + 2 * streamBit m d.blob p)
      (h1 : o + 2 ≤ d.treeLen) (hc : child = 6 * littleEndianAt m (d.tree + o) 2) (h2 : child + 2 ≤ d.treeLen)
      (hl : littleEndianAt m (d.tree + child) 2 = 0) (h3 : child + 3 ≤ d.treeLen) :
      WalksAsWritten m d p tp (.ok (m.readByte (d.tree + child + 2), p + 1))
  /-- "otherwise continue descending" -/
  | descends {p tp o child r} (h : 2 * (p / 16) + 2 ≤ d.blobLen) (ho : o = tp + 2 * streamBit m d.blob p)
      (h1 : o + 2 ≤ d.treeLen) (hc : child = 6 * littleEndianAt m (d.tree + o) 2) (h2 : child + 2 ≤ d.treeLen)
      (hl : littleEndianAt m (d.tree + child) 2 ≠ 0) (next : WalksAsWritten m d (p + 1) child r) :
      WalksAsWritten m d p tp r

/-- DecodeCore word for word (42_huffman_decode.md R272): `nsym` symbols, each from record 0, its nibbles low first. -/
inductive DecodesAsWritten (m : Mem) (d : DecodeSource) : (nsym p : Nat) → Except CmdError (List Byte × Nat) → Prop
  | done {p} : DecodesAsWritten m d 0 p (.ok ([], p))
  | symbolError {nsym p e} (h : WalksAsWritten m d p 0 (.error e)) : DecodesAsWritten m d (nsym + 1) p (.error e)
  | laterError {nsym p v p' e} (h : WalksAsWritten m d p 0 (.ok (v, p'))) (hr : DecodesAsWritten m d nsym p' (.error e)) :
      DecodesAsWritten m d (nsym + 1) p (.error e)
  | symbol {nsym p v p' out pend} (h : WalksAsWritten m d p 0 (.ok (v, p')))
      (hr : DecodesAsWritten m d nsym p' (.ok (out, pend))) :
      DecodesAsWritten m d (nsym + 1) p
        (.ok (BitVec.ofNat 8 (v.toNat % 16) :: BitVec.ofNat 8 (v.toNat / 16) :: out, pend))

/-- The bits of the `n` symbols at `a` under the codeword table (43_huffman_encode.md R292). -/
def State.symbolBits (s : State) (a n : Nat) : List Bool :=
  (List.range n).flatMap fun j => tableGet s.code (s.buf.readByte (a + j))

/-- Every one of the `n` symbols at `a` has a codeword (43_huffman_encode.md R297). -/
def State.allCoded (s : State) (a n : Nat) : Prop := ∀ j < n, (tableGet s.code (s.buf.readByte (a + j))).length ≠ 0

/-- The symbol at `a + j` is the first of the `n` at `a` without a codeword (43_huffman_encode.md R297). -/
def State.firstUncoded (s : State) (a n j : Nat) : Prop :=
  j < n ∧ (tableGet s.code (s.buf.readByte (a + j))).length = 0 ∧ s.allCoded a j

/-- The `n`-byte little-endian field at offset `o` of the source (44_container.md R321). -/
def Source.field (src : Source) (m : Mem) (o n : Nat) : Nat := littleEndianAt m (src.base + o) n

/-- What a container's fields say of its own layout (30_encoding.md R168, R170, R172, R179): G, CW, CH, L, the offset S of the
section header, HTS and CDS as the unsigned words they are stored as, GS and NI. -/
structure ContainerFields where
  glyphs : Nat
  charWidth : Nat
  charHeight : Nat
  widthBytes : Nat
  sectionAt : Nat
  treeSize : Nat
  dataSize : Nat
  glyphSize : Nat
  numImages : Nat
deriving DecidableEq, Repr

/-- The fields of the container at `src`, read where 30_encoding.md R168 to R179 places them. -/
def containerFields (m : Mem) (src : Source) : ContainerFields :=
  let s := 100 + src.field m 96 4 + 4 + 4 * src.field m 14 2
  { glyphs := src.field m 14 2
    charWidth := src.field m 16 2
    charHeight := src.field m 18 2
    widthBytes := src.field m 96 4
    sectionAt := s
    treeSize := src.field m (s + 4) 4
    dataSize := src.field m (s + 8) 4
    glyphSize := src.field m (s + 16) 4
    numImages := src.field m (s + 20) 4 }

/-- P = S + 32 + HTS (30_encoding.md R179). -/
def ContainerFields.tableAt (k : ContainerFields) : Nat := k.sectionAt + 32 + k.treeSize

/-- P + 4·NI (30_encoding.md R179). -/
def ContainerFields.blobAt (k : ContainerFields) : Nat := k.tableAt + 4 * k.numImages

/-- D = min(NI, G) (44_container.md R338). -/
def ContainerFields.images (k : ContainerFields) : Nat := min k.numImages k.glyphs

/-- The tree and blob of the container at `src` (44_container.md R335, R337). -/
def ContainerFields.decodeSource (k : ContainerFields) (src : Source) : DecodeSource :=
  { tree := src.base + (k.sectionAt + 34), treeLen := k.treeSize - 2, blob := src.base + k.blobAt, blobLen := k.dataSize }

/-- `if o + n > sl: raise E_FMT_TRUNCATED(o)`, the check of Rd, Skip and Blk (44_container.md R321): whether it fails, and with what
error. -/
def Source.needs (src : Source) (n o : Nat) : Bool × CmdError :=
  (decide (src.len < o + n), { code := .fmtTruncated, info := o })

/-- The checks of steps 1 to 8 and the first of step 9 of 44_container.md R322, in the order of its pseudocode, each with the error
it raises. A check's fields are those of the source; it counts only when every check before it passes. -/
def containerChecks (m : Mem) (hdrSizeOk : Word → Bool) (src : Source) (cap : Nat) : List (Bool × CmdError) :=
  let k := containerFields m src
  let need := 56 + 8 * k.glyphs + k.glyphs * k.charWidth * k.charHeight
  -- 1. header
  [src.needs 4 0, (!hdrSizeOk (BitVec.ofNat 32 (src.field m 0 4)), { code := .fmtBadSize, info := 0 }), src.needs 4 4,
    src.needs 6 8, src.needs 2 14, src.needs 2 16, src.needs 2 18, src.needs 2 20, src.needs 2 22, src.needs 8 24,
    (decide (need > cap), { code := .capacity, info := need })] ++
  -- 2. palette
  (List.range 64).map (fun j => src.needs 1 (32 + j)) ++
  -- 3. variable-width table
  [src.needs 4 96,
    (decide (k.widthBytes % 2 ≠ 0 ∨ k.widthBytes / 2 > k.glyphs), { code := .fmtBadSize, info := 96 })] ++
  (List.range (k.widthBytes / 2)).flatMap (fun i => [src.needs 1 (100 + 2 * i), src.needs 1 (101 + 2 * i)]) ++
  -- 4. reserved block
  [src.needs (4 + 4 * k.glyphs) (100 + k.widthBytes)] ++
  -- 5. section header; HTS and CDS are negative as i32 from 2^31 on
  (List.range 8).map (fun j => src.needs 4 (k.sectionAt + 4 * j)) ++
  [(decide (k.treeSize < 2 ∨ 2 ^ 31 ≤ k.treeSize), { code := .fmtBadSize, info := k.sectionAt + 4 }),
    (decide (2 ^ 31 ≤ k.dataSize), { code := .fmtBadSize, info := k.sectionAt + 8 }),
  -- 6. sub-header and tree
    src.needs 2 (k.sectionAt + 32), src.needs (k.treeSize - 2) (k.sectionAt + 34)] ++
  -- 7. position table
  (List.range k.numImages).map (fun i => src.needs 4 (k.tableAt + 4 * i)) ++
  -- 8. blob; 9. images
  [src.needs k.dataSize k.blobAt,
    (decide (0 < k.images ∧ 2 * k.glyphSize ≠ k.charWidth * k.charHeight),
      { code := .fmtDimension, info := k.glyphSize })]

/-- The error of the first check that fails (60_exceptions.md R373, R374). -/
def firstFailure (checks : List (Bool × CmdError)) : Option CmdError := (checks.find? fun c => c.1).map fun c => c.2

/-- pos[i] as the unsigned word it is stored as (44_container.md R336). -/
def imagePosition (m : Mem) (src : Source) (i : Nat) : Nat := src.field m ((containerFields m src).tableAt + 4 * i) 4

/-- Image `i` decodes to the pixel values `px` (44_container.md R339). -/
def imageDecodes (m : Mem) (src : Source) (i : Nat) (px : List Byte) : Prop :=
  imagePosition m src i < 2 ^ 31 ∧
    ∃ e, DecodesAsWritten m ((containerFields m src).decodeSource src) (containerFields m src).glyphSize
      (imagePosition m src i) (.ok (px, e))

/-- Image `i` raises `err`: its position is negative, or its walk meets an error (44_container.md R339). -/
def imageFails (m : Mem) (src : Source) (i : Nat) (err : CmdError) : Prop :=
  (2 ^ 31 ≤ imagePosition m src i ∧ err = { code := .fmtBadOffset, info := i }) ∨
    (imagePosition m src i < 2 ^ 31 ∧
      DecodesAsWritten m ((containerFields m src).decodeSource src) (containerFields m src).glyphSize
        (imagePosition m src i) (.error err))

/-- The container's sizes pass every check, and it ends at `consumed` = E inside the source (30_encoding.md R179; 44_container.md
R324, R325, R327, R334, R338, R343). -/
def containerPasses (m : Mem) (hdrSizeOk : Word → Bool) (src : Source) (cap consumed : Nat) : Prop :=
  let k := containerFields m src
  hdrSizeOk (BitVec.ofNat 32 (src.field m 0 4)) = true ∧ k.widthBytes % 2 = 0 ∧ k.widthBytes / 2 ≤ k.glyphs ∧
    2 ≤ k.treeSize ∧ k.treeSize < 2 ^ 31 ∧ k.dataSize < 2 ^ 31 ∧
    56 + 8 * k.glyphs + k.glyphs * k.charWidth * k.charHeight ≤ cap ∧ consumed = k.blobAt + k.dataSize ∧
    consumed ≤ src.len ∧ (k.images = 0 ∨ 2 * k.glyphSize = k.charWidth * k.charHeight)

/-- The font's counts, palette, metrics and empty grids are those the container declares (44_container.md R323, R326, R328 to R331,
R341). -/
def FontModel.declaredBy (f : FontModel) (m : Mem) (src : Source) : Prop :=
  let k := containerFields m src
  let byteAt := fun (o : Nat) => m.readByte (src.base + o)
  f.numGlyphs = k.glyphs ∧ f.charWidth = k.charWidth ∧ f.charHeight = k.charHeight ∧ f.images = k.images ∧
    f.palette.length = 16 ∧
    (∀ c < 16, f.palette[c]? = some (byteAt (32 + 4 * c), byteAt (33 + 4 * c), byteAt (34 + 4 * c))) ∧
    f.metrics.length = k.glyphs ∧
    (∀ i < k.glyphs, f.metrics[i]? =
      some
        (if i < k.widthBytes / 2 then
          { code := 0x20 + i
            bearingX := src.field m (100 + 2 * i) 1
            advance := src.field m (101 + 2 * i) 1
            width := (src.field m (101 + 2 * i) 1 : Int) - src.field m (100 + 2 * i) 1 }
        else { code := 0x20 + i, bearingX := 0, advance := 0, width := 0 })) ∧
    f.grids.length = k.glyphs ∧
    (∀ i < k.glyphs, k.images ≤ i → f.grids[i]? = some (List.replicate (k.charWidth * k.charHeight) 0))

/-- The container at `src` satisfies every check of 44_container.md R322 for capacity `cap`, and `f` is the font it declares and
`consumed` its end (30_encoding.md R168 to R179; 44_container.md R323 to R343). -/
def ParsedAsDeclared (m : Mem) (hdrSizeOk : Word → Bool) (src : Source) (cap : Nat) (f : FontModel) (consumed : Nat) :
    Prop :=
  containerPasses m hdrSizeOk src cap consumed ∧ f.declaredBy m src ∧
    ∀ i < (containerFields m src).images, ∃ px, f.grids[i]? = some px ∧ imageDecodes m src i px

/-- The parse of the container at `src` meets `err` first: at the first check that fails, or, with every check passed, at the first
image that fails (44_container.md R322, R339; 60_exceptions.md R373, R374). -/
def FailsAsDeclared (m : Mem) (hdrSizeOk : Word → Bool) (src : Source) (cap : Nat) (err : CmdError) : Prop :=
  firstFailure (containerChecks m hdrSizeOk src cap) = some err ∨
    (firstFailure (containerChecks m hdrSizeOk src cap) = none ∧
      ∃ i < (containerFields m src).images, (∀ j < i, ∃ px, imageDecodes m src j px) ∧ imageFails m src i err)

/-- The outcome of steps 1 to 9 of 44_container.md R322: the declared font and its end, or the first error. -/
def ParsesAsWritten (m : Mem) (hdrSizeOk : Word → Bool) (src : Source) (cap : Nat) :
    Except CmdError (FontModel × Nat) → Prop
  | .ok (f, consumed) => ParsedAsDeclared m hdrSizeOk src cap f consumed
  | .error err => FailsAsDeclared m hdrSizeOk src cap err

/-- A decode's result with every reported bit position larger by 16 (42_huffman_decode.md R280). -/
def laterByOneWord : Except CmdError (List Byte × Nat) → Except CmdError (List Byte × Nat)
  | .ok (out, e) => .ok (out, e + 16)
  | .error err =>
    .error (if err.code = .fmtBitstreamEnd then { err with info := err.info + 16 } else err)

/-! ### What a command keeps and leaves -/

/-- What no command writes: ARG (10_state.md R43), IRQ_EN, REJECTED (R39), LASTOP (R41), the parameters, and the model's own
script and response. -/
def State.hostSideKept (s t : State) : Prop :=
  t.args = s.args ∧ t.irqEn = s.irqEn ∧ t.status.rejected = s.status.rejected ∧ t.status.lastOp = s.status.lastOp ∧
    t.params = s.params ∧ t.script = s.script ∧ t.response = s.response

/-- The internal tables and the HUF registers are kept. -/
def State.tablesKept (s t : State) : Prop :=
  t.freq = s.freq ∧ t.tree = s.tree ∧ t.code = s.code ∧ t.huf = s.huf

/-- Every byte of BUF outside Region(a, n) reads as before. -/
def State.bufKeptOutside (s t : State) (a n : Nat) : Prop :=
  ∀ x, (x < a ∨ a + n ≤ x) → t.buf.readByte x = s.buf.readByte x

/-- Every bit of BUF outside the bits `[q, e)` of the bytes at `base` reads as before. -/
def State.bitsKeptOutside (s t : State) (base q e : Nat) : Prop :=
  ∀ x k, k < 8 → (x < base ∨ 8 * (x - base) + k < q ∨ e ≤ 8 * (x - base) + k) →
    (t.buf.readByte x).getLsbD k = (s.buf.readByte x).getLsbD k

/-- Every byte of BUF reads as before. -/
def State.bufKept (s t : State) : Prop := ∀ x, t.buf.readByte x = s.buf.readByte x

/-- `t` is `s` after a completion without error with these RES values (10_state.md R44, R52), apart from the cursor, the
tables and BUF, which each statement gives for itself. -/
def State.completed (s t : State) (r0 r1 r2 r3 : Nat) : Prop :=
  t.res = #v[BitVec.ofNat 32 r0, BitVec.ofNat 32 r1, BitVec.ofNat 32 r2, BitVec.ofNat 32 r3] ∧
    t.pending = none ∧ t.status.busy = false ∧ t.status.done = true ∧ t.status.err = s.status.err ∧
    t.status.errCode = s.status.errCode ∧ t.errInfo = s.errInfo ∧ t.freeIdx = s.freeIdx ∧ s.hostSideKept t

/-- `t` is `s` after the error completion `raise E_<code>(info)` (10_state.md R53, 60_exceptions.md R372), apart from BUF. -/
def State.failed (s t : State) (code : ErrCode) (info : Nat) : Prop :=
  t.status.err = true ∧ t.status.errCode = code.byte ∧ t.errInfo = BitVec.ofNat 32 (min info (2 ^ 32 - 1)) ∧
    t.status.busy = false ∧ t.status.done = s.status.done ∧ t.pending = none ∧ t.res = s.res ∧ t.cur = s.cur ∧
    s.tablesKept t ∧ s.hostSideKept t

/-- An all-or-nothing error (60_exceptions.md R375): `failed`, and BUF is kept. -/
def State.failedCleanly (s t : State) (code : ErrCode) (info : Nat) : Prop :=
  s.failed t code info ∧ t.freeIdx = s.freeIdx ∧ s.bufKept t

/-- An error with a havoc region (60_exceptions.md R375): `failed`, and every byte outside Region(a, n) is kept. -/
def State.failedWithHavoc (s t : State) (code : ErrCode) (info a n : Nat) : Prop :=
  s.failed t code info ∧ s.bufKeptOutside t a n

/-- Everything but the model's own script and response is kept. -/
def State.blockKept (s t : State) : Prop :=
  { t with script := s.script, response := s.response } = s

/-! ### Invariants -/

/-- BUF is in canonical form and lists engine addresses only (20_memory.md R100). -/
def State.bufOk (s : State) : Prop := s.buf.wf = true ∧ s.buf.inside s.params.bufSize = true

/-- The lifecycle: PENDING is non-empty exactly while BUSY = 1 (10_state.md R63); DONE and ERR are never both 1 (R37); while
BUSY both are 0, ERRCODE and ERRINFO are 0 and LASTOP is the opcode field of PENDING (R40 to R42, R50); while DONE, ERRCODE
and ERRINFO are 0 (R40); ERRCODE is 0 or a code of 60_exceptions.md R371. -/
def State.lifecycleOk (s : State) : Prop :=
  (s.status.busy = s.pending.isSome) ∧ ¬(s.status.done = true ∧ s.status.err = true) ∧
    (s.status.busy = true →
      s.status.done = false ∧ s.status.err = false ∧ s.status.errCode = 0 ∧ s.errInfo = 0) ∧
    (∀ p, s.pending = some p → s.status.lastOp = commandOp p.word) ∧
    (s.status.done = true → s.status.errCode = 0 ∧ s.errInfo = 0) ∧
    (s.status.errCode = 0 ∨ ∃ c : ErrCode, s.status.errCode = c.byte)

/-- The cursor's region lies inside BUF and its position inside the region (10_state.md R45). -/
def State.cursorOk (s : State) : Prop :=
  s.cur.base.toNat + s.cur.len.toNat ≤ s.params.bufSize ∧ s.cur.bitPos.toNat ≤ 8 * s.cur.len.toNat

/-- TOTAL = Σ FREQ[v] (10_state.md R47, R60). -/
def State.freqOk (s : State) : Prop := s.huf.total.toNat = freqSum s.freq

/-- The validity invariants (10_state.md R46, R48, R61, R64). -/
def State.hufOk (s : State) : Prop :=
  (s.huf.treeValid = true → s.tree.symbols.Nodup) ∧
    (s.huf.codesValid = true → s.huf.treeValid = true ∧ s.code = deriveCodes s.tree) ∧
    (s.huf.leafRoot = true ↔ s.huf.treeValid = true ∧ s.tree.isLeaf = true) ∧
    s.huf.nodeCount.toNat = (if s.huf.treeValid then s.tree.size else 0) ∧
    s.huf.maxLen.toNat = (if s.huf.codesValid then maxCodeLength s.code else 0)

/-- The invariant of the block: it holds at reset and every step keeps it. -/
structure State.Inv (s : State) : Prop where
  params : s.params.wf = true
  buf : s.bufOk
  lifecycle : s.lifecycleOk
  cursor : s.cursorOk
  freq : s.freqOk
  huf : s.hufOk

/-! ### Resets, host accesses and runs -/

/-- Every register and internal table of 10_state.md R65 holds its reset value. TREE, CODE and BUF have none. -/
def State.atResetValues (t : State) : Prop :=
  t.status = { busy := false, done := false, err := false, rejected := false, errCode := 0, lastOp := 0 } ∧
    t.errInfo = 0 ∧ (∀ k : Fin 8, t.args[k] = 0) ∧ (∀ k : Fin 4, t.res[k] = 0) ∧
    t.cur = { base := 0, len := 0, bitPos := 0 } ∧
    t.huf = { treeValid := false, codesValid := false, leafRoot := false, nodeCount := 0, total := 0, maxLen := 0 } ∧
    t.irqEn = { doneIE := false, errIE := false } ∧ (∀ v : Byte, tableGet t.freq v = 0) ∧ t.pending = none

/-- The destination regions of an aborted command, as 70_reset_and_hazards.md R412 lists them; `a` holds the latched ARG
values. -/
def abortedRegions (cur : Cursor) (a : Vector Word 8) : Instr → List (Nat × Nat)
  | .curWr8 | .curWr16 | .curWr32 | .curWrBits => [(cur.base.toNat, cur.len.toNat)]
  | .hufSerialize | .hufDumpCodes => [(a[0].toNat, a[1].toNat)]
  | .hufDecode => [(a[6].toNat, 2 * a[5].toNat)]
  | .hufPack => [(a[2].toNat, a[1].toNat / 2)]
  | .hufEncode => [(a[2].toNat, a[3].toNat)]
  | .hufCompress => [(a[3].toNat, a[4].toNat), (a[5].toNat, 4 * a[1].toNat)]
  | .fcpParse => [(a[2].toNat, a[3].toNat)]
  | _ => []

/-- The width of an access. -/
def HostAccess.width : HostAccess → AccessWidth
  | .read _ w => w
  | .write _ w _ => w

/-- The access is to the BUF window (20_memory.md R101). -/
def HostAccess.inBufWindow (a : HostAccess) (p : Params) : Prop :=
  0x01000000 ≤ a.addr.toNat ∧ a.addr.toNat < 0x01000000 + p.bufSize

/-- The access is one that 10_state.md R58 or 20_memory.md R101, R102 or R105 forbids. -/
def HostAccess.forbidden (a : HostAccess) (p : Params) : Prop :=
  (a.addr.toNat ≤ 0xFFF ∧ ¬(a.width = .word ∧ a.addr.toNat % 4 = 0)) ∨
    (0xFFF < a.addr.toNat ∧ ¬a.inBufWindow p) ∨
    (a.inBufWindow p ∧
      (a.addr.toNat % a.width.bytes ≠ 0 ∨ 0x01000000 + p.bufSize < a.addr.toNat + a.width.bytes))

/-- A read of the register at `off` is answered with `w`, and nothing else changes. -/
def State.answersRead (s : State) (off : Nat) (w : Word) : Prop :=
  ∀ rest, step { s with script := readLine off :: rest } = .next { s with script := rest, response := .data w }

/-- A write of the register at `off` completes and changes nothing. -/
def State.ignoresWrite (s : State) (off : Nat) : Prop :=
  ∀ v rest, step { s with script := regLine off v :: rest } = .next { s with script := rest, response := .written }

/-- The offset of an engine-owned register (10_state.md R32, R59): ERRINFO, RES0 to RES3, CUR_BASE, CUR_LEN, CUR_BITPOS,
HUF_STATE, HUF_TOTAL, HUF_MAXLEN, FREQ[v], CODE_LEN[v]. -/
def engineOwnedOffset (off : Nat) : Prop :=
  off % 4 = 0 ∧ (off = 0x00C ∨ (0x030 ≤ off ∧ off ≤ 0x054) ∨ (0x400 ≤ off ∧ off ≤ 0xBFC))

/-- The event is a reset: a power-on reset, or a CTRL write with bit 0 = 1 (70_reset_and_hazards.md R410, R412). -/
def Event.resets (e : Event) : Prop := e = .powerOn ∨ ∃ v : Word, e = ctrlLine v ∧ v.getLsbD 0 = true

/-- `n` steps, if each answers a next state. -/
def runSteps : Nat → State → Option State
  | 0, s => some s
  | n + 1, s =>
    match step s with
    | .next t => runSteps n t
    | .fault _ => none
    | .refused _ => none

/-- A command of `n`-byte typed cursor reads (40_cursor.md R204 to R206): a completion with the little-endian value, or the errors
of R200 in their order. -/
def typedReadRule (i : Instr) (n : Nat) : Prop :=
  ∀ s : State,
    (s.cursorOk → s.cur.bitPos.toNat % 8 = 0 → s.cur.bitPos.toNat / 8 + n ≤ s.cur.len.toNat →
      ∃ t, exec i s = .next t ∧
        s.completed t (littleEndianAt s.buf (s.cur.base.toNat + s.cur.bitPos.toNat / 8) n) (s.cur.bitPos.toNat + 8 * n) 0
          0 ∧
        t.cur = { s.cur with bitPos := BitVec.ofNat 32 (s.cur.bitPos.toNat + 8 * n) } ∧ s.tablesKept t ∧ s.bufKept t) ∧
    (s.cur.bitPos.toNat % 8 ≠ 0 → ∃ t, exec i s = .next t ∧ s.failedCleanly t .align s.cur.bitPos.toNat) ∧
    (s.cur.bitPos.toNat % 8 = 0 → s.cur.len.toNat < s.cur.bitPos.toNat / 8 + n →
      ∃ t, exec i s = .next t ∧ s.failedCleanly t .fmtTruncated s.cur.bitPos.toNat)

/-- A command of `n`-byte typed cursor writes (40_cursor.md R207 to R209): the low `n` bytes of ARG0 stored little-endian at the
cursor's byte, or the errors of R200 in their order. -/
def typedWriteRule (i : Instr) (n : Nat) : Prop :=
  ∀ s : State,
    (s.cursorOk → s.cur.bitPos.toNat % 8 = 0 → s.cur.bitPos.toNat / 8 + n ≤ s.cur.len.toNat →
      ∃ t, exec i s = .next t ∧ s.completed t 0 (s.cur.bitPos.toNat + 8 * n) 0 0 ∧
        (∀ k < n,
          (t.buf.readByte (s.cur.base.toNat + s.cur.bitPos.toNat / 8 + k)).toNat = s.arg 0 / 2 ^ (8 * k) % 256) ∧
        s.bufKeptOutside t (s.cur.base.toNat + s.cur.bitPos.toNat / 8) n ∧
        t.cur = { s.cur with bitPos := BitVec.ofNat 32 (s.cur.bitPos.toNat + 8 * n) } ∧ s.tablesKept t) ∧
    (s.cur.bitPos.toNat % 8 ≠ 0 → ∃ t, exec i s = .next t ∧ s.failedCleanly t .align s.cur.bitPos.toNat) ∧
    (s.cur.bitPos.toNat % 8 = 0 → s.cur.len.toNat < s.cur.bitPos.toNat / 8 + n →
      ∃ t, exec i s = .next t ∧ s.failedCleanly t .capacity s.cur.bitPos.toNat)

/-- A state from which a step answers a next state: neither a fault nor a refusal. -/
def State.steps (s : State) : Prop := ∃ t, step s = .next t

/-- What one step can turn `s` into. -/
def State.stepsTo (s t : State) : Prop := step s = .next t

end Sys2Proof.Machine
end

