-- ==== Sys2Proof/Certificates/Slice0/Obligations.lean ====
section
/-!
DEFINITION. The statements for the provers. A docstring names the rule of spec/ a statement formalises; where a statement
rests on a choice of the model it names the log entry.
-/

open Sys2Proof Sys2Proof.Machine

/-! ### Command words -/

/-- 30_encoding.md R142: one word of every unit, and two reserved words. -/
def Obligations.DecodeReadsOpcodeMapWords : Prop :=
  decode 0x00000000 = .ok .nop ∧ decode 0x00000010 = .ok .curSet ∧ decode 0x00000019 = .ok .curWrBits ∧
    decode 0x00000023 = .ok .hufBuildFrom ∧ decode 0x00000026 = .ok .hufDumpCodes ∧ decode 0x00000028 = .ok .hufDecode ∧
    decode 0x00000032 = .ok .hufCompress ∧ decode 0x00000040 = .ok .fcpParse ∧
    decode 0x00000027 = .error (.reservedOpcode 0x27) ∧ decode 0x00000122 = .error (.zeroFieldNotZero 0x122)

/-- 30_encoding.md R144: decode and encode agree, and every word that is no row of the map is reserved. -/
def Obligations.DecodeMatchesEncodeExactly : Prop :=
  ∀ c : Word,
    (∀ i : Instr, decode c = .ok i ↔ c = encode i) ∧ ((∃ e, decode c = .error e) ↔ commandWordDefined c = false)

/-- 30_encoding.md R143: the defined words; a reserved word is accepted like any command, and its execution step raises
E_UNSUPPORTED and does nothing else. Which event lets the execution step happen is the model's choice: the engine's event (log
entry 4), a held BUF access (log entry 5), or no event left (log entry 11). -/
def Obligations.ReservedWordRaisesUnsupported : Prop :=
  ∀ c : Word,
    ((∃ i, decode c = .ok i) ↔
      c.extractLsb' 8 24 = 0#24 ∧
        c.extractLsb' 0 8 ∈
          ([0x00, 0x10, 0x11, 0x12, 0x13, 0x14, 0x15, 0x16, 0x17, 0x18, 0x19, 0x20, 0x21, 0x22, 0x23, 0x24, 0x25, 0x26,
            0x28, 0x30, 0x31, 0x32, 0x40] : List Byte)) ∧
    (∀ (s : State) rest, s.status.busy = false →
      ∃ t, step { s with script := cmdLine c :: rest } = .next t ∧ t.status.busy = true ∧
        t.pending = some { word := c, args := s.args }) ∧
    (∀ (s : State) (p : Pending), s.pending = some p → p.word = c → (¬∃ i, decode c = .ok i) →
      (∃ t, step { s with script := [] } = .next t ∧
        State.failedCleanly { s with script := [] } t .unsupported c.toNat) ∧
      (∀ rest, ∃ t, step { s with script := .engine :: rest } = .next t ∧
        State.failedCleanly { s with script := rest } t .unsupported c.toNat) ∧
      (∀ (a : HostAccess) rest, s.status.busy = true → a.inBufWindow s.params →
        ∃ t, step { s with script := .host a :: rest } = .next t ∧
          State.failedCleanly { s with script := .host a :: rest } t .unsupported c.toNat))

/-! ### The engine's step -/

/-- 10_state.md R50, 30_encoding.md R144: a step runs the decoded command. Which event lets it run is log entries 4, 5, 11. -/
def Obligations.StepRunsDecodedPendingCommand : Prop :=
  ∀ (s : State) (p : Pending) (i : Instr), s.pending = some p → decode p.word = .ok i → i.wf = true →
    step { s with script := [] } = exec i { s with script := [] } ∧
    (∀ rest, step { s with script := .engine :: rest } = exec i { s with script := rest }) ∧
    (∀ (a : HostAccess) rest, s.status.busy = true → a.inBufWindow s.params →
      step { s with script := .host a :: rest } = exec i { s with script := .host a :: rest })

/-- The model's choice (log entry 4): `withFetchWord` is the acceptance of 10_state.md R50 with the execution step next. -/
def Obligations.PlacedCommandRunsNext : Prop :=
  ∀ (s : State) (nbits w : Nat) (i : Instr), decode (BitVec.ofNat 32 w) = .ok i →
    step (s.withFetchWord nbits w) = exec i (s.accept (BitVec.ofNat 32 w))

/-- 70_reset_and_hazards.md R430: while BUSY = 1 the block stops being busy after at most one step more than the script has events
left, and with no reset among them it does so by the command's completion, with DONE or ERR. That the engine runs when no event
is left is the model's choice (log entry 11), as is the script (log entry 4). -/
def Obligations.RunningCommandCompletes : Prop :=
  ∀ s : State, s.Inv → s.status.busy = true →
    ∃ n t, n ≤ s.script.length + 1 ∧ runSteps n s = some t ∧ t.status.busy = false ∧
      ((∀ e ∈ s.script, ¬e.resets) → t.status.done = true ∨ t.status.err = true)

/-! ### The host port -/

/-- 10_state.md R50: acceptance. -/
def Obligations.CmdWriteWhileIdleIsAccepted : Prop :=
  ∀ (s : State) (c : Word) rest, s.status.busy = false →
    step { s with script := cmdLine c :: rest } =
      .next
        { s with
          script := rest
          response := .written
          pending := some { word := c, args := s.args }
          errInfo := 0
          status :=
            { busy := true, done := false, err := false, rejected := s.status.rejected, errCode := 0
              lastOp := c.extractLsb' 0 8 } }

/-- 10_state.md R51: rejection. -/
def Obligations.CmdWriteWhileBusyIsRejected : Prop :=
  ∀ (s : State) (c : Word) rest, s.status.busy = true →
    step { s with script := cmdLine c :: rest } =
      .next { s with script := rest, response := .written, status := { s.status with rejected := true } }

/-- 10_state.md R35: the fields of STATUS, and its W1C write. -/
def Obligations.StatusFieldsAndWriteOneToClear : Prop :=
  (∀ s : State, ∃ w : Word, s.answersRead 0x008 w ∧
    w.getLsbD 0 = s.status.busy ∧ w.getLsbD 1 = s.status.done ∧ w.getLsbD 2 = s.status.err ∧
    w.getLsbD 3 = s.status.rejected ∧ w.extractLsb' 4 4 = 0#4 ∧ w.extractLsb' 8 8 = s.status.errCode ∧
    w.extractLsb' 16 8 = s.status.lastOp ∧ w.extractLsb' 24 8 = 0#8) ∧
  (∀ (s : State) v rest,
    step { s with script := statusLine v :: rest } =
      .next
        { s with
          script := rest
          response := .written
          status :=
            { s.status with
              done := s.status.done && !v.getLsbD 1
              err := s.status.err && !v.getLsbD 2
              rejected := s.status.rejected && !v.getLsbD 3 } }) ∧
  State.reset.answersRead 0x008 0

/-- 10_state.md R43: ARG writes and reads; a running command uses its latched copy, and no command writes ARG. -/
def Obligations.ArgWritesNeverReachARunningCommand : Prop :=
  (∀ (s : State) (k : Fin 8) v rest,
    step { s with script := argLine k v :: rest } =
      .next { s with script := rest, response := .written, args := s.args.set k v }) ∧
  (∀ (s : State) (k : Fin 8), s.answersRead (0x010 + 4 * k.val) s.args[k]) ∧
  (∀ k : Fin 8, State.reset.args[k] = 0) ∧
  (∀ (i : Instr) (s t : State) (p : Pending) (a : Vector Word 8), s.pending = some p → exec i s = .next t →
    t.args = s.args ∧ exec i { s with args := a } = .next { t with args := a })

/-- 10_state.md R49 and 60_exceptions.md R380: IRQ_EN and the interrupt line. -/
def Obligations.InterruptLineFollowsStatusAndEnables : Prop :=
  (∀ s : State,
    s.irq = ((s.status.done && s.irqEn.doneIE) || ((s.status.err || s.status.rejected) && s.irqEn.errIE))) ∧
  (∀ (s : State) v rest, ∃ t, step { s with script := irqEnLine v :: rest } = .next t ∧
    t = { s with script := rest, response := .written, irqEn := { doneIE := v.getLsbD 0, errIE := v.getLsbD 1 } } ∧
    t.irq = ((s.status.done && v.getLsbD 0) || ((s.status.err || s.status.rejected) && v.getLsbD 1))) ∧
  (∀ s : State, ∃ w : Word, s.answersRead 0x058 w ∧ w.toNat = s.irqEn.doneIE.toNat + 2 * s.irqEn.errIE.toNat) ∧
  State.reset.answersRead 0x058 0 ∧
  (∀ (s : State) v rest, ∃ t, step { s with script := statusLine v :: rest } = .next t ∧
    t.irq =
      ((s.status.done && !v.getLsbD 1 && s.irqEn.doneIE) ||
        (((s.status.err && !v.getLsbD 2) || (s.status.rejected && !v.getLsbD 3)) && s.irqEn.errIE))) ∧
  (∀ (s : State) c rest, s.status.busy = false →
    ∃ t, step { s with script := cmdLine c :: rest } = .next t ∧ t.irq = (s.status.rejected && s.irqEn.errIE))

/-- 10_state.md R54 and 70_reset_and_hazards.md R412: the CTRL register and the soft reset. -/
def Obligations.SoftResetKeepsBufOutsideAbortedRegions : Prop :=
  (∀ (s : State) v rest, v.getLsbD 0 = false →
    step { s with script := ctrlLine v :: rest } = .next { s with script := rest, response := .written }) ∧
  (∀ s : State, s.answersRead 0x05C 0) ∧
  (∀ (s : State) v rest, v.getLsbD 0 = true →
    ∃ t, step { s with script := ctrlLine v :: rest } = .next t ∧ t.atResetValues ∧ t.params = s.params ∧
      t.script = rest ∧ t.response = .written ∧
      (∀ x, s.params.bufSize ≤ x → t.buf.readByte x = s.buf.readByte x) ∧
      (s.status.busy = false → s.bufKept t) ∧
      (∀ p i, s.status.busy = true → s.pending = some p → decode p.word = .ok i →
        ∀ x, (∀ r ∈ abortedRegions s.cur p.args i, x < r.1 ∨ r.1 + r.2 ≤ x) →
          t.buf.readByte x = s.buf.readByte x) ∧
      (∀ p e, s.status.busy = true → s.pending = some p → decode p.word = .error e → s.bufKept t))

/-- 70_reset_and_hazards.md R410: a power-on reset, at any moment. That the unspecified bytes of BUF are the next free values, one
for each byte, is the model's choice (log entry 3), and so is what the event keeps: the parameters, the remaining script and the
port's answer (log entry 10). -/
def Obligations.PowerOnResetLeavesBufUnspecified : Prop :=
  ∀ (s : State) rest,
    ∃ t, step { s with script := .powerOn :: rest } = .next t ∧ t.atResetValues ∧ t.irq = false ∧ t.params = s.params ∧
      t.script = rest ∧ t.response = s.response ∧ t.freeIdx = s.freeIdx + s.params.bufSize ∧
      ∀ x < s.params.bufSize, t.buf.readByte x = Config.freeByte (s.freeIdx + x)

/-- 10_state.md R65 and the reset column of R32: what reset leaves. -/
def Obligations.ResetValuesAreTheSpecs : Prop :=
  State.reset.atResetValues ∧ State.reset.irq = false ∧
    ∀ off < 0x1000, off % 4 = 0 → State.reset.regValue (regAt off) = if off = 0 then 0x48460007 else 0

/-- 10_state.md R55 and the read-only rows of R32: writes there change nothing; the reserved offsets read 0. -/
def Obligations.ReadOnlyAndReservedOffsetsIgnoreWrites : Prop :=
  (∀ (s : State) off, off % 4 = 0 → (0x060 ≤ off ∧ off ≤ 0x3FC) ∨ (0xC00 ≤ off ∧ off ≤ 0xFFC) →
    s.ignoresWrite off ∧ s.answersRead off 0) ∧
  (∀ s : State, s.ignoresWrite 0x000) ∧
  (∀ (s : State) off, engineOwnedOffset off → s.ignoresWrite off)

/-- 10_state.md R59, with the map of R32: an engine-owned register reads as an unspecified value while BUSY = 1; every other read
returns the register's value. That the unspecified value is the next free value of `Config.freeWord`, a new one per read, and that
the read raises the count `freeIdx` by one, is the model's choice (log entry 3). -/
def Obligations.RegisterReadsFollowTheMap : Prop :=
  (∀ (s : State) off rest, s.status.busy = true → engineOwnedOffset off →
    step { s with script := readLine off :: rest } =
      .next
        { s with script := rest, response := .data (Config.freeWord s.freeIdx), freeIdx := s.freeIdx + 1 }) ∧
  (∀ s : State, s.answersRead 0x000 0x48460007 ∧ s.answersRead 0x004 0 ∧ s.answersRead 0x008 s.status.toWord ∧
    s.answersRead 0x058 s.irqEn.toWord ∧ s.answersRead 0x05C 0 ∧
    ∀ k : Fin 8, s.answersRead (0x010 + 4 * k.val) s.args[k]) ∧
  (∀ s : State, s.status.busy = false →
    s.answersRead 0x00C s.errInfo ∧ (∀ k : Fin 4, s.answersRead (0x030 + 4 * k.val) s.res[k]) ∧
    s.answersRead 0x040 s.cur.base ∧ s.answersRead 0x044 s.cur.len ∧ s.answersRead 0x048 s.cur.bitPos ∧
    (∃ w : Word, s.answersRead 0x04C w ∧ w.getLsbD 0 = s.huf.treeValid ∧ w.getLsbD 1 = s.huf.codesValid ∧
      w.getLsbD 2 = s.huf.leafRoot ∧ w.extractLsb' 3 13 = 0#13 ∧ w.extractLsb' 16 9 = s.huf.nodeCount ∧
      w.extractLsb' 25 7 = 0#7) ∧
    s.answersRead 0x050 s.huf.total ∧ s.answersRead 0x054 s.huf.maxLen ∧
    ∀ v : Byte, s.answersRead (0x400 + 4 * v.toNat) (tableGet s.freq v) ∧
      s.answersRead (0x800 + 4 * v.toNat)
        (if s.huf.codesValid then BitVec.ofNat 32 (tableGet s.code v).length else 0))

/-- 20_memory.md R106: a forbidden access completes with a bus error and changes nothing. One to the BUF window while BUSY = 1
is held first (R109, log entry 5). -/
def Obligations.ForbiddenAccessIsABusError : Prop :=
  ∀ (s : State) (a : HostAccess) rest, a.forbidden s.params → s.status.busy = false ∨ ¬a.inBufWindow s.params →
    step { s with script := .host a :: rest } = .next { s with script := rest, response := .busError }

/-- 20_memory.md R103, R105, R107: a host write to BUF stores its bytes little-endian and nothing else, and a read returns
them. -/
def Obligations.HostBufAccessesAreLittleEndian : Prop :=
  (∀ (s : State) (a : Nat) (w : AccessWidth) (v : Word) rest, s.params.wf = true → s.status.busy = false →
    a % w.bytes = 0 → a + w.bytes ≤ s.params.bufSize →
    (∃ t, step { s with script := .host (.write (BitVec.ofNat 32 (0x01000000 + a)) w v) :: rest } = .next t ∧
      (∀ k < w.bytes, (t.buf.readByte (a + k)).toNat = v.toNat / 2 ^ (8 * k) % 256) ∧
      s.bufKeptOutside t a w.bytes ∧
      { t with buf := s.buf } = { s with script := rest, response := .written }) ∧
    step { s with script := .host (.read (BitVec.ofNat 32 (0x01000000 + a)) w) :: rest } =
      .next { s with script := rest, response := .data (BitVec.ofNat 32 (littleEndianAt s.buf a w.bytes)) }) ∧
  (∀ (s : State) (a : Nat) rest, s.params.wf = true → s.status.busy = false → 4 * a + 4 ≤ s.params.bufSize →
    ∃ t u,
      step
        { s with
          script :=
            .host (.write (BitVec.ofNat 32 (0x01000000 + 4 * a)) .word 0x12345678) ::
              .host (.read (BitVec.ofNat 32 (0x01000000 + 4 * a + 2)) .half) :: rest } = .next t ∧
      t.buf.readByte (4 * a) = 0x78 ∧ t.buf.readByte (4 * a + 1) = 0x56 ∧ t.buf.readByte (4 * a + 2) = 0x34 ∧
      t.buf.readByte (4 * a + 3) = 0x12 ∧ step t = .next u ∧ u.response = .data 0x1234)

/-- 20_memory.md R109: a BUF access while BUSY = 1 waits for the completion step and is then performed; a register access never
waits. The access waits at the head of the script (log entry 5). -/
def Obligations.BufAccessWhileBusyIsHeld : Prop :=
  (∀ (s : State) (a : HostAccess) rest, s.Inv → s.status.busy = true → s.script = .host a :: rest →
    a.inBufWindow s.params →
    ∃ t, step s = .next t ∧ t.status.busy = false ∧ t.script = .host a :: rest ∧ t.response = s.response ∧
      step t = .next (State.hostAccess { t with script := rest } a)) ∧
  (∀ (s : State) (a : HostAccess) rest, a.addr.toNat ≤ 0xFFF →
    step { s with script := .host a :: rest } = .next (State.hostAccess { s with script := rest } a))

/-! ### NOP and the cursor -/

/-- 40_cursor.md R201. -/
def Obligations.NopCompletesAndChangesNothingElse : Prop :=
  decode 0x00 = .ok .nop ∧
  (∀ s : State, ∃ t, exec .nop s = .next t ∧ s.completed t 0 0 0 0 ∧ t.cur = s.cur ∧ s.tablesKept t ∧ s.bufKept t) ∧
  (∀ (s : State) rest, s.status.busy = false → s.status.rejected = false →
    ∃ t u, step { s with script := cmdLine 0 :: .engine :: rest } = .next t ∧ t.status.busy = true ∧
      step t = .next u ∧ u.status.toWord = 0x00000002)

/-- 40_cursor.md R203. -/
def Obligations.CurSetPlacesTheCursor : Prop :=
  decode 0x10 = .ok .curSet ∧
  ∀ s : State,
    (s.arg 2 ≤ 8 * s.arg 1 → s.arg 0 + s.arg 1 ≤ s.params.bufSize →
      ∃ t, exec .curSet s = .next t ∧ s.completed t 0 0 0 0 ∧ t.cur.base.toNat = s.arg 0 ∧ t.cur.len.toNat = s.arg 1 ∧
        t.cur.bitPos.toNat = s.arg 2 ∧ s.tablesKept t ∧ s.bufKept t) ∧
    (8 * s.arg 1 < s.arg 2 → ∃ t, exec .curSet s = .next t ∧ s.failedCleanly t .arg 2) ∧
    (s.arg 2 ≤ 8 * s.arg 1 → s.params.bufSize < s.arg 0 + s.arg 1 →
      ∃ t, exec .curSet s = .next t ∧ s.failedCleanly t .bounds 0)

/-- 40_cursor.md R204, R205, R206, under the cursor invariant of 10_state.md R45. -/
def Obligations.TypedReadsReturnLittleEndianValues : Prop :=
  (decode 0x11 = .ok .curRd8 ∧ typedReadRule .curRd8 1) ∧ (decode 0x12 = .ok .curRd16 ∧ typedReadRule .curRd16 2) ∧
    (decode 0x13 = .ok .curRd32 ∧ typedReadRule .curRd32 4)

/-- 40_cursor.md R207, R208, R209, under the cursor invariant of 10_state.md R45. -/
def Obligations.TypedWritesStoreLittleEndianValues : Prop :=
  (decode 0x14 = .ok .curWr8 ∧ typedWriteRule .curWr8 1) ∧ (decode 0x15 = .ok .curWr16 ∧ typedWriteRule .curWr16 2) ∧
    (decode 0x16 = .ok .curWr32 ∧ typedWriteRule .curWr32 4)

/-- 40_cursor.md R210. -/
def Obligations.CurSkipMovesWithoutReading : Prop :=
  decode 0x17 = .ok .curSkip ∧
  ∀ s : State,
    (s.cur.bitPos.toNat % 8 = 0 → s.cur.bitPos.toNat / 8 + s.arg 0 ≤ s.cur.len.toNat →
      ∃ t, exec .curSkip s = .next t ∧ s.completed t 0 (s.cur.bitPos.toNat + 8 * s.arg 0) 0 0 ∧
        t.cur = { s.cur with bitPos := BitVec.ofNat 32 (s.cur.bitPos.toNat + 8 * s.arg 0) } ∧ s.tablesKept t ∧
        s.bufKept t) ∧
    (s.cur.bitPos.toNat % 8 ≠ 0 → ∃ t, exec .curSkip s = .next t ∧ s.failedCleanly t .align s.cur.bitPos.toNat) ∧
    (s.cur.bitPos.toNat % 8 = 0 → s.cur.len.toNat < s.cur.bitPos.toNat / 8 + s.arg 0 →
      ∃ t, exec .curSkip s = .next t ∧ s.failedCleanly t .fmtTruncated s.cur.bitPos.toNat)

/-- 40_cursor.md R211, under the cursor invariant of 10_state.md R45. -/
def Obligations.CurRdBitsReadsLeastSignificantBitFirst : Prop :=
  decode 0x18 = .ok .curRdBits ∧
  ∀ s : State,
    (s.cursorOk → 1 ≤ s.arg 0 → s.arg 0 ≤ 32 → s.cur.bitPos.toNat + s.arg 0 ≤ 8 * s.cur.len.toNat →
      ∃ t, exec .curRdBits s = .next t ∧
        s.completed t
          (((List.range (s.arg 0)).map fun j => s.cursorBit (s.cur.bitPos.toNat + j) * 2 ^ j).sum)
          (s.cur.bitPos.toNat + s.arg 0) 0 0 ∧
        t.cur = { s.cur with bitPos := BitVec.ofNat 32 (s.cur.bitPos.toNat + s.arg 0) } ∧ s.tablesKept t ∧
        s.bufKept t) ∧
    (s.arg 0 < 1 ∨ 32 < s.arg 0 → ∃ t, exec .curRdBits s = .next t ∧ s.failedCleanly t .arg 0) ∧
    (1 ≤ s.arg 0 → s.arg 0 ≤ 32 → 8 * s.cur.len.toNat < s.cur.bitPos.toNat + s.arg 0 →
      ∃ t, exec .curRdBits s = .next t ∧ s.failedCleanly t .fmtTruncated s.cur.bitPos.toNat)

/-- 40_cursor.md R212, under the cursor invariant of 10_state.md R45. -/
def Obligations.CurWrBitsWritesOnlyItsBits : Prop :=
  decode 0x19 = .ok .curWrBits ∧
  ∀ s : State,
    (s.cursorOk → 1 ≤ s.arg 0 → s.arg 0 ≤ 32 → s.cur.bitPos.toNat + s.arg 0 ≤ 8 * s.cur.len.toNat →
      ∃ t, exec .curWrBits s = .next t ∧ s.completed t 0 (s.cur.bitPos.toNat + s.arg 0) 0 0 ∧
        (∀ j < s.arg 0, t.cursorBit (s.cur.bitPos.toNat + j) = s.arg 1 / 2 ^ j % 2) ∧
        s.bitsKeptOutside t s.cur.base.toNat s.cur.bitPos.toNat (s.cur.bitPos.toNat + s.arg 0) ∧
        t.cur = { s.cur with bitPos := BitVec.ofNat 32 (s.cur.bitPos.toNat + s.arg 0) } ∧ s.tablesKept t) ∧
    (s.arg 0 < 1 ∨ 32 < s.arg 0 → ∃ t, exec .curWrBits s = .next t ∧ s.failedCleanly t .arg 0) ∧
    (1 ≤ s.arg 0 → s.arg 0 ≤ 32 → 8 * s.cur.len.toNat < s.cur.bitPos.toNat + s.arg 0 →
      ∃ t, exec .curWrBits s = .next t ∧ s.failedCleanly t .capacity s.cur.bitPos.toNat)

/-! ### The tree builder -/

/-- 41_huffman_build.md R231. -/
def Obligations.FreqClearZeroesTheTable : Prop :=
  decode 0x20 = .ok .hufFreqClear ∧
  ∀ s : State,
    ∃ t, exec .hufFreqClear s = .next t ∧ s.completed t 0 0 0 0 ∧ (∀ v : Byte, tableGet t.freq v = 0) ∧
      t.huf = { s.huf with total := 0 } ∧ t.tree = s.tree ∧ t.code = s.code ∧ t.cur = s.cur ∧ s.bufKept t

/-- 41_huffman_build.md R232. -/
def Obligations.FreqAddCountsTheSource : Prop :=
  decode 0x21 = .ok .hufFreqAdd ∧
  ∀ s : State,
    (s.arg 0 + s.arg 1 ≤ s.params.bufSize → s.huf.total.toNat + s.arg 1 ≤ 2 ^ 32 - 1 →
      ∃ t, exec .hufFreqAdd s = .next t ∧ s.completed t (s.huf.total.toNat + s.arg 1) 0 0 0 ∧
        (∀ v : Byte, tableGet t.freq v = tableGet s.freq v + BitVec.ofNat 32 (occurrences s.buf (s.arg 0) (s.arg 1) v)) ∧
        t.huf = { s.huf with total := BitVec.ofNat 32 (s.huf.total.toNat + s.arg 1) } ∧ t.tree = s.tree ∧
        t.code = s.code ∧ t.cur = s.cur ∧ s.bufKept t) ∧
    (s.params.bufSize < s.arg 0 + s.arg 1 → ∃ t, exec .hufFreqAdd s = .next t ∧ s.failedCleanly t .bounds 0) ∧
    (s.arg 0 + s.arg 1 ≤ s.params.bufSize → 2 ^ 32 - 1 < s.huf.total.toNat + s.arg 1 →
      ∃ t, exec .hufFreqAdd s = .next t ∧ s.failedCleanly t .freqOverflow 0)

/-- 41_huffman_build.md R238. -/
def Obligations.HufBuildInstallsTheTree : Prop :=
  decode 0x22 = .ok .hufBuild ∧
  ∀ s : State,
    ∃ t, exec .hufBuild s = .next t ∧ s.completed t (buildTree s.freq).size (presentCount s.freq) 0 0 ∧
      t.tree = buildTree s.freq ∧
      t.huf =
        { treeValid := true, codesValid := false, leafRoot := (buildTree s.freq).isLeaf
          nodeCount := BitVec.ofNat 9 (buildTree s.freq).size, total := s.huf.total, maxLen := 0 } ∧
      t.huf.nodeCount.toNat = (buildTree s.freq).size ∧ t.freq = s.freq ∧ t.cur = s.cur ∧ s.bufKept t

/-- 41_huffman_build.md R239. -/
def Obligations.HufBuildFromCountsAndBuilds : Prop :=
  decode 0x23 = .ok .hufBuildFrom ∧
  ∀ s : State,
    (s.arg 0 + s.arg 1 ≤ s.params.bufSize →
      ∃ t, exec .hufBuildFrom s = .next t ∧ s.completed t (buildTree t.freq).size (presentCount t.freq) 0 0 ∧
        (∀ v : Byte, (tableGet t.freq v).toNat = occurrences s.buf (s.arg 0) (s.arg 1) v) ∧
        t.tree = buildTree t.freq ∧
        t.huf =
          { treeValid := true, codesValid := false, leafRoot := (buildTree t.freq).isLeaf
            nodeCount := BitVec.ofNat 9 (buildTree t.freq).size, total := BitVec.ofNat 32 (s.arg 1), maxLen := 0 } ∧
        t.cur = s.cur ∧ s.bufKept t) ∧
    (s.params.bufSize < s.arg 0 + s.arg 1 → ∃ t, exec .hufBuildFrom s = .next t ∧ s.failedCleanly t .bounds 0)

/-- 41_huffman_build.md R244. The tree's depth is at most 255 because its leaf symbols are distinct (10_state.md R61). -/
def Obligations.HufDeriveInstallsTheCodewords : Prop :=
  decode 0x24 = .ok .hufDerive ∧
  ∀ s : State,
    (s.huf.treeValid = true → s.tree.symbols.Nodup →
      ∃ t longest, exec .hufDerive s = .next t ∧
        s.completed t
          ((List.range 256).filter fun v => decide (1 ≤ (tableGet t.code (BitVec.ofNat 8 v)).length)).length longest 0 0 ∧
        t.code = deriveCodes s.tree ∧ (∀ v : Byte, (tableGet t.code v).length ≤ longest) ∧
        (∃ v : Byte, (tableGet t.code v).length = longest) ∧
        t.huf = { s.huf with codesValid := true, maxLen := BitVec.ofNat 32 longest } ∧ t.huf.maxLen.toNat = longest ∧
        t.tree = s.tree ∧ t.freq = s.freq ∧ t.cur = s.cur ∧ s.bufKept t) ∧
    (s.huf.treeValid = false → ∃ t, exec .hufDerive s = .next t ∧ s.failedCleanly t .noTree 0)

/-- 41_huffman_build.md R247, under the invariant of 10_state.md R64 (3). -/
def Obligations.HufSerializeWritesTheRecords : Prop :=
  decode 0x25 = .ok .hufSerialize ∧
  ∀ s : State,
    (s.huf.treeValid = true → s.huf.nodeCount.toNat = s.tree.size → s.arg 0 + s.arg 1 ≤ s.params.bufSize →
      6 * s.huf.nodeCount.toNat ≤ s.arg 1 →
      ∃ t, exec .hufSerialize s = .next t ∧ s.completed t (6 * s.huf.nodeCount.toNat) s.huf.nodeCount.toNat 0 0 ∧
        t.buf.bytes (s.arg 0) (6 * s.huf.nodeCount.toNat) = serializeTree s.tree ∧
        s.bufKeptOutside t (s.arg 0) (6 * s.huf.nodeCount.toNat) ∧ t.cur = s.cur ∧ s.tablesKept t) ∧
    (s.huf.treeValid = false → ∃ t, exec .hufSerialize s = .next t ∧ s.failedCleanly t .noTree 0) ∧
    (s.huf.treeValid = true → s.params.bufSize < s.arg 0 + s.arg 1 →
      ∃ t, exec .hufSerialize s = .next t ∧ s.failedCleanly t .bounds 0) ∧
    (s.huf.treeValid = true → s.arg 0 + s.arg 1 ≤ s.params.bufSize → s.arg 1 < 6 * s.huf.nodeCount.toNat →
      ∃ t, exec .hufSerialize s = .next t ∧ s.failedCleanly t .capacity (6 * s.huf.nodeCount.toNat))

/-- 41_huffman_build.md R250 and 30_encoding.md R183, for codewords of at most 255 bits (10_state.md R62). -/
def Obligations.HufDumpCodesWritesEveryEntry : Prop :=
  decode 0x26 = .ok .hufDumpCodes ∧
  ∀ s : State,
    (s.huf.codesValid = true → (∀ v < 256, (tableGet s.code (BitVec.ofNat 8 v)).length ≤ 255) →
      s.arg 0 + s.arg 1 ≤ s.params.bufSize → 9216 ≤ s.arg 1 →
      ∃ t, exec .hufDumpCodes s = .next t ∧ s.completed t 9216 0 0 0 ∧
        (∀ v : Byte,
          littleEndianAt t.buf (s.arg 0 + 36 * v.toNat) 2 = (tableGet s.code v).length ∧
          littleEndianAt t.buf (s.arg 0 + 36 * v.toNat + 2) 2 = 0 ∧
          ∀ j < 256,
            (t.buf.readByte (s.arg 0 + 36 * v.toNat + 4 + j / 8)).getLsbD (j % 8) = (tableGet s.code v).getD j false) ∧
        s.bufKeptOutside t (s.arg 0) 9216 ∧ t.cur = s.cur ∧ s.tablesKept t) ∧
    (s.huf.codesValid = false → ∃ t, exec .hufDumpCodes s = .next t ∧ s.failedCleanly t .noCodes 0) ∧
    (s.huf.codesValid = true → s.params.bufSize < s.arg 0 + s.arg 1 →
      ∃ t, exec .hufDumpCodes s = .next t ∧ s.failedCleanly t .bounds 0) ∧
    (s.huf.codesValid = true → s.arg 0 + s.arg 1 ≤ s.params.bufSize → s.arg 1 < 9216 →
      ∃ t, exec .hufDumpCodes s = .next t ∧ s.failedCleanly t .capacity 9216)

/-! ### The decoder, the encoder and the parser -/

/-- 42_huffman_decode.md R277 with the walk of R272 and the havoc region of 60_exceptions.md R375. -/
def Obligations.HufDecodeWritesThePixels : Prop :=
  decode 0x28 = .ok .hufDecode ∧
  ∀ s : State,
    (∀ out e, s.arg 0 + s.arg 1 ≤ s.params.bufSize → s.arg 2 + s.arg 3 ≤ s.params.bufSize →
      s.arg 6 + 2 * s.arg 5 ≤ s.params.bufSize → regionsOverlap (s.arg 6) (2 * s.arg 5) (s.arg 0) (s.arg 1) = false →
      regionsOverlap (s.arg 6) (2 * s.arg 5) (s.arg 2) (s.arg 3) = false →
      DecodesAsWritten s.buf { tree := s.arg 0, treeLen := s.arg 1, blob := s.arg 2, blobLen := s.arg 3 } (s.arg 5)
        (s.arg 4) (.ok (out, e)) →
      ∃ t, exec .hufDecode s = .next t ∧ s.completed t e (2 * s.arg 5) 0 0 ∧
        t.buf.bytes (s.arg 6) (2 * s.arg 5) = out ∧ s.bufKeptOutside t (s.arg 6) (2 * s.arg 5) ∧ t.cur = s.cur ∧
        s.tablesKept t) ∧
    (s.params.bufSize < s.arg 0 + s.arg 1 → ∃ t, exec .hufDecode s = .next t ∧ s.failedCleanly t .bounds 0) ∧
    (s.arg 0 + s.arg 1 ≤ s.params.bufSize → s.params.bufSize < s.arg 2 + s.arg 3 →
      ∃ t, exec .hufDecode s = .next t ∧ s.failedCleanly t .bounds 2) ∧
    (s.arg 0 + s.arg 1 ≤ s.params.bufSize → s.arg 2 + s.arg 3 ≤ s.params.bufSize →
      s.params.bufSize < s.arg 6 + 2 * s.arg 5 →
      ∃ t, exec .hufDecode s = .next t ∧ s.failedCleanly t .bounds 6) ∧
    (s.arg 0 + s.arg 1 ≤ s.params.bufSize → s.arg 2 + s.arg 3 ≤ s.params.bufSize →
      s.arg 6 + 2 * s.arg 5 ≤ s.params.bufSize →
      regionsOverlap (s.arg 6) (2 * s.arg 5) (s.arg 0) (s.arg 1) = true ∨
        regionsOverlap (s.arg 6) (2 * s.arg 5) (s.arg 2) (s.arg 3) = true →
      ∃ t, exec .hufDecode s = .next t ∧ s.failedCleanly t .overlap 0) ∧
    (∀ err, s.arg 0 + s.arg 1 ≤ s.params.bufSize → s.arg 2 + s.arg 3 ≤ s.params.bufSize →
      s.arg 6 + 2 * s.arg 5 ≤ s.params.bufSize → regionsOverlap (s.arg 6) (2 * s.arg 5) (s.arg 0) (s.arg 1) = false →
      regionsOverlap (s.arg 6) (2 * s.arg 5) (s.arg 2) (s.arg 3) = false →
      DecodesAsWritten s.buf { tree := s.arg 0, treeLen := s.arg 1, blob := s.arg 2, blobLen := s.arg 3 } (s.arg 5)
        (s.arg 4) (.error err) →
      ∃ t, exec .hufDecode s = .next t ∧ s.failedWithHavoc t err.code err.info (s.arg 6) (2 * s.arg 5))

/-- 43_huffman_encode.md R296. -/
def Obligations.HufPackJoinsPixelPairs : Prop :=
  decode 0x30 = .ok .hufPack ∧
  ∀ s : State,
    (s.arg 1 % 2 = 0 → s.arg 0 + s.arg 1 ≤ s.params.bufSize → s.arg 2 + s.arg 1 / 2 ≤ s.params.bufSize →
      regionsOverlap (s.arg 0) (s.arg 1) (s.arg 2) (s.arg 1 / 2) = false →
      (∀ i < s.arg 1, (s.buf.readByte (s.arg 0 + i)).toNat ≤ 15) →
      ∃ t, exec .hufPack s = .next t ∧ s.completed t (s.arg 1 / 2) 0 0 0 ∧
        (∀ j < s.arg 1 / 2,
          (t.buf.readByte (s.arg 2 + j)).toNat =
            (s.buf.readByte (s.arg 0 + 2 * j)).toNat + 16 * (s.buf.readByte (s.arg 0 + 2 * j + 1)).toNat) ∧
        s.bufKeptOutside t (s.arg 2) (s.arg 1 / 2) ∧ t.cur = s.cur ∧ s.tablesKept t) ∧
    (s.arg 1 % 2 ≠ 0 → ∃ t, exec .hufPack s = .next t ∧ s.failedCleanly t .arg 1) ∧
    (s.arg 1 % 2 = 0 → s.params.bufSize < s.arg 0 + s.arg 1 →
      ∃ t, exec .hufPack s = .next t ∧ s.failedCleanly t .bounds 0) ∧
    (s.arg 1 % 2 = 0 → s.arg 0 + s.arg 1 ≤ s.params.bufSize → s.params.bufSize < s.arg 2 + s.arg 1 / 2 →
      ∃ t, exec .hufPack s = .next t ∧ s.failedCleanly t .bounds 2) ∧
    (s.arg 1 % 2 = 0 → s.arg 0 + s.arg 1 ≤ s.params.bufSize → s.arg 2 + s.arg 1 / 2 ≤ s.params.bufSize →
      regionsOverlap (s.arg 0) (s.arg 1) (s.arg 2) (s.arg 1 / 2) = true →
      ∃ t, exec .hufPack s = .next t ∧ s.failedCleanly t .overlap 0) ∧
    (∀ i < s.arg 1, s.arg 1 % 2 = 0 → s.arg 0 + s.arg 1 ≤ s.params.bufSize →
      s.arg 2 + s.arg 1 / 2 ≤ s.params.bufSize → regionsOverlap (s.arg 0) (s.arg 1) (s.arg 2) (s.arg 1 / 2) = false →
      15 < (s.buf.readByte (s.arg 0 + i)).toNat → (∀ j < i, (s.buf.readByte (s.arg 0 + j)).toNat ≤ 15) →
      ∃ t, exec .hufPack s = .next t ∧ s.failedCleanly t .fmtPixelRange i)

/-- 43_huffman_encode.md R297, with the placement, padding and preservation of R293 to R295. -/
def Obligations.HufEncodePlacesTheCodewords : Prop :=
  decode 0x31 = .ok .hufEncode ∧
  ∀ s : State,
    let bits := s.symbolBits (s.arg 0) (s.arg 1)
    let e := s.arg 4 + bits.length
    let need := 2 * ((e + 15) / 16)
    (s.huf.codesValid = true → s.arg 0 + s.arg 1 ≤ s.params.bufSize → s.arg 2 + s.arg 3 ≤ s.params.bufSize →
      regionsOverlap (s.arg 0) (s.arg 1) (s.arg 2) (s.arg 3) = false → s.allCoded (s.arg 0) (s.arg 1) →
      need ≤ s.arg 3 →
      ∃ t, exec .hufEncode s = .next t ∧ s.completed t e need bits.length 0 ∧
        (∀ k < bits.length, streamBit t.buf (s.arg 2) (s.arg 4 + k) = (bits.getD k false).toNat) ∧
        (∀ k, e ≤ k → k < ceil16 e → streamBit t.buf (s.arg 2) k = 0) ∧
        s.bitsKeptOutside t (s.arg 2) (s.arg 4) (ceil16 e) ∧ t.cur = s.cur ∧ s.tablesKept t) ∧
    (s.huf.codesValid = false → ∃ t, exec .hufEncode s = .next t ∧ s.failedCleanly t .noCodes 0) ∧
    (s.huf.codesValid = true → s.params.bufSize < s.arg 0 + s.arg 1 →
      ∃ t, exec .hufEncode s = .next t ∧ s.failedCleanly t .bounds 0) ∧
    (s.huf.codesValid = true → s.arg 0 + s.arg 1 ≤ s.params.bufSize → s.params.bufSize < s.arg 2 + s.arg 3 →
      ∃ t, exec .hufEncode s = .next t ∧ s.failedCleanly t .bounds 2) ∧
    (s.huf.codesValid = true → s.arg 0 + s.arg 1 ≤ s.params.bufSize → s.arg 2 + s.arg 3 ≤ s.params.bufSize →
      regionsOverlap (s.arg 0) (s.arg 1) (s.arg 2) (s.arg 3) = true →
      ∃ t, exec .hufEncode s = .next t ∧ s.failedCleanly t .overlap 0) ∧
    (∀ j, s.huf.codesValid = true → s.arg 0 + s.arg 1 ≤ s.params.bufSize → s.arg 2 + s.arg 3 ≤ s.params.bufSize →
      regionsOverlap (s.arg 0) (s.arg 1) (s.arg 2) (s.arg 3) = false → s.firstUncoded (s.arg 0) (s.arg 1) j →
      ∃ t, exec .hufEncode s = .next t ∧ s.failedCleanly t .noCode (s.buf.readByte (s.arg 0 + j)).toNat) ∧
    (s.huf.codesValid = true → s.arg 0 + s.arg 1 ≤ s.params.bufSize → s.arg 2 + s.arg 3 ≤ s.params.bufSize →
      regionsOverlap (s.arg 0) (s.arg 1) (s.arg 2) (s.arg 3) = false → s.allCoded (s.arg 0) (s.arg 1) →
      s.arg 3 < need → ∃ t, exec .hufEncode s = .next t ∧ s.failedCleanly t .capacity need)

/-- 43_huffman_encode.md R298 and R299. BUF_SIZE is at most 2^24 (00_scope.md R9), so every start fits its entry. -/
def Obligations.HufCompressWritesBlobAndPositions : Prop :=
  decode 0x32 = .ok .hufCompress ∧
  ∀ s : State,
    let n := s.arg 1 * s.arg 2
    let bits := s.symbolBits (s.arg 0) n
    let need := 2 * ((bits.length + 15) / 16)
    let overlap :=
      regionsOverlap (s.arg 0) n (s.arg 3) (s.arg 4) || regionsOverlap (s.arg 0) n (s.arg 5) (4 * s.arg 1) ||
        regionsOverlap (s.arg 3) (s.arg 4) (s.arg 5) (4 * s.arg 1)
    (s.params.wf = true → s.huf.codesValid = true → s.arg 0 + n ≤ s.params.bufSize →
      s.arg 3 + s.arg 4 ≤ s.params.bufSize → s.arg 5 + 4 * s.arg 1 ≤ s.params.bufSize → overlap = false →
      s.allCoded (s.arg 0) n → need ≤ s.arg 4 →
      ∃ t, exec .hufCompress s = .next t ∧ s.completed t bits.length need (4 * s.arg 1) 0 ∧
        (∀ k < bits.length, streamBit t.buf (s.arg 3) k = (bits.getD k false).toNat) ∧
        (∀ k, bits.length ≤ k → k < ceil16 bits.length → streamBit t.buf (s.arg 3) k = 0) ∧
        (∀ i < s.arg 1,
          littleEndianAt t.buf (s.arg 5 + 4 * i) 4 = (s.symbolBits (s.arg 0) (i * s.arg 2)).length) ∧
        (∀ x, (x < s.arg 3 ∨ s.arg 3 + need ≤ x) → (x < s.arg 5 ∨ s.arg 5 + 4 * s.arg 1 ≤ x) →
          t.buf.readByte x = s.buf.readByte x) ∧
        t.cur = s.cur ∧ s.tablesKept t) ∧
    (s.huf.codesValid = false → ∃ t, exec .hufCompress s = .next t ∧ s.failedCleanly t .noCodes 0) ∧
    (s.huf.codesValid = true → s.params.bufSize < s.arg 0 + n →
      ∃ t, exec .hufCompress s = .next t ∧ s.failedCleanly t .bounds 0) ∧
    (s.huf.codesValid = true → s.arg 0 + n ≤ s.params.bufSize → s.params.bufSize < s.arg 3 + s.arg 4 →
      ∃ t, exec .hufCompress s = .next t ∧ s.failedCleanly t .bounds 3) ∧
    (s.huf.codesValid = true → s.arg 0 + n ≤ s.params.bufSize → s.arg 3 + s.arg 4 ≤ s.params.bufSize →
      s.params.bufSize < s.arg 5 + 4 * s.arg 1 →
      ∃ t, exec .hufCompress s = .next t ∧ s.failedCleanly t .bounds 5) ∧
    (s.huf.codesValid = true → s.arg 0 + n ≤ s.params.bufSize → s.arg 3 + s.arg 4 ≤ s.params.bufSize →
      s.arg 5 + 4 * s.arg 1 ≤ s.params.bufSize → overlap = true →
      ∃ t, exec .hufCompress s = .next t ∧ s.failedCleanly t .overlap 0) ∧
    (∀ j, s.huf.codesValid = true → s.arg 0 + n ≤ s.params.bufSize → s.arg 3 + s.arg 4 ≤ s.params.bufSize →
      s.arg 5 + 4 * s.arg 1 ≤ s.params.bufSize → overlap = false → s.firstUncoded (s.arg 0) n j →
      ∃ t, exec .hufCompress s = .next t ∧ s.failedCleanly t .noCode (s.buf.readByte (s.arg 0 + j)).toNat) ∧
    (s.huf.codesValid = true → s.arg 0 + n ≤ s.params.bufSize → s.arg 3 + s.arg 4 ≤ s.params.bufSize →
      s.arg 5 + 4 * s.arg 1 ≤ s.params.bufSize → overlap = false → s.allCoded (s.arg 0) n → s.arg 4 < need →
      ∃ t, exec .hufCompress s = .next t ∧ s.failedCleanly t .capacity need)

/-- 44_container.md R322 with the error order of 60_exceptions.md R374 and the havoc region of R375: a declared font is written, and
the first failing check or image of the parse raises its error. -/
def Obligations.FcpParseWritesTheFontModel : Prop :=
  decode 0x40 = .ok .fcpParse ∧
  ∀ s : State,
    let src : Source := { base := s.arg 0, len := s.arg 1 }
    (∀ f consumed, s.arg 0 + s.arg 1 ≤ s.params.bufSize → s.arg 2 + s.arg 3 ≤ s.params.bufSize →
      regionsOverlap (s.arg 0) (s.arg 1) (s.arg 2) (s.arg 3) = false →
      ParsedAsDeclared s.buf (hdrSizeOk s.params) src (s.arg 3) f consumed →
      ∃ t, exec .fcpParse s = .next t ∧
        s.completed t f.numGlyphs f.images (56 + 8 * f.numGlyphs + f.numGlyphs * f.charWidth * f.charHeight) consumed ∧
        t.buf.bytes (s.arg 2) (56 + 8 * f.numGlyphs + f.numGlyphs * f.charWidth * f.charHeight) = fontImage f ∧
        s.bufKeptOutside t (s.arg 2) (56 + 8 * f.numGlyphs + f.numGlyphs * f.charWidth * f.charHeight) ∧
        t.cur = s.cur ∧ s.tablesKept t) ∧
    (s.params.bufSize < s.arg 0 + s.arg 1 → ∃ t, exec .fcpParse s = .next t ∧ s.failedCleanly t .bounds 0) ∧
    (s.arg 0 + s.arg 1 ≤ s.params.bufSize → s.params.bufSize < s.arg 2 + s.arg 3 →
      ∃ t, exec .fcpParse s = .next t ∧ s.failedCleanly t .bounds 2) ∧
    (s.arg 0 + s.arg 1 ≤ s.params.bufSize → s.arg 2 + s.arg 3 ≤ s.params.bufSize →
      regionsOverlap (s.arg 0) (s.arg 1) (s.arg 2) (s.arg 3) = true →
      ∃ t, exec .fcpParse s = .next t ∧ s.failedCleanly t .overlap 0) ∧
    (∀ err, s.arg 0 + s.arg 1 ≤ s.params.bufSize → s.arg 2 + s.arg 3 ≤ s.params.bufSize →
      regionsOverlap (s.arg 0) (s.arg 1) (s.arg 2) (s.arg 3) = false →
      FailsAsDeclared s.buf (hdrSizeOk s.params) src (s.arg 3) err →
      ∃ t, exec .fcpParse s = .next t ∧ s.failedWithHavoc t err.code err.info (s.arg 2) (s.arg 3))

/-! ### What commands and events may change -/

/-- 10_state.md R64, R45, R43, R39, R41 and 20_memory.md R100: only the named commands write the cursor, the tables and BUF, and
no command writes what the host owns. -/
def Obligations.OnlyNamedCommandsWriteEachState : Prop :=
  ∀ (i : Instr) (s t : State), exec i s = .next t →
    s.hostSideKept t ∧ t.pending = none ∧ t.status.busy = false ∧
    (t.cur ≠ s.cur →
      i ∈ [Instr.curSet, .curRd8, .curRd16, .curRd32, .curWr8, .curWr16, .curWr32, .curSkip, .curRdBits, .curWrBits]) ∧
    (t.freq ≠ s.freq ∨ t.huf.total ≠ s.huf.total → i ∈ [Instr.hufFreqClear, .hufFreqAdd, .hufBuildFrom]) ∧
    (t.tree ≠ s.tree ∨ t.huf.nodeCount ≠ s.huf.nodeCount ∨ t.huf.leafRoot ≠ s.huf.leafRoot ∨
        t.huf.treeValid ≠ s.huf.treeValid →
      i ∈ [Instr.hufBuild, .hufBuildFrom]) ∧
    (t.code ≠ s.code → i = .hufDerive) ∧ (t.huf.codesValid = true → s.huf.codesValid = true ∨ i = .hufDerive) ∧
    (¬s.bufKept t →
      i ∈ [Instr.curWr8, .curWr16, .curWr32, .curWrBits, .hufSerialize, .hufDumpCodes, .hufDecode, .hufPack, .hufEncode,
        .hufCompress, .fcpParse])

/-- 10_state.md R36, with 70_reset_and_hazards.md R410: BUSY is set by a CMD write that is accepted, and cleared by the completion
of the latched command, with DONE or ERR, or by a reset. Which events let the completion happen is the model's choice: no event left
(log entry 11), the engine's event (log entry 4), or a held BUF access (log entry 5). -/
def Obligations.OnlyTheNamedEventsChangeBusy : Prop :=
  ∀ s t : State, s.stepsTo t →
    (s.status.busy = false → t.status.busy = true →
      ∃ c rest, s.script = cmdLine c :: rest ∧ t.pending = some { word := c, args := s.args }) ∧
    (s.status.busy = true → t.status.busy = false →
      (s.pending ≠ none ∧ t.pending = none ∧ (t.status.done = true ∨ t.status.err = true) ∧
        (s.script = [] ∨ (∃ rest, s.script = .engine :: rest) ∨
          ∃ a rest, s.script = .host a :: rest ∧ a.inBufWindow s.params)) ∨
      ∃ e rest, s.script = e :: rest ∧ e.resets)

/-! ### Properties of the codec -/

/-- 40_cursor.md R202 and 00_scope.md R16: the cursor and the codec number bits alike, and the encoder's byte form and the
decoder's word form agree. -/
def Obligations.CursorAndCodecNumberBitsAlike : Prop :=
  (∀ (s : State) p, s.cursorBit p = streamBit s.buf s.cur.base.toNat p) ∧
    ∀ (m : Mem) base p, (m.bit base p).toNat = streamBit m base p ∧ (m.wordBit base p).toNat = streamBit m base p

/-- 41_huffman_build.md R233 (with R234 to R236): the model's tree is the one the rule's loop builds. -/
def Obligations.BuildTreeIsTheLoopOfTheRule : Prop := ∀ f : Vector Word 256, buildTree f = buildTreeAsWritten f

/-- 41_huffman_build.md R237. -/
def Obligations.BuiltTreeHasTwoKMinusOneNodes : Prop :=
  ∀ f : Vector Word 256,
    (1 ≤ presentCount f →
      (buildTree f).symbols.length = presentCount f ∧ (buildTree f).size = 2 * presentCount f - 1) ∧
    (presentCount f = 0 → (buildTree f).size = 1) ∧ (buildTree f).symbols.Nodup ∧ 1 ≤ (buildTree f).size ∧
    (buildTree f).size ≤ 511

/-- 41_huffman_build.md R241, R242: the codeword of a symbol is the path to its leaf; a single leaf's is the one bit 0. -/
def Obligations.CodewordsAreTreePaths : Prop :=
  (∀ s v : Byte, tableGet (deriveCodes (.leaf s)) v = if v = s then [false] else []) ∧
    ∀ (l r : Sys2Proof.Tree), (Sys2Proof.Tree.node l r).symbols.Nodup → ∀ (v : Byte) (p : List Bool), p ≠ [] →
      (tableGet (deriveCodes (.node l r)) v = p ↔ treeFollow (.node l r) p = some v)

/-- 41_huffman_build.md R243 (1) to (4): prefix-free, complete, defined on the leaves alone, at most 255 bits. -/
def Obligations.CodewordsArePrefixFreeAndComplete : Prop :=
  (∀ T : Sys2Proof.Tree, T.symbols.Nodup → ∀ u v : Byte, u ≠ v → tableGet (deriveCodes T) u ≠ [] →
    ¬tableGet (deriveCodes T) u <+: tableGet (deriveCodes T) v) ∧
  (∀ l r : Sys2Proof.Tree, (Sys2Proof.Tree.node l r).symbols.Nodup →
    ((allBytes.map fun v =>
      if tableGet (deriveCodes (.node l r)) v = [] then (0 : ℚ)
      else (1 / 2) ^ (tableGet (deriveCodes (.node l r)) v).length).sum = 1)) ∧
  (∀ T : Sys2Proof.Tree, T.symbols.Nodup → ∀ v : Byte,
    (1 ≤ (tableGet (deriveCodes T) v).length ↔ v ∈ T.symbols) ∧ (tableGet (deriveCodes T) v).length ≤ 255) ∧
  (∀ (f : Vector Word 256) (v : Byte),
    v ∈ (buildTree f).symbols ↔ 0 < (tableGet f v).toNat ∨ (presentCount f = 0 ∧ v = 0))

/-- 41_huffman_build.md R243 (5), for symbols with a codeword. -/
def Obligations.FrequentSymbolsHaveNoLongerCodewords : Prop :=
  ∀ (f : Vector Word 256) (u v : Byte), 0 < (tableGet f u).toNat → (tableGet f u).toNat < (tableGet f v).toNat →
    (tableGet (deriveCodes (buildTree f)) v).length ≤ (tableGet (deriveCodes (buildTree f)) u).length

/-- 41_huffman_build.md R245: Serialize as the numbering `emit` writes it. -/
def Obligations.SerializeIsEmitOfTheRule : Prop :=
  ∀ T : Sys2Proof.Tree,
    (emitAsWritten T 0).1 = 0 ∧ (emitAsWritten T 0).2.1 = T.size ∧
    ((emitAsWritten T 0).2.2.map Prod.fst).Perm (List.range T.size) ∧ (serializeTree T).length = 6 * T.size ∧
    ∀ i rec, (i, rec) ∈ (emitAsWritten T 0).2.2 → ((serializeTree T).drop (6 * i)).take 6 = rec

/-- 42_huffman_decode.md R272 (with R271, R273 to R276): the model's decode is the walk of the rule, on every byte array. -/
def Obligations.DecodeCoreIsTheWalkOfTheRule : Prop :=
  ∀ (m : Mem) (d : DecodeSource) (nsym p : Nat) (r : Except CmdError (List Byte × Nat)),
    decodeCore m d nsym p = r ↔ DecodesAsWritten m d nsym p r

/-- 41_huffman_build.md R248: given the codeword's bits, the walk over the serialized tree ends at the symbol's leaf. -/
def Obligations.SerializedTreeDecodesEveryCodeword : Prop :=
  ∀ (f : Vector Word 256) (v : Byte) (m : Mem) (d : DecodeSource) (p : Nat),
    let T := buildTree f
    let w := tableGet (deriveCodes T) v
    w ≠ [] → d.treeLen = 6 * T.size → m.bytes d.tree d.treeLen = serializeTree T →
    (∀ j < w.length, fetchBit m d (p + j) = .ok (w.getD j false)) →
    decodeSymbol m d p = .ok (v, p + w.length)

/-- 42_huffman_decode.md R278: HUF_DECODE's outcome is a function of its regions and operands. -/
def Obligations.HufDecodeDependsOnItsInputsOnly : Prop :=
  ∀ s u : State, (∀ k : Fin 8, k < 7 → u.arg k = s.arg k) → u.params.bufSize = s.params.bufSize →
    (∀ j < s.arg 1, u.buf.readByte (s.arg 0 + j) = s.buf.readByte (s.arg 0 + j)) →
    (∀ j < s.arg 3, u.buf.readByte (s.arg 2 + j) = s.buf.readByte (s.arg 2 + j)) →
    s.status.done = false → s.status.err = false → u.status.done = false → u.status.err = false →
    (∀ e out,
      (∃ t, exec .hufDecode s = .next t ∧ s.completed t e (2 * s.arg 5) 0 0 ∧
        t.buf.bytes (s.arg 6) (2 * s.arg 5) = out) ↔
      ∃ t, exec .hufDecode u = .next t ∧ u.completed t e (2 * s.arg 5) 0 0 ∧
        t.buf.bytes (s.arg 6) (2 * s.arg 5) = out) ∧
    ∀ code info,
      (∃ t, exec .hufDecode s = .next t ∧ s.failed t code info) ↔ ∃ t, exec .hufDecode u = .next t ∧ u.failed t code info

/-- 42_huffman_decode.md R279: no stream bit before the start matters. -/
def Obligations.DecodeReadsNoBitBeforeTheStart : Prop :=
  ∀ (m n : Mem) (d : DecodeSource) (nsym p : Nat),
    (∀ j < d.treeLen, n.readByte (d.tree + j) = m.readByte (d.tree + j)) →
    (∀ q, p ≤ q → q < 8 * d.blobLen → streamBit n d.blob q = streamBit m d.blob q) →
    decodeCore n d nsym p = decodeCore m d nsym p

/-- 42_huffman_decode.md R280: one whole word later. -/
def Obligations.DecodeShiftsByAWholeWord : Prop :=
  ∀ (m : Mem) (d : DecodeSource) (nsym p : Nat), 2 ≤ d.blobLen →
    decodeCore m d nsym (p + 16) =
      laterByOneWord (decodeCore m { d with blob := d.blob + 2, blobLen := d.blobLen - 2 } nsym p)

/-- 42_huffman_decode.md R281: decoding an encoded stream with the serialized tree gives the symbols' nibbles back. -/
def Obligations.EncodedSymbolsDecodeToThemselves : Prop :=
  ∀ (s t : State) (tree : Nat), s.params.wf = true → s.huf.treeValid = true → s.tree.symbols.Nodup →
    s.code = deriveCodes s.tree → s.status.done = false → exec .hufEncode s = .next t → t.status.done = true →
    t.buf.bytes tree (6 * s.tree.size) = serializeTree s.tree →
    decodeCore t.buf
        { tree := tree, treeLen := 6 * s.tree.size, blob := s.arg 2, blobLen := t.res[1].toNat } (s.arg 1) (s.arg 4) =
      .ok ((s.buf.bytes (s.arg 0) (s.arg 1)).flatMap nibbles, t.res[0].toNat)

/-- 44_container.md R322 to R343 and 60_exceptions.md R374: a parse succeeds exactly on a container whose declared fields pass every
check, with the font they declare, and fails exactly with the error of the first check or image that fails. -/
def Obligations.ParseSucceedsExactlyOnDeclaredFonts : Prop :=
  ∀ (m : Mem) (hdrSizeOk : Word → Bool) (src : Source) (cap : Nat) (r : Except CmdError (FontModel × Nat)),
    parseContainer m hdrSizeOk src cap = r ↔ ParsesAsWritten m hdrSizeOk src cap r

/-- 30_encoding.md R180, R181, R182: the layout of the Font Model image. -/
def Obligations.FontImageLayoutIsTheSpecs : Prop :=
  ∀ (m : Mem) (d : Nat) (f : FontModel), f.numGlyphs < 2 ^ 16 → f.charWidth < 2 ^ 16 → f.charHeight < 2 ^ 16 →
    f.images < 2 ^ 16 → f.palette.length = 16 → f.metrics.length = f.numGlyphs → f.grids.length = f.numGlyphs →
    (∀ g ∈ f.grids, g.length = f.charWidth * f.charHeight) →
    (∀ g ∈ f.metrics, g.code < 2 ^ 32 ∧ g.bearingX < 256 ∧ g.advance < 256 ∧ -256 < g.width ∧ g.width < 256) →
    m.bytes d (56 + 8 * f.numGlyphs + f.numGlyphs * f.charWidth * f.charHeight) = fontImage f →
    littleEndianAt m d 2 = f.numGlyphs ∧ littleEndianAt m (d + 2) 2 = f.charWidth ∧
    littleEndianAt m (d + 4) 2 = f.charHeight ∧ littleEndianAt m (d + 6) 2 = f.images ∧
    (∀ k < 16,
      f.palette[k]? =
        some (m.readByte (d + 8 + 3 * k), m.readByte (d + 8 + 3 * k + 1), m.readByte (d + 8 + 3 * k + 2))) ∧
    (∀ i < f.numGlyphs,
      f.metrics[i]? =
        some
          { code := littleEndianAt m (d + 56 + 8 * i) 4
            bearingX := littleEndianAt m (d + 56 + 8 * i + 4) 1
            advance := littleEndianAt m (d + 56 + 8 * i + 5) 1
            width := (BitVec.ofNat 16 (littleEndianAt m (d + 56 + 8 * i + 6) 2)).toInt }) ∧
    ∀ i < f.numGlyphs, ∀ x < f.charWidth, ∀ y < f.charHeight,
      ((f.grids[i]?.getD [])[y * f.charWidth + x]?) =
        some (m.readByte (d + 56 + 8 * f.numGlyphs + i * (f.charWidth * f.charHeight) + (y * f.charWidth + x)))

/-- 44_container.md R353: the round trip through the host's assembly contract (R345 to R352), whatever the OPEN host parameters,
SIM_FIELD in any ignored field or not written (R351). The assembly as a function of the font is the model's choice (log entry
18). -/
def Obligations.AssembledContainerParsesToItsFont : Prop :=
  ∀ (s : State) (p : ContractParams) (f : FontModel), s.params.wf = true → f.fitsContainer = true → p.fits f = true →
    hdrSizeOk s.params (BitVec.ofNat 32 (littleEndianAt s.buf (s.arg 0) 4)) = true →
    s.arg 1 = (assembleContainer p f).length → s.buf.bytes (s.arg 0) (s.arg 1) = assembleContainer p f →
    s.arg 0 + s.arg 1 ≤ s.params.bufSize → s.arg 2 + s.arg 3 ≤ s.params.bufSize →
    regionsOverlap (s.arg 0) (s.arg 1) (s.arg 2) (s.arg 3) = false →
    fontImageSize f.numGlyphs f.charWidth f.charHeight ≤ s.arg 3 →
    ∃ t, exec .fcpParse s = .next t ∧
      s.completed t f.numGlyphs f.numGlyphs (fontImageSize f.numGlyphs f.charWidth f.charHeight) (s.arg 1) ∧
      t.buf.bytes (s.arg 2) (fontImageSize f.numGlyphs f.charWidth f.charHeight) = fontImage f

/-! ### Invariants -/

/-- Every step keeps BUF's canonical form and its bytes inside 0 to BUF_SIZE − 1 (20_memory.md R100), with the validity invariants
of 10_state.md R64, which bound what HUF_SERIALIZE writes. The canonical form is the model's own. -/
def Obligations.EveryStepKeepsTheBufferInside : Prop :=
  ∀ s t : State, s.bufOk → s.hufOk → s.stepsTo t → t.bufOk ∧ t.hufOk

/-- Every step keeps the lifecycle (10_state.md R37, R40, R41, R50, R63). -/
def Obligations.EveryStepKeepsTheLifecycle : Prop := ∀ s t : State, s.lifecycleOk → s.stepsTo t → t.lifecycleOk

/-- From every state that meets the invariant a step answers a next state, and that state meets it (10_state.md R37, R45, R47,
R63, R64; 20_memory.md R100). -/
def Obligations.InvariantStatesStepToInvariantStates : Prop := ∀ s : State, s.Inv → ∃ t, step s = .next t ∧ t.Inv

/-- The state after reset meets the invariant. -/
def Obligations.ResetMeetsTheInvariant : Prop := State.reset.Inv
end

