-- ==== Sys2Proof/Laws/Memory.lean ====
section
/-!
SUPPORT. The laws of BUF: what a store leaves at every address, that every store keeps the canonical form and the address range,
that equal readings of canonical memories are equal memories, and what a bit write leaves at every bit.
-/
namespace Sys2Proof.Machine

/-! ### The canonical form -/

theorem Mem.risingFrom_iff (lo : Nat) (m : Mem) :
    m.risingFrom lo = true ↔
      (∀ c ∈ m, lo ≤ c.1 ∧ c.2 ≠ unlistedByte) ∧ m.Pairwise fun c d => c.1 < d.1 := by
  induction m generalizing lo with
  | nil => simp [Mem.risingFrom]
  | cons c rest ih =>
    obtain ⟨k, b⟩ := c
    simp only [Mem.risingFrom, Bool.and_eq_true, decide_eq_true_eq, ih, List.mem_cons, List.pairwise_cons,
      forall_eq_or_imp]
    constructor
    · rintro ⟨⟨hk, hb⟩, hmem, hp⟩
      exact ⟨⟨⟨hk, hb⟩, fun d hd => ⟨by have := (hmem d hd).1; omega, (hmem d hd).2⟩⟩,
        fun d hd => by have := (hmem d hd).1; omega, hp⟩
    · rintro ⟨⟨⟨hk, hb⟩, hmem⟩, hlt, hp⟩
      exact ⟨⟨hk, hb⟩, fun d hd => ⟨by have := hlt d hd; omega, (hmem d hd).2⟩, hp⟩

theorem Mem.wf_iff (m : Mem) :
    m.wf = true ↔ (∀ c ∈ m, c.2 ≠ unlistedByte) ∧ m.Pairwise fun c d => c.1 < d.1 := by
  simp [Mem.wf, Mem.risingFrom_iff]

theorem Mem.inside_iff (m : Mem) (n : Nat) : m.inside n = true ↔ ∀ c ∈ m, c.1 < n := by
  simp [Mem.inside]

/-! ### Reading -/

theorem Mem.readByte_of_unlisted {m : Mem} {x : Nat} (h : ∀ c ∈ m, c.1 ≠ x) : m.readByte x = unlistedByte := by
  induction m with
  | nil => rfl
  | cons c rest ih =>
    obtain ⟨k, b⟩ := c
    have hk : k ≠ x := h (k, b) (by simp)
    simp only [Mem.readByte, hk, if_false]
    exact ih fun d hd => h d (by simp [hd])

theorem Mem.readByte_append_left {l r : Mem} {x : Nat} (h : ∀ c ∈ l, c.1 ≠ x) :
    Mem.readByte (l ++ r) x = Mem.readByte r x := by
  induction l with
  | nil => rfl
  | cons c rest ih =>
    obtain ⟨k, b⟩ := c
    have hk : k ≠ x := h (k, b) (by simp)
    simp only [List.cons_append, Mem.readByte, hk, if_false]
    exact ih fun d hd => h d (by simp [hd])

theorem Mem.readByte_append_right {l r : Mem} {x : Nat} (h : ∀ c ∈ r, c.1 ≠ x) :
    Mem.readByte (l ++ r) x = Mem.readByte l x := by
  induction l with
  | nil => simpa [Mem.readByte] using Mem.readByte_of_unlisted h
  | cons c rest ih =>
    obtain ⟨k, b⟩ := c
    simp only [List.cons_append, Mem.readByte]
    split
    · rfl
    · exact ih

theorem Mem.readByte_filter {m : Mem} {x : Nat} (p : Nat → Bool) (h : p x = true) :
    Mem.readByte (m.filter fun c => p c.1) x = Mem.readByte m x := by
  induction m with
  | nil => rfl
  | cons c rest ih =>
    obtain ⟨k, b⟩ := c
    by_cases hk : k = x
    · subst hk; simp [h, Mem.readByte]
    · by_cases hp : p k = true <;> simp [hp, Mem.readByte, hk, ih]

theorem Mem.readByte_mem {m : Mem} {c : Host.Cell} (hp : m.Pairwise fun c d => c.1 < d.1) (hc : c ∈ m) :
    m.readByte c.1 = c.2 := by
  induction m with
  | nil => simp at hc
  | cons d rest ih =>
    obtain ⟨k, b⟩ := d
    rw [List.pairwise_cons] at hp
    rcases List.mem_cons.mp hc with rfl | hc
    · simp [Mem.readByte]
    · have : k ≠ c.1 := by have := hp.1 c hc; simp at this; omega
      simp only [Mem.readByte, this, if_false]
      exact ih hp.2 hc

/-! ### The entries of a written range -/

theorem Mem.cells_bounds {a : Nat} {bs : List Byte} {c : Host.Cell} (h : c ∈ Mem.cells a bs) :
    a ≤ c.1 ∧ c.1 < a + bs.length ∧ c.2 ≠ unlistedByte := by
  induction bs generalizing a with
  | nil => simp [Mem.cells] at h
  | cons b bs ih =>
    simp only [Mem.cells] at h
    split at h
    · have := ih h
      exact ⟨by omega, by simp; omega, this.2.2⟩
    · rename_i hb
      rcases List.mem_cons.mp h with rfl | h
      · exact ⟨le_refl _, by simp, hb⟩
      · have := ih h
        exact ⟨by omega, by simp; omega, this.2.2⟩

theorem Mem.cells_pairwise (a : Nat) (bs : List Byte) : (Mem.cells a bs).Pairwise fun c d => c.1 < d.1 := by
  induction bs generalizing a with
  | nil => simp [Mem.cells]
  | cons b bs ih =>
    simp only [Mem.cells]
    split
    · exact ih _
    · refine List.pairwise_cons.mpr ⟨fun c hc => ?_, ih _⟩
      have := (Mem.cells_bounds hc).1
      simp; omega

theorem Mem.readByte_cells (a : Nat) (bs : List Byte) (x : Nat) (h1 : a ≤ x) (h2 : x < a + bs.length) :
    Mem.readByte (Mem.cells a bs) x = bs[x - a]'(by omega) := by
  induction bs generalizing a with
  | nil => simp at h2; omega
  | cons b bs ih =>
    simp only [List.length_cons] at h2
    by_cases hx : x = a
    · subst hx
      simp only [Mem.cells, Nat.sub_self, List.getElem_cons_zero]
      split
      · rename_i hb
        rw [hb]
        exact Mem.readByte_of_unlisted fun c hc => by have := (Mem.cells_bounds hc).1; omega
      · simp [Mem.readByte]
    · have h' := ih (a + 1) (by omega) (by omega)
      have hidx : x - a = (x - (a + 1)) + 1 := by omega
      simp only [Mem.cells, hidx, List.getElem_cons_succ]
      split
      · exact h'
      · have : a ≠ x := fun h => hx h.symm
        simp only [Mem.readByte, this, if_false]
        exact h'

/-! ### The one write -/

/-- Inside the stored range every byte reads as stored. -/
theorem Mem.readByte_store_of_mem (m : Mem) (a : Nat) (bs : List Byte) (x : Nat) (h1 : a ≤ x) (h2 : x < a + bs.length) :
    (m.store a bs).readByte x = bs[x - a]'(by omega) := by
  unfold Mem.store
  rw [Mem.readByte_append_right, Mem.readByte_append_left, Mem.readByte_cells a bs x h1 h2]
  · intro c hc
    have := (List.mem_filter.mp hc).2
    simp at this; omega
  · intro c hc
    have := (List.mem_filter.mp hc).2
    simp at this; omega

/-- Outside the stored range every byte reads as before. -/
theorem Mem.readByte_store_of_not_mem (m : Mem) (a : Nat) (bs : List Byte) (x : Nat) (h : x < a ∨ a + bs.length ≤ x) :
    (m.store a bs).readByte x = m.readByte x := by
  unfold Mem.store
  rcases h with h | h
  · rw [Mem.readByte_append_right, Mem.readByte_append_right]
    · exact Mem.readByte_filter (fun k => decide (k < a)) (by simpa using h)
    · intro c hc
      have := (Mem.cells_bounds hc).1
      omega
    · intro c hc
      have := (List.mem_filter.mp hc).2
      simp at this; omega
  · rw [Mem.readByte_append_left]
    · exact Mem.readByte_filter (fun k => decide (a + bs.length ≤ k)) (by simpa using h)
    · intro c hc
      rcases List.mem_append.mp hc with hc | hc
      · have := (List.mem_filter.mp hc).2
        simp at this; omega
      · have := (Mem.cells_bounds hc).2.1
        omega

/-- What a store leaves at every address. -/
theorem Mem.readByte_store (m : Mem) (a : Nat) (bs : List Byte) (x : Nat) :
    (m.store a bs).readByte x =
      if h : a ≤ x ∧ x < a + bs.length then bs[x - a]'(by omega) else m.readByte x := by
  split
  · rename_i h; exact m.readByte_store_of_mem a bs x h.1 h.2
  · exact m.readByte_store_of_not_mem a bs x (by omega)

/-- A store keeps the canonical form. -/
theorem Mem.store_wf {m : Mem} (h : m.wf = true) (a : Nat) (bs : List Byte) : (m.store a bs).wf = true := by
  rw [Mem.wf_iff] at *
  obtain ⟨hne, hp⟩ := h
  refine ⟨fun c hc => ?_, ?_⟩
  · simp only [Mem.store, List.mem_append, List.mem_filter] at hc
    rcases hc with (⟨hc, -⟩ | hc) | ⟨hc, -⟩
    · exact hne c hc
    · exact (Mem.cells_bounds hc).2.2
    · exact hne c hc
  · simp only [Mem.store, List.pairwise_append, List.mem_append, List.mem_filter, decide_eq_true_eq]
    refine ⟨⟨hp.filter _, Mem.cells_pairwise a bs, fun c hc d hd => ?_⟩, hp.filter _, ?_⟩
    · have := (Mem.cells_bounds hd).1; omega
    · rintro c (hc | hc) d hd
      · omega
      · have := (Mem.cells_bounds hc).2.1; omega

/-- A store inside the first `n` addresses keeps every listed address there. -/
theorem Mem.store_inside {m : Mem} {n : Nat} (h : m.inside n = true) {a : Nat} {bs : List Byte} (hb : a + bs.length ≤ n) :
    (m.store a bs).inside n = true := by
  rw [Mem.inside_iff] at *
  intro c hc
  simp only [Mem.store, List.mem_append, List.mem_filter] at hc
  rcases hc with (⟨hc, -⟩ | hc) | ⟨hc, -⟩
  · exact h c hc
  · have := (Mem.cells_bounds hc).2.1; omega
  · exact h c hc

/-- Two canonical memories that read alike at every address are the same data. -/
theorem Mem.eq_of_readByte_eq {m n : Mem} (hm : m.wf = true) (hn : n.wf = true)
    (h : ∀ x, m.readByte x = n.readByte x) : m = n := by
  rw [Mem.wf_iff] at hm hn
  have key : ∀ {m n : Mem}, (∀ c ∈ m, c.2 ≠ unlistedByte) → (m.Pairwise fun c d => c.1 < d.1) →
      (n.Pairwise fun c d => c.1 < d.1) → (∀ x, m.readByte x = n.readByte x) → ∀ c ∈ m, c ∈ n := by
    intro m n hm hp hq h c hc
    have hr := Mem.readByte_mem hp hc
    rw [h] at hr
    by_cases hx : ∃ d ∈ n, d.1 = c.1
    · obtain ⟨d, hd, hdc⟩ := hx
      have := Mem.readByte_mem hq hd
      rw [hdc, hr] at this
      have : d = c := Prod.ext hdc this.symm
      exact this ▸ hd
    · have := Mem.readByte_of_unlisted (m := n) (x := c.1) (fun d hd he => hx ⟨d, hd, he⟩)
      exact absurd (hr.symm.trans this) (hm c hc)
  have hirr : Std.Irrefl fun c d : Host.Cell => c.1 < d.1 := ⟨fun c => by omega⟩
  have hasymm : ∀ c d : Host.Cell, c.1 < d.1 → d.1 < c.1 → c = d := fun c d h1 h2 => by omega
  have hnd : ∀ {l : Mem}, (l.Pairwise fun c d => c.1 < d.1) → l.Nodup := fun hl =>
    hl.imp fun {c d} hcd he => by rw [he] at hcd; omega
  have hperm : m.Perm n := (List.perm_ext_iff_of_nodup (hnd hm.2) (hnd hn.2)).mpr fun c =>
    ⟨key hm.1 hm.2 hn.2 h c, key hn.1 hn.2 hm.2 (fun x => (h x).symm) c⟩
  exact hperm.eq_of_pairwise (fun c d _ _ h1 h2 => hasymm c d h1 h2) hm.2 hn.2

/-! ### Bytes, little-endian values -/

@[simp] theorem Mem.length_bytes (m : Mem) (a n : Nat) : (m.bytes a n).length = n := by
  induction n generalizing a with
  | zero => rfl
  | succ n ih => simp [Mem.bytes, ih]

theorem Mem.getElem_bytes (m : Mem) (a n i : Nat) (h : i < (m.bytes a n).length) :
    (m.bytes a n)[i] = m.readByte (a + i) := by
  induction n generalizing a i with
  | zero => simp [Mem.bytes] at h
  | succ n ih =>
    cases i with
    | zero => simp [Mem.bytes]
    | succ i => simp [Mem.bytes, ih, Nat.add_assoc, Nat.add_comm 1 i]

@[simp] theorem length_leBytes (n v : Nat) : (leBytes n v).length = n := by
  induction n generalizing v with
  | zero => rfl
  | succ n ih => simp [leBytes, ih]

/-- Byte `k` of a little-endian encoding is `(v div 2^(8k)) mod 256`. -/
theorem getElem_leBytes (n v k : Nat) (h : k < (leBytes n v).length) :
    (leBytes n v)[k] = BitVec.ofNat 8 (v / 2 ^ (8 * k)) := by
  induction n generalizing v k with
  | zero => simp [leBytes] at h
  | succ n ih =>
    cases k with
    | zero => simp [leBytes]
    | succ k =>
      simp only [leBytes, List.getElem_cons_succ, ih, Nat.div_div_eq_div_mul]
      congr 2
      rw [Nat.mul_succ, Nat.pow_add]; ring

theorem Mem.readLE_lt (m : Mem) (a n : Nat) : m.readLE a n < 256 ^ n := by
  induction n generalizing a with
  | zero => simp [Mem.readLE]
  | succ n ih =>
    have h1 := ih (a + 1)
    have h2 := byte_lt_256 (m.readByte a)
    simp only [Mem.readLE, Nat.pow_succ]
    omega

/-- A little-endian read depends on its bytes alone. -/
theorem Mem.readLE_congr {m m' : Mem} {a n : Nat} (h : ∀ k, k < n → m.readByte (a + k) = m'.readByte (a + k)) :
    m.readLE a n = m'.readLE a n := by
  induction n generalizing a with
  | zero => rfl
  | succ n ih =>
    have h0 := h 0 (by omega)
    simp only [Nat.add_zero] at h0
    simp only [Mem.readLE, h0]
    congr 2
    exact ih fun k hk => by
      have := h (k + 1) (by omega)
      rwa [Nat.add_assoc, Nat.add_comm 1 k]

/-! ### Bits -/

theorem byteSetBit_getLsbD (v : Byte) (k j : Nat) (b : Bool) (hk : k < 8) :
    (byteSetBit v k b).getLsbD j = if j = k then b else v.getLsbD j := by
  unfold byteSetBit
  cases b
  · by_cases hj : j = k
    · subst hj
      simp [hk]
    · by_cases hj8 : j < 8
      · simp only [Bool.false_eq_true, if_false, hj, BitVec.getLsbD_and, BitVec.getLsbD_not, BitVec.getLsbD_shiftLeft, hj8,
          decide_true, Bool.true_and]
        rcases Nat.lt_or_ge j k with h | h
        · simp [h]
        · have : j - k ≠ 0 := by omega
          simp [this]
      · simp [hj, BitVec.getLsbD_of_ge _ j (Nat.le_of_not_lt hj8)]
  · by_cases hj : j = k
    · subst hj
      simp [hk]
    · by_cases hj8 : j < 8
      · simp only [if_true, hj, if_false, BitVec.getLsbD_or, BitVec.getLsbD_shiftLeft, hj8, decide_true, Bool.true_and]
        rcases Nat.lt_or_ge j k with h | h
        · simp [h]
        · have : j - k ≠ 0 := by omega
          simp [this]
      · simp [hj, BitVec.getLsbD_of_ge _ j (Nat.le_of_not_lt hj8)]

/-- A bit write sets its bit and keeps every other bit of the same range (43_huffman_encode.md R293, R295). -/
theorem Mem.bit_setBit (m : Mem) (base p q : Nat) (b : Bool) :
    (m.setBit base p b).bit base q = if q = p then b else m.bit base q := by
  unfold Mem.setBit Mem.bit
  rw [Mem.readByte_store]
  by_cases h : q / 8 = p / 8
  · have hc : base + p / 8 ≤ base + q / 8 ∧
        base + q / 8 < base + p / 8 + [byteSetBit (m.readByte (base + p / 8)) (p % 8) b].length := by
      simp; omega
    rw [dif_pos hc]
    simp only [h, Nat.sub_self, List.getElem_cons_zero]
    rw [byteSetBit_getLsbD _ _ _ _ (Nat.mod_lt _ (by omega))]
    have : q % 8 = p % 8 ↔ q = p := by omega
    simp [this]
  · have hc : ¬(base + p / 8 ≤ base + q / 8 ∧
        base + q / 8 < base + p / 8 + [byteSetBit (m.readByte (base + p / 8)) (p % 8) b].length) := by
      simp; omega
    rw [dif_neg hc]
    have : q ≠ p := fun e => h (by rw [e])
    simp [this]

/-- A bit write keeps every byte but the one that holds the bit. -/
theorem Mem.readByte_setBit_of_ne (m : Mem) (base p : Nat) (b : Bool) (x : Nat) (h : x ≠ base + p / 8) :
    (m.setBit base p b).readByte x = m.readByte x := by
  unfold Mem.setBit
  exact m.readByte_store_of_not_mem _ _ _ (by simp; omega)

/-- Placed bits read back, and every other bit of the range is kept (43_huffman_encode.md R293, R295). -/
theorem Mem.bit_placeBits (m : Mem) (base q : Nat) (w : List Bool) (p : Nat) :
    (m.placeBits base q w).bit base p =
      if h : q ≤ p ∧ p < q + w.length then w[p - q]'(by omega) else m.bit base p := by
  induction w generalizing m q with
  | nil =>
    have : ¬(q ≤ p ∧ p < q + ([] : List Bool).length) := by simp
    rw [dif_neg this]; rfl
  | cons b bs ih =>
    simp only [Mem.placeBits]
    rw [ih, Mem.bit_setBit]
    by_cases hp : p = q
    · subst hp; simp
    · by_cases hin : q + 1 ≤ p ∧ p < q + 1 + bs.length
      · have hin' : q ≤ p ∧ p < q + (b :: bs).length := by simp; omega
        rw [dif_pos hin, dif_pos hin']
        have hidx : p - q = (p - (q + 1)) + 1 := by omega
        simp [hidx]
      · have hin' : ¬(q ≤ p ∧ p < q + (b :: bs).length) := by simp; omega
        rw [dif_neg hin, dif_neg hin', if_neg hp]

/-- Placed bits change no byte outside the bytes that hold them. -/
theorem Mem.readByte_placeBits (m : Mem) (base q : Nat) (c : List Bool) (x : Nat)
    (h : x < base + q / 8 ∨ base + (q + c.length + 7) / 8 ≤ x) :
    (m.placeBits base q c).readByte x = m.readByte x := by
  induction c generalizing m q with
  | nil => rfl
  | cons b bs ih =>
    simp only [Mem.placeBits]
    simp only [List.length_cons] at h
    rw [ih _ (q + 1) (by omega), Mem.readByte_setBit_of_ne _ _ _ _ _ (by omega)]

theorem Mem.setBit_wf {m : Mem} (h : m.wf = true) (base p : Nat) (b : Bool) : (m.setBit base p b).wf = true :=
  Mem.store_wf h _ _

theorem Mem.placeBits_wf {m : Mem} (h : m.wf = true) (base q : Nat) (c : List Bool) :
    (m.placeBits base q c).wf = true := by
  induction c generalizing m q with
  | nil => exact h
  | cons b bs ih => exact ih (Mem.setBit_wf h base q b) (q + 1)

theorem Mem.placeBits_inside {m : Mem} {n : Nat} (h : m.inside n = true) {base q : Nat} {c : List Bool}
    (hb : base + (q + c.length + 7) / 8 ≤ n) : (m.placeBits base q c).inside n = true := by
  induction c generalizing m q with
  | nil => exact h
  | cons b bs ih =>
    simp only [List.length_cons] at hb
    simp only [Mem.placeBits]
    refine ih (Mem.store_inside h ?_) (by omega)
    simp; omega

@[simp] theorem Mem.length_bits (m : Mem) (base q n : Nat) : (m.bits base q n).length = n := by
  induction n generalizing q with
  | zero => rfl
  | succ n ih => simp [Mem.bits, ih]

theorem Mem.getElem_bits (m : Mem) (base q n i : Nat) (h : i < (m.bits base q n).length) :
    (m.bits base q n)[i] = m.bit base (q + i) := by
  induction n generalizing q i with
  | zero => simp [Mem.bits] at h
  | succ n ih =>
    cases i with
    | zero => simp [Mem.bits]
    | succ i => simp [Mem.bits, ih, Nat.add_assoc, Nat.add_comm 1 i]

@[simp] theorem length_natToBits (n v : Nat) : (natToBits n v).length = n := by
  induction n generalizing v with
  | zero => rfl
  | succ n ih => simp [natToBits, ih]

@[simp] theorem length_freeBytes (i n : Nat) : (freeBytes i n).length = n := by simp [freeBytes]

/-! ### The 256-entry tables -/

theorem tableGet_tableSet {α : Type} (t : Vector α 256) (v w : Byte) (x : α) :
    tableGet (tableSet t v x) w = if w = v then x else tableGet t w := by
  unfold tableGet tableSet
  rw [Vector.getElem_set]
  by_cases h : w = v
  · subst h; simp
  · have : v.toNat ≠ w.toNat := fun e => h (BitVec.eq_of_toNat_eq e.symm)
    simp [h, this]

@[simp] theorem tableGet_replicate {α : Type} (x : α) (v : Byte) : tableGet (Vector.replicate 256 x) v = x := by
  simp [tableGet]

end Sys2Proof.Machine
end

