-- ==== Sys2Proof/Laws/State.lean ====
section
/-!
SUPPORT. One lemma per field per update of the state, true by rfl: what each named operation of Machine/Ops.lean writes and
what it keeps. No later proof unfolds a record update.
-/
namespace Sys2Proof.Machine

/-! ### accept -/

@[simp] theorem State.accept_status (s : State) (c : Word) :
    (s.accept c).status = { s.status with busy := true, done := false, err := false, errCode := 0, lastOp := commandOp c } := rfl
@[simp] theorem State.accept_errInfo (s : State) (c : Word) : (s.accept c).errInfo = 0 := rfl
@[simp] theorem State.accept_args (s : State) (c : Word) : (s.accept c).args = s.args := rfl
@[simp] theorem State.accept_res (s : State) (c : Word) : (s.accept c).res = s.res := rfl
@[simp] theorem State.accept_cur (s : State) (c : Word) : (s.accept c).cur = s.cur := rfl
@[simp] theorem State.accept_huf (s : State) (c : Word) : (s.accept c).huf = s.huf := rfl
@[simp] theorem State.accept_irqEn (s : State) (c : Word) : (s.accept c).irqEn = s.irqEn := rfl
@[simp] theorem State.accept_freq (s : State) (c : Word) : (s.accept c).freq = s.freq := rfl
@[simp] theorem State.accept_tree (s : State) (c : Word) : (s.accept c).tree = s.tree := rfl
@[simp] theorem State.accept_code (s : State) (c : Word) : (s.accept c).code = s.code := rfl
@[simp] theorem State.accept_pending (s : State) (c : Word) :
    (s.accept c).pending = some { word := c, args := s.args } := rfl
@[simp] theorem State.accept_buf (s : State) (c : Word) : (s.accept c).buf = s.buf := rfl
@[simp] theorem State.accept_params (s : State) (c : Word) : (s.accept c).params = s.params := rfl
@[simp] theorem State.accept_script (s : State) (c : Word) : (s.accept c).script = s.script := rfl
@[simp] theorem State.accept_response (s : State) (c : Word) : (s.accept c).response = s.response := rfl
@[simp] theorem State.accept_freeIdx (s : State) (c : Word) : (s.accept c).freeIdx = s.freeIdx := rfl

/-! ### reject -/

@[simp] theorem State.reject_status (s : State) : (s.reject).status = { s.status with rejected := true } := rfl
@[simp] theorem State.reject_errInfo (s : State) : (s.reject).errInfo = s.errInfo := rfl
@[simp] theorem State.reject_args (s : State) : (s.reject).args = s.args := rfl
@[simp] theorem State.reject_res (s : State) : (s.reject).res = s.res := rfl
@[simp] theorem State.reject_cur (s : State) : (s.reject).cur = s.cur := rfl
@[simp] theorem State.reject_huf (s : State) : (s.reject).huf = s.huf := rfl
@[simp] theorem State.reject_irqEn (s : State) : (s.reject).irqEn = s.irqEn := rfl
@[simp] theorem State.reject_freq (s : State) : (s.reject).freq = s.freq := rfl
@[simp] theorem State.reject_tree (s : State) : (s.reject).tree = s.tree := rfl
@[simp] theorem State.reject_code (s : State) : (s.reject).code = s.code := rfl
@[simp] theorem State.reject_pending (s : State) : (s.reject).pending = s.pending := rfl
@[simp] theorem State.reject_buf (s : State) : (s.reject).buf = s.buf := rfl
@[simp] theorem State.reject_params (s : State) : (s.reject).params = s.params := rfl
@[simp] theorem State.reject_script (s : State) : (s.reject).script = s.script := rfl
@[simp] theorem State.reject_response (s : State) : (s.reject).response = s.response := rfl
@[simp] theorem State.reject_freeIdx (s : State) : (s.reject).freeIdx = s.freeIdx := rfl

/-! ### complete -/

@[simp] theorem State.complete_status (s : State) (r0 r1 r2 r3 : Nat) :
    (s.complete r0 r1 r2 r3).status = { s.status with busy := false, done := true } := rfl
@[simp] theorem State.complete_errInfo (s : State) (r0 r1 r2 r3 : Nat) :
    (s.complete r0 r1 r2 r3).errInfo = s.errInfo := rfl
@[simp] theorem State.complete_args (s : State) (r0 r1 r2 r3 : Nat) : (s.complete r0 r1 r2 r3).args = s.args := rfl
@[simp] theorem State.complete_res (s : State) (r0 r1 r2 r3 : Nat) :
    (s.complete r0 r1 r2 r3).res = #v[BitVec.ofNat 32 r0, BitVec.ofNat 32 r1, BitVec.ofNat 32 r2, BitVec.ofNat 32 r3] := rfl
@[simp] theorem State.complete_cur (s : State) (r0 r1 r2 r3 : Nat) : (s.complete r0 r1 r2 r3).cur = s.cur := rfl
@[simp] theorem State.complete_huf (s : State) (r0 r1 r2 r3 : Nat) : (s.complete r0 r1 r2 r3).huf = s.huf := rfl
@[simp] theorem State.complete_irqEn (s : State) (r0 r1 r2 r3 : Nat) : (s.complete r0 r1 r2 r3).irqEn = s.irqEn := rfl
@[simp] theorem State.complete_freq (s : State) (r0 r1 r2 r3 : Nat) : (s.complete r0 r1 r2 r3).freq = s.freq := rfl
@[simp] theorem State.complete_tree (s : State) (r0 r1 r2 r3 : Nat) : (s.complete r0 r1 r2 r3).tree = s.tree := rfl
@[simp] theorem State.complete_code (s : State) (r0 r1 r2 r3 : Nat) : (s.complete r0 r1 r2 r3).code = s.code := rfl
@[simp] theorem State.complete_pending (s : State) (r0 r1 r2 r3 : Nat) :
    (s.complete r0 r1 r2 r3).pending = none := rfl
@[simp] theorem State.complete_buf (s : State) (r0 r1 r2 r3 : Nat) : (s.complete r0 r1 r2 r3).buf = s.buf := rfl
@[simp] theorem State.complete_params (s : State) (r0 r1 r2 r3 : Nat) :
    (s.complete r0 r1 r2 r3).params = s.params := rfl
@[simp] theorem State.complete_script (s : State) (r0 r1 r2 r3 : Nat) :
    (s.complete r0 r1 r2 r3).script = s.script := rfl
@[simp] theorem State.complete_response (s : State) (r0 r1 r2 r3 : Nat) :
    (s.complete r0 r1 r2 r3).response = s.response := rfl
@[simp] theorem State.complete_freeIdx (s : State) (r0 r1 r2 r3 : Nat) :
    (s.complete r0 r1 r2 r3).freeIdx = s.freeIdx := rfl

/-! ### raise -/

@[simp] theorem State.raise_status (s : State) (e : ErrCode) (n : Nat) :
    (s.raise e n).status = { s.status with busy := false, err := true, errCode := e.byte } := rfl
@[simp] theorem State.raise_errInfo (s : State) (e : ErrCode) (n : Nat) : (s.raise e n).errInfo = saturate32 n := rfl
@[simp] theorem State.raise_args (s : State) (e : ErrCode) (n : Nat) : (s.raise e n).args = s.args := rfl
@[simp] theorem State.raise_res (s : State) (e : ErrCode) (n : Nat) : (s.raise e n).res = s.res := rfl
@[simp] theorem State.raise_cur (s : State) (e : ErrCode) (n : Nat) : (s.raise e n).cur = s.cur := rfl
@[simp] theorem State.raise_huf (s : State) (e : ErrCode) (n : Nat) : (s.raise e n).huf = s.huf := rfl
@[simp] theorem State.raise_irqEn (s : State) (e : ErrCode) (n : Nat) : (s.raise e n).irqEn = s.irqEn := rfl
@[simp] theorem State.raise_freq (s : State) (e : ErrCode) (n : Nat) : (s.raise e n).freq = s.freq := rfl
@[simp] theorem State.raise_tree (s : State) (e : ErrCode) (n : Nat) : (s.raise e n).tree = s.tree := rfl
@[simp] theorem State.raise_code (s : State) (e : ErrCode) (n : Nat) : (s.raise e n).code = s.code := rfl
@[simp] theorem State.raise_pending (s : State) (e : ErrCode) (n : Nat) : (s.raise e n).pending = none := rfl
@[simp] theorem State.raise_buf (s : State) (e : ErrCode) (n : Nat) : (s.raise e n).buf = s.buf := rfl
@[simp] theorem State.raise_params (s : State) (e : ErrCode) (n : Nat) : (s.raise e n).params = s.params := rfl
@[simp] theorem State.raise_script (s : State) (e : ErrCode) (n : Nat) : (s.raise e n).script = s.script := rfl
@[simp] theorem State.raise_response (s : State) (e : ErrCode) (n : Nat) : (s.raise e n).response = s.response := rfl
@[simp] theorem State.raise_freeIdx (s : State) (e : ErrCode) (n : Nat) : (s.raise e n).freeIdx = s.freeIdx := rfl

/-! ### writeStatus -/

@[simp] theorem State.writeStatus_status (s : State) (v : Word) :
    (s.writeStatus v).status = { s.status with done := s.status.done && !v.getLsbD 1, err := s.status.err && !v.getLsbD 2, rejected := s.status.rejected && !v.getLsbD 3 } := rfl
@[simp] theorem State.writeStatus_errInfo (s : State) (v : Word) : (s.writeStatus v).errInfo = s.errInfo := rfl
@[simp] theorem State.writeStatus_args (s : State) (v : Word) : (s.writeStatus v).args = s.args := rfl
@[simp] theorem State.writeStatus_res (s : State) (v : Word) : (s.writeStatus v).res = s.res := rfl
@[simp] theorem State.writeStatus_cur (s : State) (v : Word) : (s.writeStatus v).cur = s.cur := rfl
@[simp] theorem State.writeStatus_huf (s : State) (v : Word) : (s.writeStatus v).huf = s.huf := rfl
@[simp] theorem State.writeStatus_irqEn (s : State) (v : Word) : (s.writeStatus v).irqEn = s.irqEn := rfl
@[simp] theorem State.writeStatus_freq (s : State) (v : Word) : (s.writeStatus v).freq = s.freq := rfl
@[simp] theorem State.writeStatus_tree (s : State) (v : Word) : (s.writeStatus v).tree = s.tree := rfl
@[simp] theorem State.writeStatus_code (s : State) (v : Word) : (s.writeStatus v).code = s.code := rfl
@[simp] theorem State.writeStatus_pending (s : State) (v : Word) : (s.writeStatus v).pending = s.pending := rfl
@[simp] theorem State.writeStatus_buf (s : State) (v : Word) : (s.writeStatus v).buf = s.buf := rfl
@[simp] theorem State.writeStatus_params (s : State) (v : Word) : (s.writeStatus v).params = s.params := rfl
@[simp] theorem State.writeStatus_script (s : State) (v : Word) : (s.writeStatus v).script = s.script := rfl
@[simp] theorem State.writeStatus_response (s : State) (v : Word) : (s.writeStatus v).response = s.response := rfl
@[simp] theorem State.writeStatus_freeIdx (s : State) (v : Word) : (s.writeStatus v).freeIdx = s.freeIdx := rfl

/-! ### writeArg -/

@[simp] theorem State.writeArg_status (s : State) (k : Fin 8) (v : Word) : (s.writeArg k v).status = s.status := rfl
@[simp] theorem State.writeArg_errInfo (s : State) (k : Fin 8) (v : Word) :
    (s.writeArg k v).errInfo = s.errInfo := rfl
@[simp] theorem State.writeArg_args (s : State) (k : Fin 8) (v : Word) : (s.writeArg k v).args = s.args.set k v := rfl
@[simp] theorem State.writeArg_res (s : State) (k : Fin 8) (v : Word) : (s.writeArg k v).res = s.res := rfl
@[simp] theorem State.writeArg_cur (s : State) (k : Fin 8) (v : Word) : (s.writeArg k v).cur = s.cur := rfl
@[simp] theorem State.writeArg_huf (s : State) (k : Fin 8) (v : Word) : (s.writeArg k v).huf = s.huf := rfl
@[simp] theorem State.writeArg_irqEn (s : State) (k : Fin 8) (v : Word) : (s.writeArg k v).irqEn = s.irqEn := rfl
@[simp] theorem State.writeArg_freq (s : State) (k : Fin 8) (v : Word) : (s.writeArg k v).freq = s.freq := rfl
@[simp] theorem State.writeArg_tree (s : State) (k : Fin 8) (v : Word) : (s.writeArg k v).tree = s.tree := rfl
@[simp] theorem State.writeArg_code (s : State) (k : Fin 8) (v : Word) : (s.writeArg k v).code = s.code := rfl
@[simp] theorem State.writeArg_pending (s : State) (k : Fin 8) (v : Word) :
    (s.writeArg k v).pending = s.pending := rfl
@[simp] theorem State.writeArg_buf (s : State) (k : Fin 8) (v : Word) : (s.writeArg k v).buf = s.buf := rfl
@[simp] theorem State.writeArg_params (s : State) (k : Fin 8) (v : Word) : (s.writeArg k v).params = s.params := rfl
@[simp] theorem State.writeArg_script (s : State) (k : Fin 8) (v : Word) : (s.writeArg k v).script = s.script := rfl
@[simp] theorem State.writeArg_response (s : State) (k : Fin 8) (v : Word) :
    (s.writeArg k v).response = s.response := rfl
@[simp] theorem State.writeArg_freeIdx (s : State) (k : Fin 8) (v : Word) :
    (s.writeArg k v).freeIdx = s.freeIdx := rfl

/-! ### writeIrqEn -/

@[simp] theorem State.writeIrqEn_status (s : State) (v : Word) : (s.writeIrqEn v).status = s.status := rfl
@[simp] theorem State.writeIrqEn_errInfo (s : State) (v : Word) : (s.writeIrqEn v).errInfo = s.errInfo := rfl
@[simp] theorem State.writeIrqEn_args (s : State) (v : Word) : (s.writeIrqEn v).args = s.args := rfl
@[simp] theorem State.writeIrqEn_res (s : State) (v : Word) : (s.writeIrqEn v).res = s.res := rfl
@[simp] theorem State.writeIrqEn_cur (s : State) (v : Word) : (s.writeIrqEn v).cur = s.cur := rfl
@[simp] theorem State.writeIrqEn_huf (s : State) (v : Word) : (s.writeIrqEn v).huf = s.huf := rfl
@[simp] theorem State.writeIrqEn_irqEn (s : State) (v : Word) :
    (s.writeIrqEn v).irqEn = { doneIE := v.getLsbD 0, errIE := v.getLsbD 1 } := rfl
@[simp] theorem State.writeIrqEn_freq (s : State) (v : Word) : (s.writeIrqEn v).freq = s.freq := rfl
@[simp] theorem State.writeIrqEn_tree (s : State) (v : Word) : (s.writeIrqEn v).tree = s.tree := rfl
@[simp] theorem State.writeIrqEn_code (s : State) (v : Word) : (s.writeIrqEn v).code = s.code := rfl
@[simp] theorem State.writeIrqEn_pending (s : State) (v : Word) : (s.writeIrqEn v).pending = s.pending := rfl
@[simp] theorem State.writeIrqEn_buf (s : State) (v : Word) : (s.writeIrqEn v).buf = s.buf := rfl
@[simp] theorem State.writeIrqEn_params (s : State) (v : Word) : (s.writeIrqEn v).params = s.params := rfl
@[simp] theorem State.writeIrqEn_script (s : State) (v : Word) : (s.writeIrqEn v).script = s.script := rfl
@[simp] theorem State.writeIrqEn_response (s : State) (v : Word) : (s.writeIrqEn v).response = s.response := rfl
@[simp] theorem State.writeIrqEn_freeIdx (s : State) (v : Word) : (s.writeIrqEn v).freeIdx = s.freeIdx := rfl

/-! ### setCursor -/

@[simp] theorem State.setCursor_status (s : State) (a b c : Nat) : (s.setCursor a b c).status = s.status := rfl
@[simp] theorem State.setCursor_errInfo (s : State) (a b c : Nat) : (s.setCursor a b c).errInfo = s.errInfo := rfl
@[simp] theorem State.setCursor_args (s : State) (a b c : Nat) : (s.setCursor a b c).args = s.args := rfl
@[simp] theorem State.setCursor_res (s : State) (a b c : Nat) : (s.setCursor a b c).res = s.res := rfl
@[simp] theorem State.setCursor_cur (s : State) (a b c : Nat) :
    (s.setCursor a b c).cur = { base := BitVec.ofNat 32 a, len := BitVec.ofNat 32 b, bitPos := BitVec.ofNat 32 c } := rfl
@[simp] theorem State.setCursor_huf (s : State) (a b c : Nat) : (s.setCursor a b c).huf = s.huf := rfl
@[simp] theorem State.setCursor_irqEn (s : State) (a b c : Nat) : (s.setCursor a b c).irqEn = s.irqEn := rfl
@[simp] theorem State.setCursor_freq (s : State) (a b c : Nat) : (s.setCursor a b c).freq = s.freq := rfl
@[simp] theorem State.setCursor_tree (s : State) (a b c : Nat) : (s.setCursor a b c).tree = s.tree := rfl
@[simp] theorem State.setCursor_code (s : State) (a b c : Nat) : (s.setCursor a b c).code = s.code := rfl
@[simp] theorem State.setCursor_pending (s : State) (a b c : Nat) : (s.setCursor a b c).pending = s.pending := rfl
@[simp] theorem State.setCursor_buf (s : State) (a b c : Nat) : (s.setCursor a b c).buf = s.buf := rfl
@[simp] theorem State.setCursor_params (s : State) (a b c : Nat) : (s.setCursor a b c).params = s.params := rfl
@[simp] theorem State.setCursor_script (s : State) (a b c : Nat) : (s.setCursor a b c).script = s.script := rfl
@[simp] theorem State.setCursor_response (s : State) (a b c : Nat) : (s.setCursor a b c).response = s.response := rfl
@[simp] theorem State.setCursor_freeIdx (s : State) (a b c : Nat) : (s.setCursor a b c).freeIdx = s.freeIdx := rfl

/-! ### moveCursor -/

@[simp] theorem State.moveCursor_status (s : State) (q : Nat) : (s.moveCursor q).status = s.status := rfl
@[simp] theorem State.moveCursor_errInfo (s : State) (q : Nat) : (s.moveCursor q).errInfo = s.errInfo := rfl
@[simp] theorem State.moveCursor_args (s : State) (q : Nat) : (s.moveCursor q).args = s.args := rfl
@[simp] theorem State.moveCursor_res (s : State) (q : Nat) : (s.moveCursor q).res = s.res := rfl
@[simp] theorem State.moveCursor_cur (s : State) (q : Nat) :
    (s.moveCursor q).cur = { s.cur with bitPos := BitVec.ofNat 32 q } := rfl
@[simp] theorem State.moveCursor_huf (s : State) (q : Nat) : (s.moveCursor q).huf = s.huf := rfl
@[simp] theorem State.moveCursor_irqEn (s : State) (q : Nat) : (s.moveCursor q).irqEn = s.irqEn := rfl
@[simp] theorem State.moveCursor_freq (s : State) (q : Nat) : (s.moveCursor q).freq = s.freq := rfl
@[simp] theorem State.moveCursor_tree (s : State) (q : Nat) : (s.moveCursor q).tree = s.tree := rfl
@[simp] theorem State.moveCursor_code (s : State) (q : Nat) : (s.moveCursor q).code = s.code := rfl
@[simp] theorem State.moveCursor_pending (s : State) (q : Nat) : (s.moveCursor q).pending = s.pending := rfl
@[simp] theorem State.moveCursor_buf (s : State) (q : Nat) : (s.moveCursor q).buf = s.buf := rfl
@[simp] theorem State.moveCursor_params (s : State) (q : Nat) : (s.moveCursor q).params = s.params := rfl
@[simp] theorem State.moveCursor_script (s : State) (q : Nat) : (s.moveCursor q).script = s.script := rfl
@[simp] theorem State.moveCursor_response (s : State) (q : Nat) : (s.moveCursor q).response = s.response := rfl
@[simp] theorem State.moveCursor_freeIdx (s : State) (q : Nat) : (s.moveCursor q).freeIdx = s.freeIdx := rfl

/-! ### withBuf -/

@[simp] theorem State.withBuf_status (s : State) (m : Mem) : (s.withBuf m).status = s.status := rfl
@[simp] theorem State.withBuf_errInfo (s : State) (m : Mem) : (s.withBuf m).errInfo = s.errInfo := rfl
@[simp] theorem State.withBuf_args (s : State) (m : Mem) : (s.withBuf m).args = s.args := rfl
@[simp] theorem State.withBuf_res (s : State) (m : Mem) : (s.withBuf m).res = s.res := rfl
@[simp] theorem State.withBuf_cur (s : State) (m : Mem) : (s.withBuf m).cur = s.cur := rfl
@[simp] theorem State.withBuf_huf (s : State) (m : Mem) : (s.withBuf m).huf = s.huf := rfl
@[simp] theorem State.withBuf_irqEn (s : State) (m : Mem) : (s.withBuf m).irqEn = s.irqEn := rfl
@[simp] theorem State.withBuf_freq (s : State) (m : Mem) : (s.withBuf m).freq = s.freq := rfl
@[simp] theorem State.withBuf_tree (s : State) (m : Mem) : (s.withBuf m).tree = s.tree := rfl
@[simp] theorem State.withBuf_code (s : State) (m : Mem) : (s.withBuf m).code = s.code := rfl
@[simp] theorem State.withBuf_pending (s : State) (m : Mem) : (s.withBuf m).pending = s.pending := rfl
@[simp] theorem State.withBuf_buf (s : State) (m : Mem) : (s.withBuf m).buf = m := rfl
@[simp] theorem State.withBuf_params (s : State) (m : Mem) : (s.withBuf m).params = s.params := rfl
@[simp] theorem State.withBuf_script (s : State) (m : Mem) : (s.withBuf m).script = s.script := rfl
@[simp] theorem State.withBuf_response (s : State) (m : Mem) : (s.withBuf m).response = s.response := rfl
@[simp] theorem State.withBuf_freeIdx (s : State) (m : Mem) : (s.withBuf m).freeIdx = s.freeIdx := rfl

/-! ### setFreq -/

@[simp] theorem State.setFreq_status (s : State) (f : Vector Word 256) (n : Nat) :
    (s.setFreq f n).status = s.status := rfl
@[simp] theorem State.setFreq_errInfo (s : State) (f : Vector Word 256) (n : Nat) :
    (s.setFreq f n).errInfo = s.errInfo := rfl
@[simp] theorem State.setFreq_args (s : State) (f : Vector Word 256) (n : Nat) : (s.setFreq f n).args = s.args := rfl
@[simp] theorem State.setFreq_res (s : State) (f : Vector Word 256) (n : Nat) : (s.setFreq f n).res = s.res := rfl
@[simp] theorem State.setFreq_cur (s : State) (f : Vector Word 256) (n : Nat) : (s.setFreq f n).cur = s.cur := rfl
@[simp] theorem State.setFreq_huf (s : State) (f : Vector Word 256) (n : Nat) :
    (s.setFreq f n).huf = { s.huf with total := BitVec.ofNat 32 n } := rfl
@[simp] theorem State.setFreq_irqEn (s : State) (f : Vector Word 256) (n : Nat) :
    (s.setFreq f n).irqEn = s.irqEn := rfl
@[simp] theorem State.setFreq_freq (s : State) (f : Vector Word 256) (n : Nat) : (s.setFreq f n).freq = f := rfl
@[simp] theorem State.setFreq_tree (s : State) (f : Vector Word 256) (n : Nat) : (s.setFreq f n).tree = s.tree := rfl
@[simp] theorem State.setFreq_code (s : State) (f : Vector Word 256) (n : Nat) : (s.setFreq f n).code = s.code := rfl
@[simp] theorem State.setFreq_pending (s : State) (f : Vector Word 256) (n : Nat) :
    (s.setFreq f n).pending = s.pending := rfl
@[simp] theorem State.setFreq_buf (s : State) (f : Vector Word 256) (n : Nat) : (s.setFreq f n).buf = s.buf := rfl
@[simp] theorem State.setFreq_params (s : State) (f : Vector Word 256) (n : Nat) :
    (s.setFreq f n).params = s.params := rfl
@[simp] theorem State.setFreq_script (s : State) (f : Vector Word 256) (n : Nat) :
    (s.setFreq f n).script = s.script := rfl
@[simp] theorem State.setFreq_response (s : State) (f : Vector Word 256) (n : Nat) :
    (s.setFreq f n).response = s.response := rfl
@[simp] theorem State.setFreq_freeIdx (s : State) (f : Vector Word 256) (n : Nat) :
    (s.setFreq f n).freeIdx = s.freeIdx := rfl

/-! ### installTree -/

@[simp] theorem State.installTree_status (s : State) (t : Tree) : (s.installTree t).status = s.status := rfl
@[simp] theorem State.installTree_errInfo (s : State) (t : Tree) : (s.installTree t).errInfo = s.errInfo := rfl
@[simp] theorem State.installTree_args (s : State) (t : Tree) : (s.installTree t).args = s.args := rfl
@[simp] theorem State.installTree_res (s : State) (t : Tree) : (s.installTree t).res = s.res := rfl
@[simp] theorem State.installTree_cur (s : State) (t : Tree) : (s.installTree t).cur = s.cur := rfl
@[simp] theorem State.installTree_huf (s : State) (t : Tree) :
    (s.installTree t).huf = { s.huf with treeValid := true, codesValid := false, leafRoot := t.isLeaf, nodeCount := BitVec.ofNat 9 t.size, maxLen := 0 } := rfl
@[simp] theorem State.installTree_irqEn (s : State) (t : Tree) : (s.installTree t).irqEn = s.irqEn := rfl
@[simp] theorem State.installTree_freq (s : State) (t : Tree) : (s.installTree t).freq = s.freq := rfl
@[simp] theorem State.installTree_tree (s : State) (t : Tree) : (s.installTree t).tree = t := rfl
@[simp] theorem State.installTree_code (s : State) (t : Tree) : (s.installTree t).code = s.code := rfl
@[simp] theorem State.installTree_pending (s : State) (t : Tree) : (s.installTree t).pending = s.pending := rfl
@[simp] theorem State.installTree_buf (s : State) (t : Tree) : (s.installTree t).buf = s.buf := rfl
@[simp] theorem State.installTree_params (s : State) (t : Tree) : (s.installTree t).params = s.params := rfl
@[simp] theorem State.installTree_script (s : State) (t : Tree) : (s.installTree t).script = s.script := rfl
@[simp] theorem State.installTree_response (s : State) (t : Tree) : (s.installTree t).response = s.response := rfl
@[simp] theorem State.installTree_freeIdx (s : State) (t : Tree) : (s.installTree t).freeIdx = s.freeIdx := rfl

/-! ### installCodes -/

@[simp] theorem State.installCodes_status (s : State) (c : Vector (List Bool) 256) (n : Nat) :
    (s.installCodes c n).status = s.status := rfl
@[simp] theorem State.installCodes_errInfo (s : State) (c : Vector (List Bool) 256) (n : Nat) :
    (s.installCodes c n).errInfo = s.errInfo := rfl
@[simp] theorem State.installCodes_args (s : State) (c : Vector (List Bool) 256) (n : Nat) :
    (s.installCodes c n).args = s.args := rfl
@[simp] theorem State.installCodes_res (s : State) (c : Vector (List Bool) 256) (n : Nat) :
    (s.installCodes c n).res = s.res := rfl
@[simp] theorem State.installCodes_cur (s : State) (c : Vector (List Bool) 256) (n : Nat) :
    (s.installCodes c n).cur = s.cur := rfl
@[simp] theorem State.installCodes_huf (s : State) (c : Vector (List Bool) 256) (n : Nat) :
    (s.installCodes c n).huf = { s.huf with codesValid := true, maxLen := BitVec.ofNat 32 n } := rfl
@[simp] theorem State.installCodes_irqEn (s : State) (c : Vector (List Bool) 256) (n : Nat) :
    (s.installCodes c n).irqEn = s.irqEn := rfl
@[simp] theorem State.installCodes_freq (s : State) (c : Vector (List Bool) 256) (n : Nat) :
    (s.installCodes c n).freq = s.freq := rfl
@[simp] theorem State.installCodes_tree (s : State) (c : Vector (List Bool) 256) (n : Nat) :
    (s.installCodes c n).tree = s.tree := rfl
@[simp] theorem State.installCodes_code (s : State) (c : Vector (List Bool) 256) (n : Nat) :
    (s.installCodes c n).code = c := rfl
@[simp] theorem State.installCodes_pending (s : State) (c : Vector (List Bool) 256) (n : Nat) :
    (s.installCodes c n).pending = s.pending := rfl
@[simp] theorem State.installCodes_buf (s : State) (c : Vector (List Bool) 256) (n : Nat) :
    (s.installCodes c n).buf = s.buf := rfl
@[simp] theorem State.installCodes_params (s : State) (c : Vector (List Bool) 256) (n : Nat) :
    (s.installCodes c n).params = s.params := rfl
@[simp] theorem State.installCodes_script (s : State) (c : Vector (List Bool) 256) (n : Nat) :
    (s.installCodes c n).script = s.script := rfl
@[simp] theorem State.installCodes_response (s : State) (c : Vector (List Bool) 256) (n : Nat) :
    (s.installCodes c n).response = s.response := rfl
@[simp] theorem State.installCodes_freeIdx (s : State) (c : Vector (List Bool) 256) (n : Nat) :
    (s.installCodes c n).freeIdx = s.freeIdx := rfl

/-! ### havoc -/

@[simp] theorem State.havoc_status (s : State) (b n : Nat) : (s.havoc b n).status = s.status := rfl
@[simp] theorem State.havoc_errInfo (s : State) (b n : Nat) : (s.havoc b n).errInfo = s.errInfo := rfl
@[simp] theorem State.havoc_args (s : State) (b n : Nat) : (s.havoc b n).args = s.args := rfl
@[simp] theorem State.havoc_res (s : State) (b n : Nat) : (s.havoc b n).res = s.res := rfl
@[simp] theorem State.havoc_cur (s : State) (b n : Nat) : (s.havoc b n).cur = s.cur := rfl
@[simp] theorem State.havoc_huf (s : State) (b n : Nat) : (s.havoc b n).huf = s.huf := rfl
@[simp] theorem State.havoc_irqEn (s : State) (b n : Nat) : (s.havoc b n).irqEn = s.irqEn := rfl
@[simp] theorem State.havoc_freq (s : State) (b n : Nat) : (s.havoc b n).freq = s.freq := rfl
@[simp] theorem State.havoc_tree (s : State) (b n : Nat) : (s.havoc b n).tree = s.tree := rfl
@[simp] theorem State.havoc_code (s : State) (b n : Nat) : (s.havoc b n).code = s.code := rfl
@[simp] theorem State.havoc_pending (s : State) (b n : Nat) : (s.havoc b n).pending = s.pending := rfl
@[simp] theorem State.havoc_buf (s : State) (b n : Nat) :
    (s.havoc b n).buf = s.buf.store b (freeBytes s.freeIdx n) := rfl
@[simp] theorem State.havoc_params (s : State) (b n : Nat) : (s.havoc b n).params = s.params := rfl
@[simp] theorem State.havoc_script (s : State) (b n : Nat) : (s.havoc b n).script = s.script := rfl
@[simp] theorem State.havoc_response (s : State) (b n : Nat) : (s.havoc b n).response = s.response := rfl
@[simp] theorem State.havoc_freeIdx (s : State) (b n : Nat) : (s.havoc b n).freeIdx = s.freeIdx + n := rfl

/-! ### dropEvent -/

@[simp] theorem State.dropEvent_status (s : State) : (s.dropEvent).status = s.status := rfl
@[simp] theorem State.dropEvent_errInfo (s : State) : (s.dropEvent).errInfo = s.errInfo := rfl
@[simp] theorem State.dropEvent_args (s : State) : (s.dropEvent).args = s.args := rfl
@[simp] theorem State.dropEvent_res (s : State) : (s.dropEvent).res = s.res := rfl
@[simp] theorem State.dropEvent_cur (s : State) : (s.dropEvent).cur = s.cur := rfl
@[simp] theorem State.dropEvent_huf (s : State) : (s.dropEvent).huf = s.huf := rfl
@[simp] theorem State.dropEvent_irqEn (s : State) : (s.dropEvent).irqEn = s.irqEn := rfl
@[simp] theorem State.dropEvent_freq (s : State) : (s.dropEvent).freq = s.freq := rfl
@[simp] theorem State.dropEvent_tree (s : State) : (s.dropEvent).tree = s.tree := rfl
@[simp] theorem State.dropEvent_code (s : State) : (s.dropEvent).code = s.code := rfl
@[simp] theorem State.dropEvent_pending (s : State) : (s.dropEvent).pending = s.pending := rfl
@[simp] theorem State.dropEvent_buf (s : State) : (s.dropEvent).buf = s.buf := rfl
@[simp] theorem State.dropEvent_params (s : State) : (s.dropEvent).params = s.params := rfl
@[simp] theorem State.dropEvent_script (s : State) : (s.dropEvent).script = s.script.tail := rfl
@[simp] theorem State.dropEvent_response (s : State) : (s.dropEvent).response = s.response := rfl
@[simp] theorem State.dropEvent_freeIdx (s : State) : (s.dropEvent).freeIdx = s.freeIdx := rfl

/-! ### respond -/

@[simp] theorem State.respond_status (s : State) (r : Response) : (s.respond r).status = s.status := rfl
@[simp] theorem State.respond_errInfo (s : State) (r : Response) : (s.respond r).errInfo = s.errInfo := rfl
@[simp] theorem State.respond_args (s : State) (r : Response) : (s.respond r).args = s.args := rfl
@[simp] theorem State.respond_res (s : State) (r : Response) : (s.respond r).res = s.res := rfl
@[simp] theorem State.respond_cur (s : State) (r : Response) : (s.respond r).cur = s.cur := rfl
@[simp] theorem State.respond_huf (s : State) (r : Response) : (s.respond r).huf = s.huf := rfl
@[simp] theorem State.respond_irqEn (s : State) (r : Response) : (s.respond r).irqEn = s.irqEn := rfl
@[simp] theorem State.respond_freq (s : State) (r : Response) : (s.respond r).freq = s.freq := rfl
@[simp] theorem State.respond_tree (s : State) (r : Response) : (s.respond r).tree = s.tree := rfl
@[simp] theorem State.respond_code (s : State) (r : Response) : (s.respond r).code = s.code := rfl
@[simp] theorem State.respond_pending (s : State) (r : Response) : (s.respond r).pending = s.pending := rfl
@[simp] theorem State.respond_buf (s : State) (r : Response) : (s.respond r).buf = s.buf := rfl
@[simp] theorem State.respond_params (s : State) (r : Response) : (s.respond r).params = s.params := rfl
@[simp] theorem State.respond_script (s : State) (r : Response) : (s.respond r).script = s.script := rfl
@[simp] theorem State.respond_response (s : State) (r : Response) : (s.respond r).response = r := rfl
@[simp] theorem State.respond_freeIdx (s : State) (r : Response) : (s.respond r).freeIdx = s.freeIdx := rfl

/-! ### resetRegisters -/

@[simp] theorem State.resetRegisters_status (s : State) : s.resetRegisters.status = State.reset.status := rfl
@[simp] theorem State.resetRegisters_errInfo (s : State) : s.resetRegisters.errInfo = State.reset.errInfo := rfl
@[simp] theorem State.resetRegisters_args (s : State) : s.resetRegisters.args = State.reset.args := rfl
@[simp] theorem State.resetRegisters_res (s : State) : s.resetRegisters.res = State.reset.res := rfl
@[simp] theorem State.resetRegisters_cur (s : State) : s.resetRegisters.cur = State.reset.cur := rfl
@[simp] theorem State.resetRegisters_huf (s : State) : s.resetRegisters.huf = State.reset.huf := rfl
@[simp] theorem State.resetRegisters_irqEn (s : State) : s.resetRegisters.irqEn = State.reset.irqEn := rfl
@[simp] theorem State.resetRegisters_freq (s : State) : s.resetRegisters.freq = State.reset.freq := rfl
@[simp] theorem State.resetRegisters_tree (s : State) : s.resetRegisters.tree = State.reset.tree := rfl
@[simp] theorem State.resetRegisters_code (s : State) : s.resetRegisters.code = State.reset.code := rfl
@[simp] theorem State.resetRegisters_pending (s : State) : s.resetRegisters.pending = State.reset.pending := rfl
@[simp] theorem State.resetRegisters_buf (s : State) : s.resetRegisters.buf = s.buf := rfl
@[simp] theorem State.resetRegisters_params (s : State) : s.resetRegisters.params = s.params := rfl
@[simp] theorem State.resetRegisters_script (s : State) : s.resetRegisters.script = s.script := rfl
@[simp] theorem State.resetRegisters_response (s : State) : s.resetRegisters.response = s.response := rfl
@[simp] theorem State.resetRegisters_freeIdx (s : State) : s.resetRegisters.freeIdx = s.freeIdx := rfl

/-! ### The latched operands -/

theorem State.latched_of_pending {s : State} {p : Pending} (h : s.pending = some p) : s.latched = p.args := by
  simp [State.latched, h]

theorem State.arg_of_pending {s : State} {p : Pending} (h : s.pending = some p) (k : Fin 8) :
    s.arg k = p.args[k].toNat := by
  simp [State.arg, State.latched, h]

/-- Operands depend on PENDING and the live ARG registers alone. -/
theorem State.arg_congr {s t : State} (hp : t.pending = s.pending) (ha : t.args = s.args) (k : Fin 8) :
    t.arg k = s.arg k := by
  simp only [State.arg, State.latched, hp, ha]

theorem State.arg_lt (s : State) (k : Fin 8) : s.arg k < 2 ^ 32 := (s.latched[k]).isLt

@[simp] theorem State.regionValid_iff (s : State) (b n : Nat) :
    s.regionValid b n = true ↔ b + n ≤ s.params.bufSize := by
  simp [State.regionValid]

@[simp] theorem regionsOverlap_iff (b1 n1 b2 n2 : Nat) :
    regionsOverlap b1 n1 b2 n2 = true ↔ 0 < n1 ∧ 0 < n2 ∧ b1 < b2 + n2 ∧ b2 < b1 + n1 := by
  simp [regionsOverlap, and_assoc]

end Sys2Proof.Machine
end

