-- ==== Sys2Proof/Laws/Engine.lean ====
section
/-!
SUPPORT. What the shared operations can do, said once: an engine access, a cursor read and write, the engine's step, one event,
the havoc of a list of regions and the soft reset, the decoder's fetch and walk. Later proofs cite these and do not unfold
the operations.
-/
namespace Sys2Proof.Machine

/-! ### Engine accesses and the typed cursor operations -/

theorem State.accessing_of_le {s t : State} {a n : Nat} (h : a + n ≤ s.params.bufSize) :
    s.accessing a n t = .next t := by
  simp [State.accessing, h]

theorem State.accessing_eq_next {s t u : State} {a n : Nat} :
    s.accessing a n t = .next u ↔ a + n ≤ s.params.bufSize ∧ u = t := by
  unfold State.accessing
  split <;> simp_all [eq_comm]

/-- Everything a typed cursor read can do. -/
theorem State.cursorRead_cases {s t : State} {n : Nat} (h : s.cursorRead n = .next t) :
    (s.cur.bitPos.toNat % 8 ≠ 0 ∧ t = s.raise .align s.cur.bitPos.toNat) ∨
    (s.cur.bitPos.toNat % 8 = 0 ∧ s.cur.len.toNat < s.cur.bitPos.toNat / 8 + n ∧
      t = s.raise .fmtTruncated s.cur.bitPos.toNat) ∨
    (s.cur.bitPos.toNat % 8 = 0 ∧ s.cur.bitPos.toNat / 8 + n ≤ s.cur.len.toNat ∧
      s.cursorByte + n ≤ s.params.bufSize ∧
      t = (s.moveCursor (s.cur.bitPos.toNat + 8 * n)).complete (s.buf.readLE s.cursorByte n)
        (s.cur.bitPos.toNat + 8 * n)) := by
  unfold State.cursorRead at h
  dsimp only at h
  split at h
  · rename_i h1
    exact .inl ⟨h1, by simpa using h.symm⟩
  · rename_i h1
    split at h
    · rename_i h2
      exact .inr (.inl ⟨not_not.mp h1, h2, by simpa using h.symm⟩)
    · rename_i h2
      obtain ⟨h3, h4⟩ := State.accessing_eq_next.mp h
      exact .inr (.inr ⟨not_not.mp h1, by omega, h3, h4⟩)

/-- Everything a typed cursor write can do. -/
theorem State.cursorWrite_cases {s t : State} {n : Nat} (h : s.cursorWrite n = .next t) :
    (s.cur.bitPos.toNat % 8 ≠ 0 ∧ t = s.raise .align s.cur.bitPos.toNat) ∨
    (s.cur.bitPos.toNat % 8 = 0 ∧ s.cur.len.toNat < s.cur.bitPos.toNat / 8 + n ∧
      t = s.raise .capacity s.cur.bitPos.toNat) ∨
    (s.cur.bitPos.toNat % 8 = 0 ∧ s.cur.bitPos.toNat / 8 + n ≤ s.cur.len.toNat ∧
      s.cursorByte + n ≤ s.params.bufSize ∧
      t = ((s.withBuf (s.buf.writeLE s.cursorByte n (s.arg 0))).moveCursor (s.cur.bitPos.toNat + 8 * n)).complete 0
        (s.cur.bitPos.toNat + 8 * n)) := by
  unfold State.cursorWrite at h
  dsimp only at h
  split at h
  · rename_i h1
    exact .inl ⟨h1, by simpa using h.symm⟩
  · rename_i h1
    split at h
    · rename_i h2
      exact .inr (.inl ⟨not_not.mp h1, h2, by simpa using h.symm⟩)
    · rename_i h2
      obtain ⟨h3, h4⟩ := State.accessing_eq_next.mp h
      exact .inr (.inr ⟨not_not.mp h1, by omega, h3, h4⟩)

/-! ### The engine's step and one event -/

theorem State.executePending_of_decoded {s : State} {p : Pending} {i : Instr} (hp : s.pending = some p)
    (hd : decode p.word = .ok i) : s.executePending = exec i s := by
  simp [State.executePending, hp, hd]

/-- Everything the engine's step can do. -/
theorem State.executePending_cases {s t : State} (h : s.executePending = .next t) :
    (s.pending = none ∧ t = s) ∨
    (∃ p i, s.pending = some p ∧ decode p.word = .ok i ∧ exec i s = .next t) ∨
    (∃ p e, s.pending = some p ∧ decode p.word = .error e ∧ t = s.raise .unsupported p.word.toNat) := by
  unfold State.executePending at h
  split at h
  · rename_i hp
    exact .inl ⟨hp, by simpa using h.symm⟩
  · rename_i p hp
    split at h
    · rename_i i hd
      exact .inr (.inl ⟨p, i, hp, hd, h⟩)
    · rename_i e hd
      exact .inr (.inr ⟨p, e, hp, hd, by simpa using h.symm⟩)

/-- Everything one step can do. -/
theorem step_cases {s t : State} (h : step s = .next t) :
    (s.script = [] ∧ s.executePending = .next t) ∨
    (∃ rest, s.script = .engine :: rest ∧ s.dropEvent.executePending = .next t) ∨
    (∃ rest, s.script = .powerOn :: rest ∧ t = s.dropEvent.powerOn) ∨
    (∃ a rest, s.script = .host a :: rest ∧ s.holds a = true ∧ s.executePending = .next t) ∨
    (∃ a rest, s.script = .host a :: rest ∧ s.holds a = false ∧ t = s.dropEvent.hostAccess a) := by
  unfold step State.advance at h
  split at h
  · rename_i hs; exact .inl ⟨hs, h⟩
  · rename_i rest hs; exact .inr (.inl ⟨rest, hs, h⟩)
  · rename_i rest hs; exact .inr (.inr (.inl ⟨rest, hs, by simpa using h.symm⟩))
  · rename_i a rest hs
    split at h
    · rename_i hh; exact .inr (.inr (.inr (.inl ⟨a, rest, hs, hh, h⟩)))
    · rename_i hh; exact .inr (.inr (.inr (.inr ⟨a, rest, hs, by simpa using hh, by simpa using h.symm⟩)))

/-! ### Host accesses -/

/-- Everything a host access can do: a register read, a register write, a BUF read, a BUF write, or a bus error. -/
theorem State.hostAccess_cases (s : State) (a : HostAccess) :
    (∃ addr w off, a = .read addr w ∧ targetOf s.params addr = .reg off ∧ regAccessOk off w = true ∧
      s.hostAccess a = s.regRead (regAt off)) ∨
    (∃ addr w v off, a = .write addr w v ∧ targetOf s.params addr = .reg off ∧ regAccessOk off w = true ∧
      s.hostAccess a = (s.regWrite v (regAt off)).respond .written) ∨
    (∃ addr w b, a = .read addr w ∧ targetOf s.params addr = .buf b ∧ bufAccessOk s.params b w = true ∧
      s.hostAccess a = s.respond (.data (BitVec.ofNat 32 (s.buf.readLE b w.bytes)))) ∨
    (∃ addr w v b, a = .write addr w v ∧ targetOf s.params addr = .buf b ∧ bufAccessOk s.params b w = true ∧
      s.hostAccess a = (s.withBuf (s.buf.writeLE b w.bytes v.toNat)).respond .written) ∨
    s.hostAccess a = s.respond .busError := by
  cases a with
  | read addr w =>
    cases ht : targetOf s.params addr with
    | reg off =>
      cases hok : regAccessOk off w with
      | true => exact .inl ⟨addr, w, off, rfl, ht, hok, by simp [State.hostAccess, ht, hok]⟩
      | false => exact .inr (.inr (.inr (.inr (by simp [State.hostAccess, ht, hok]))))
    | buf b =>
      cases hok : bufAccessOk s.params b w with
      | true => exact .inr (.inr (.inl ⟨addr, w, b, rfl, ht, hok, by simp [State.hostAccess, ht, hok]⟩))
      | false => exact .inr (.inr (.inr (.inr (by simp [State.hostAccess, ht, hok]))))
    | nothing => exact .inr (.inr (.inr (.inr (by simp [State.hostAccess, ht]))))
  | write addr w v =>
    cases ht : targetOf s.params addr with
    | reg off =>
      cases hok : regAccessOk off w with
      | true => exact .inr (.inl ⟨addr, w, v, off, rfl, ht, hok, by simp [State.hostAccess, ht, hok]⟩)
      | false => exact .inr (.inr (.inr (.inr (by simp [State.hostAccess, ht, hok]))))
    | buf b =>
      cases hok : bufAccessOk s.params b w with
      | true => exact .inr (.inr (.inr (.inl ⟨addr, w, v, b, rfl, ht, hok, by simp [State.hostAccess, ht, hok]⟩)))
      | false => exact .inr (.inr (.inr (.inr (by simp [State.hostAccess, ht, hok]))))
    | nothing => exact .inr (.inr (.inr (.inr (by simp [State.hostAccess, ht]))))

/-! ### Unspecified bytes and the soft reset -/

theorem State.havocInside_params (s : State) (b n : Nat) : (s.havocInside b n).params = s.params := rfl

/-- Everything `havocAll` keeps: all but BUF and the count of free values. -/
theorem State.havocAll_kept (l : List (Nat × Nat)) (s : State) :
    s.havocAll l = { s with buf := (s.havocAll l).buf, freeIdx := (s.havocAll l).freeIdx } := by
  induction l generalizing s with
  | nil => rfl
  | cons r rest ih => exact ih (s.havocInside r.1 r.2)

theorem State.havocAll_params (l : List (Nat × Nat)) (s : State) : (s.havocAll l).params = s.params := by
  rw [State.havocAll_kept]

theorem State.havocAll_script (l : List (Nat × Nat)) (s : State) : (s.havocAll l).script = s.script := by
  rw [State.havocAll_kept]

theorem State.havocAll_response (l : List (Nat × Nat)) (s : State) : (s.havocAll l).response = s.response := by
  rw [State.havocAll_kept]

theorem State.havocAll_wf {l : List (Nat × Nat)} {s : State} (h : s.buf.wf = true) : (s.havocAll l).buf.wf = true := by
  induction l generalizing s with
  | nil => exact h
  | cons r rest ih => exact ih (Mem.store_wf h _ _)

theorem Mem.store_nil {m : Mem} (hw : m.wf = true) (a : Nat) : m.store a [] = m :=
  Mem.eq_of_readByte_eq (Mem.store_wf hw a []) hw fun x => m.readByte_store_of_not_mem a [] x (by simp; omega)

theorem State.havocAll_inside {l : List (Nat × Nat)} {s : State} (hw : s.buf.wf = true)
    (h : s.buf.inside s.params.bufSize = true) : (s.havocAll l).buf.inside s.params.bufSize = true := by
  induction l generalizing s with
  | nil => exact h
  | cons r rest ih =>
    obtain ⟨b, n⟩ := r
    refine ih (s := s.havocInside b n) (Mem.store_wf hw _ _) ?_
    rcases Nat.lt_or_ge b s.params.bufSize with hb | hb
    · exact Mem.store_inside h (by simp; omega)
    · have h0 : min n (s.params.bufSize - b) = 0 := by omega
      simp only [State.havocInside, State.havoc_buf, h0, freeBytes, List.range_zero, List.map_nil,
        Mem.store_nil hw]
      exact h

/-- A byte outside every region of the list is kept. -/
theorem State.havocAll_readByte {l : List (Nat × Nat)} {s : State} {x : Nat}
    (h : ∀ r ∈ l, x < r.1 ∨ r.1 + r.2 ≤ x) : (s.havocAll l).buf.readByte x = s.buf.readByte x := by
  induction l generalizing s with
  | nil => rfl
  | cons r rest ih =>
    obtain ⟨b, n⟩ := r
    have h0 := h (b, n) (by simp)
    simp only [State.havocAll]
    rw [ih fun r hr => h r (by simp [hr])]
    exact s.buf.readByte_store_of_not_mem _ _ _ (by simp; omega)

/-! ### The decoder -/

/-- Everything a fetch can do (42_huffman_decode.md R271). -/
theorem fetchBit_ok {m : Mem} {d : DecodeSource} {p : Nat} {b : Bool} (h : fetchBit m d p = .ok b) :
    2 * (p / 16) + 2 ≤ d.blobLen ∧ b = m.wordBit d.blob p := by
  unfold fetchBit at h
  split at h
  · simp at h
  · rename_i h1
    exact ⟨by omega, by simpa using h.symm⟩

theorem fetchBit_of_le {m : Mem} {d : DecodeSource} {p : Nat} (h : 2 * (p / 16) + 2 ≤ d.blobLen) :
    fetchBit m d p = .ok (m.wordBit d.blob p) := by
  unfold fetchBit
  rw [if_neg (by omega)]

/-- Everything one decode of `nsym` symbols can do: it gives two values per symbol (42_huffman_decode.md R270, R274). -/
theorem decodeCore_length {m : Mem} {d : DecodeSource} {nsym p : Nat} {out : List Byte} {q : Nat}
    (h : decodeCore m d nsym p = .ok (out, q)) : out.length = 2 * nsym := by
  induction nsym generalizing p out q with
  | zero => simp [decodeCore] at h; simp [h.1]
  | succ n ih =>
    unfold decodeCore at h
    split at h
    · simp at h
    · split at h
      · simp at h
      · rename_i hc
        simp only [Except.ok.injEq, Prod.mk.injEq] at h
        rw [← h.1, List.length_append, ih hc]
        simp [nibbles]; omega

theorem packPixels_length : ∀ l : List Byte, (packPixels l).length = l.length / 2
  | [] => rfl
  | [_] => by simp [packPixels]
  | _ :: _ :: rest => by
    simp only [packPixels, List.length_cons, packPixels_length rest]; omega

@[simp] theorem serializeFrom_length (i : Nat) (t : Tree) : (serializeFrom i t).length = 6 * t.size := by
  induction t generalizing i with
  | leaf s => rfl
  | node l r ihl ihr => simp [serializeFrom, Tree.size, ihl, ihr]; omega

@[simp] theorem dumpEntry_length (c : List Bool) : (dumpEntry c).length = 36 := by simp [dumpEntry]

theorem length_flatMap_dumpEntry (l : List (List Bool)) : (l.flatMap dumpEntry).length = 36 * l.length := by
  induction l with
  | nil => rfl
  | cons c rest ih => simp only [List.flatMap_cons, List.length_append, ih, dumpEntry_length, List.length_cons]; omega

theorem dumpCodes_length (c : Vector (List Bool) 256) : (dumpCodes c).length = 9216 := by
  unfold dumpCodes
  rw [length_flatMap_dumpEntry, Vector.length_toList]

end Sys2Proof.Machine
end

