-- ==== Sys2Proof/Laws/PerInstr.lean ====
section
/-!
SUPPORT. Facts stated for every instruction as syntax, one lemma per constructor of `Instr`.
-/
namespace Sys2Proof.Laws

/-- The encoder writes a defined command word (30_encoding.md R143): bits 31:8 zero, the row's opcode in bits 7:0 (R140). -/
def CommandWord.Statement (i : Instr) : Prop :=
  commandWordDefined (encode i) = true ∧ commandZero (encode i) = 0 ∧ commandOp (encode i) = opcode i

theorem CommandWord.nop : CommandWord.Statement .nop := by unfold CommandWord.Statement; decide

theorem CommandWord.curSet : CommandWord.Statement .curSet := by unfold CommandWord.Statement; decide

theorem CommandWord.curRd8 : CommandWord.Statement .curRd8 := by unfold CommandWord.Statement; decide

theorem CommandWord.curRd16 : CommandWord.Statement .curRd16 := by unfold CommandWord.Statement; decide

theorem CommandWord.curRd32 : CommandWord.Statement .curRd32 := by unfold CommandWord.Statement; decide

theorem CommandWord.curWr8 : CommandWord.Statement .curWr8 := by unfold CommandWord.Statement; decide

theorem CommandWord.curWr16 : CommandWord.Statement .curWr16 := by unfold CommandWord.Statement; decide

theorem CommandWord.curWr32 : CommandWord.Statement .curWr32 := by unfold CommandWord.Statement; decide

theorem CommandWord.curSkip : CommandWord.Statement .curSkip := by unfold CommandWord.Statement; decide

theorem CommandWord.curRdBits : CommandWord.Statement .curRdBits := by unfold CommandWord.Statement; decide

theorem CommandWord.curWrBits : CommandWord.Statement .curWrBits := by unfold CommandWord.Statement; decide

theorem CommandWord.hufFreqClear : CommandWord.Statement .hufFreqClear := by unfold CommandWord.Statement; decide

theorem CommandWord.hufFreqAdd : CommandWord.Statement .hufFreqAdd := by unfold CommandWord.Statement; decide

theorem CommandWord.hufBuild : CommandWord.Statement .hufBuild := by unfold CommandWord.Statement; decide

theorem CommandWord.hufBuildFrom : CommandWord.Statement .hufBuildFrom := by unfold CommandWord.Statement; decide

theorem CommandWord.hufDerive : CommandWord.Statement .hufDerive := by unfold CommandWord.Statement; decide

theorem CommandWord.hufSerialize : CommandWord.Statement .hufSerialize := by unfold CommandWord.Statement; decide

theorem CommandWord.hufDumpCodes : CommandWord.Statement .hufDumpCodes := by unfold CommandWord.Statement; decide

theorem CommandWord.hufDecode : CommandWord.Statement .hufDecode := by unfold CommandWord.Statement; decide

theorem CommandWord.hufPack : CommandWord.Statement .hufPack := by unfold CommandWord.Statement; decide

theorem CommandWord.hufEncode : CommandWord.Statement .hufEncode := by unfold CommandWord.Statement; decide

theorem CommandWord.hufCompress : CommandWord.Statement .hufCompress := by unfold CommandWord.Statement; decide

theorem CommandWord.fcpParse : CommandWord.Statement .fcpParse := by unfold CommandWord.Statement; decide

end Sys2Proof.Laws
end

