-- ==== Sys2Proof/Tests/Slice0.lean ====
section
/-!
SUPPORT. The model's own tests. Expected values are the worked examples of the rules named in each comment, or hand
calculation from them. `test_` theorems run one step; `witness_` theorems meet the hypotheses of the statement they name, clause
by clause, at a boundary value.
-/
namespace Sys2Proof.Tests
open Sys2Proof Sys2Proof.Machine

-- One theorem at a time: each checks a closed fact in the kernel, and many at once would each hold a thread.
set_option Elab.async false

/-! ### Small states -/

/-- Eight operands, zero where the list ends. -/
def operands (l : List Nat) : Vector Word 8 :=
  #v[BitVec.ofNat 32 (l.getD 0 0), BitVec.ofNat 32 (l.getD 1 0), BitVec.ofNat 32 (l.getD 2 0), BitVec.ofNat 32 (l.getD 3 0),
    BitVec.ofNat 32 (l.getD 4 0), BitVec.ofNat 32 (l.getD 5 0), BitVec.ofNat 32 (l.getD 6 0), BitVec.ofNat 32 (l.getD 7 0)]

/-- BUF with each list of bytes stored at its address. -/
def bufOf (l : List (Nat × List Byte)) : Mem := l.foldl (fun m p => m.store p.1 p.2) []

/-- A 4096-byte block with the command `i` accepted. -/
def running (i : Instr) (args : List Nat) (content : List (Nat × List Byte) := []) : State :=
  { State.reset with
    params := { bufSize := 4096, hdrSizeRejects := [] }
    pending := some { word := encode i, args := operands args }
    status := { busy := true, done := false, err := false, rejected := false, errCode := 0, lastOp := opcode i }
    buf := bufOf content }

/-- The cursor placed. -/
def atCursor (s : State) (base len bitPos : Word) : State := { s with cur := { base := base, len := len, bitPos := bitPos } }

/-- The tree of 41_huffman_build.md R238's example. -/
def exampleTree : Sys2Proof.Tree := .node (.leaf 0x11) (.node (.leaf 0x33) (.leaf 0x22))

/-- The block with that tree built, and its codewords derived if `codes`. -/
def withTree (s : State) (codes : Bool) : State :=
  { s with
    tree := exampleTree
    code := if codes then deriveCodes exampleTree else s.code
    huf :=
      { treeValid := true, codesValid := codes, leafRoot := false, nodeCount := 5, total := 0
        maxLen := if codes then 2 else 0 } }

/-- The packed symbols of 41_huffman_build.md R232's example. -/
def sixSymbols : List Byte := [0x11, 0x11, 0x11, 0x22, 0x22, 0x33]

/-- Whether the outcome is a next state that satisfies a test. -/
def nextWith (o : Host.Outcome State Fault Refusal) (p : State → Bool) : Bool :=
  match o with
  | .next t => p t
  | .fault _ => false
  | .refused _ => false

/-- The next state, if there is one. -/
def stateAfter (o : Host.Outcome State Fault Refusal) : State :=
  match o with
  | .next t => t
  | .fault _ => State.reset
  | .refused _ => State.reset

theorem eq_next_stateAfter {o : Host.Outcome State Fault Refusal} (h : nextWith o (fun _ => true) = true) :
    o = .next (stateAfter o) := by
  cases o with
  | next t => rfl
  | fault r => simp [nextWith] at h
  | refused r => simp [nextWith] at h

/-- Whether the outcome is an error completion with this code and information. -/
def failsWith (o : Host.Outcome State Fault Refusal) (code info : Nat) : Bool :=
  nextWith o fun t => t.status.err && !t.status.busy && t.status.errCode.toNat == code && t.errInfo.toNat == info

/-- Whether the outcome is a completion without error with these RES values. -/
def completesWith (o : Host.Outcome State Fault Refusal) (r0 r1 r2 r3 : Nat) (p : State → Bool := fun _ => true) : Bool :=
  nextWith o fun t =>
    t.status.done && !t.status.busy && t.res.toList.map BitVec.toNat == [r0, r1, r2, r3] && p t

/-! ### Decoding: words written out from 30_encoding.md R142, op in bits 7:0 and zero in bits 31:8 -/

theorem test_decode_nop_and_cursor :
    decode 0b00000000_00000000_00000000_00000000#32 = .ok .nop ∧
    decode 0b00000000_00000000_00000000_00010000#32 = .ok .curSet ∧
    decode 0b00000000_00000000_00000000_00010001#32 = .ok .curRd8 ∧
    decode 0b00000000_00000000_00000000_00010010#32 = .ok .curRd16 ∧
    decode 0b00000000_00000000_00000000_00010011#32 = .ok .curRd32 ∧
    decode 0b00000000_00000000_00000000_00010100#32 = .ok .curWr8 ∧
    decode 0b00000000_00000000_00000000_00010101#32 = .ok .curWr16 ∧
    decode 0b00000000_00000000_00000000_00010110#32 = .ok .curWr32 ∧
    decode 0b00000000_00000000_00000000_00010111#32 = .ok .curSkip ∧
    decode 0b00000000_00000000_00000000_00011000#32 = .ok .curRdBits ∧
    decode 0b00000000_00000000_00000000_00011001#32 = .ok .curWrBits := by decide

theorem test_decode_builder :
    decode 0b00000000_00000000_00000000_00100000#32 = .ok .hufFreqClear ∧
    decode 0b00000000_00000000_00000000_00100001#32 = .ok .hufFreqAdd ∧
    decode 0b00000000_00000000_00000000_00100010#32 = .ok .hufBuild ∧
    decode 0b00000000_00000000_00000000_00100011#32 = .ok .hufBuildFrom ∧
    decode 0b00000000_00000000_00000000_00100100#32 = .ok .hufDerive ∧
    decode 0b00000000_00000000_00000000_00100101#32 = .ok .hufSerialize ∧
    decode 0b00000000_00000000_00000000_00100110#32 = .ok .hufDumpCodes := by decide

theorem test_decode_codec_and_parser :
    decode 0b00000000_00000000_00000000_00101000#32 = .ok .hufDecode ∧
    decode 0b00000000_00000000_00000000_00110000#32 = .ok .hufPack ∧
    decode 0b00000000_00000000_00000000_00110001#32 = .ok .hufEncode ∧
    decode 0b00000000_00000000_00000000_00110010#32 = .ok .hufCompress ∧
    decode 0b00000000_00000000_00000000_01000000#32 = .ok .fcpParse := by decide

/-- Reserved words of 95_test_vectors.md RSV1 to RSV5 (R143). -/
theorem test_decode_reserved :
    decode 0x00000001 = .error (.reservedOpcode 0x01) ∧ decode 0x00000122 = .error (.zeroFieldNotZero 0x122) ∧
    decode 0x00000027 = .error (.reservedOpcode 0x27) ∧ decode 0x80000010 = .error (.zeroFieldNotZero 0x80000010) ∧
    decode 0x000000FF = .error (.reservedOpcode 0xFF) := by decide

theorem test_decodeTableWord :
    decodeTableWord 32 0x28 = some .hufDecode ∧ decodeTableWord 8 0x40 = some .fcpParse ∧ decodeTableWord 32 0x27 = none ∧
    decodeTableWord 32 (2 ^ 32) = none := by decide

/-! ### WellFormed refuses ill-formed terms -/

theorem test_wf_refuses_nonzero_high_bits : commandWordDefined 0x122 = false := by decide

theorem test_wf_refuses_reserved_opcode : commandWordDefined 0x27 = false := by decide

theorem test_wf_accepts_last_opcode : commandWordDefined 0x40 = true := by decide

theorem test_wf_refuses_small_buffer : Params.wf { bufSize := 4095, hdrSizeRejects := [] } = false := by decide

theorem test_wf_refuses_large_buffer : Params.wf { bufSize := 2 ^ 24 + 1, hdrSizeRejects := [] } = false := by decide

theorem test_wf_refuses_repeated_leaf : Sys2Proof.Tree.wf (.node (.leaf 7) (.leaf 7)) = false := by decide

/-! ### From reset, as the host asks -/

theorem test_fetched_word_runs_first :
    nextWith (step (State.reset.withFetchWord 32 0x10)) (fun t => t.status.toWord == 0x00100002) = true := by
  decide +kernel

theorem test_fetched_reserved_word_fails :
    failsWith (step (State.reset.withFetchWord 32 0x27)) 0x1F 0x27 = true := by decide +kernel

/-! ### One step per command -/

/-- R201: NOP leaves STATUS = 0x0000_0002. -/
theorem test_nop :
    completesWith (exec .nop (running .nop [])) 0 0 0 0 (fun t => t.status.toWord == 0x00000002) = true := by
  decide +kernel

/-- R203's example, and vector CUR13. -/
theorem test_curSet :
    completesWith (exec .curSet (running .curSet [0x100, 4, 0])) 0 0 0 0
      (fun t => t.cur == { base := 0x100, len := 4, bitPos := 0 }) = true := by decide +kernel

theorem test_curSet_beyond_end : failsWith (exec .curSet (running .curSet [0x100, 4, 33])) 0x13 2 = true := by
  decide +kernel

/-- The bytes of R204's example. -/
def fourBytes : List (Nat × List Byte) := [(0x100, [0x34, 0x12, 0x78, 0x56])]

theorem test_curRd8 :
    completesWith (exec .curRd8 (atCursor (running .curRd8 [] fourBytes) 0x100 4 0)) 0x34 8 0 0 (fun t => t.cur.bitPos == 8)
      = true := by decide +kernel

/-- R205's example; an odd byte address is legal: bytes 12 78. -/
theorem test_curRd16 :
    completesWith (exec .curRd16 (atCursor (running .curRd16 [] fourBytes) 0x100 4 0)) 0x1234 16 0 0 = true := by
  decide +kernel

theorem test_curRd16_odd :
    completesWith (exec .curRd16 (atCursor (running .curRd16 [] fourBytes) 0x100 4 8)) 0x7812 24 0 0 = true := by
  decide +kernel

/-- R206's example. -/
theorem test_curRd32 :
    completesWith (exec .curRd32 (atCursor (running .curRd32 [] fourBytes) 0x100 4 0)) 0x56781234 32 0 0 = true := by
  decide +kernel

/-- R207's example: the byte 0xAB of ARG0 = 0x1AB. -/
theorem test_curWr8 :
    completesWith (exec .curWr8 (atCursor (running .curWr8 [0x1AB]) 0x220 6 0)) 0 8 0 0
      (fun t => t.buf.bytes 0x220 2 == [0xAB, 0]) = true := by decide +kernel

/-- R208's example: bytes EF BE. -/
theorem test_curWr16 :
    completesWith (exec .curWr16 (atCursor (running .curWr16 [0xBEEF]) 0x220 6 8)) 0 24 0 0
      (fun t => t.buf.bytes 0x220 4 == [0, 0xEF, 0xBE, 0]) = true := by decide +kernel

/-- R209's example: bytes FE FF FF FF. -/
theorem test_curWr32 :
    completesWith (exec .curWr32 (atCursor (running .curWr32 [0xFFFFFFFE]) 0x220 6 8)) 0 40 0 0
      (fun t => t.buf.bytes 0x220 6 == [0, 0xFE, 0xFF, 0xFF, 0xFF, 0]) = true := by decide +kernel

/-- R210's example: 4 of 4 bytes, then 5. -/
theorem test_curSkip :
    completesWith (exec .curSkip (atCursor (running .curSkip [4]) 0x100 4 0)) 0 32 0 0 = true := by decide +kernel

theorem test_curSkip_too_far : failsWith (exec .curSkip (atCursor (running .curSkip [5]) 0x100 4 0)) 0x01 0 = true := by
  decide +kernel

/-- R211's example: bits 0, 0, 1 of 0xB4. -/
theorem test_curRdBits :
    completesWith (exec .curRdBits (atCursor (running .curRdBits [3] [(0x100, [0xB4])]) 0x100 4 0)) 4 3 0 0 = true := by
  decide +kernel

/-- R212's example: 0xFF becomes 0xEB. -/
theorem test_curWrBits :
    completesWith (exec .curWrBits (atCursor (running .curWrBits [3, 2] [(0x100, [0xFF])]) 0x100 4 2)) 0 5 0 0
      (fun t => t.buf.bytes 0x100 1 == [0xEB]) = true := by decide +kernel

/-- A table with the counts of R232's example. -/
def exampleFreq : Vector Word 256 := countSymbols (Vector.replicate 256 0) sixSymbols

/-- R231's example. -/
theorem test_hufFreqClear :
    completesWith (exec .hufFreqClear { running .hufFreqClear [] with freq := exampleFreq }) 0 0 0 0
      (fun t => tableGet t.freq 0x11 == 0 && t.huf.total == 0) = true := by decide +kernel

/-- R232's example. -/
theorem test_hufFreqAdd :
    completesWith (exec .hufFreqAdd (running .hufFreqAdd [0x200, 6] [(0x200, sixSymbols)])) 6 0 0 0
      (fun t =>
        tableGet t.freq 0x11 == 3 && tableGet t.freq 0x22 == 2 && tableGet t.freq 0x33 == 1 && t.huf.total == 6) = true := by
  decide +kernel

/-- R238's example. -/
theorem test_hufBuild :
    completesWith (exec .hufBuild { running .hufBuild [] with freq := exampleFreq }) 5 3 0 0
      (fun t => t.tree == exampleTree && t.huf.stateWord == 0x00050001) = true := by decide +kernel

/-- R239's example: four bytes 33. -/
theorem test_hufBuildFrom :
    completesWith (exec .hufBuildFrom (running .hufBuildFrom [0x300, 4] [(0x300, [0x33, 0x33, 0x33, 0x33])])) 1 1 0 0
      (fun t => t.tree == .leaf 0x33 && t.huf.leafRoot) = true := by decide +kernel

/-- R244's example: 0x11 = 0, 0x33 = 10, 0x22 = 11. -/
theorem test_hufDerive :
    completesWith (exec .hufDerive (withTree (running .hufDerive []) false)) 3 2 0 0
      (fun t =>
        tableGet t.code 0x11 == [false] && tableGet t.code 0x33 == [true, false] && tableGet t.code 0x22 == [true, true] &&
          t.huf.maxLen == 2) = true := by decide +kernel

/-- The 30 bytes of R247's example. -/
def exampleRecords : List Byte :=
  [0x01, 0, 0x02, 0, 0, 0, 0, 0, 0x11, 0, 0, 0, 0x03, 0, 0x04, 0, 0, 0, 0, 0, 0x33, 0, 0, 0, 0, 0, 0x22, 0, 0, 0]

theorem test_hufSerialize :
    completesWith (exec .hufSerialize (withTree (running .hufSerialize [0x400, 64]) false)) 30 5 0 0
      (fun t => t.buf.bytes 0x400 30 == exampleRecords) = true := by decide +kernel

/-- R250's example: the entry of 0x22 is 02 00 00 00 03. The dump needs 9216 bytes, so BUF is larger here. -/
theorem test_hufDumpCodes :
    completesWith
      (exec .hufDumpCodes
        { withTree (running .hufDumpCodes [0, 9216]) true with params := { bufSize := 9216, hdrSizeRejects := [] } })
      9216 0 0 0 (fun t => t.buf.bytes (36 * 0x22) 6 == [2, 0, 0, 0, 3, 0]) = true := by decide +kernel

/-- A HUF_DECODE of R277's example. -/
def decodeExample : State :=
  running .hufDecode [0x400, 30, 0x500, 2, 0, 6, 0x600] [(0x400, exampleRecords), (0x500, [0xF8])]

theorem test_hufDecode :
    completesWith (exec .hufDecode decodeExample) 9 12 0 0
      (fun t => t.buf.bytes 0x600 12 == [1, 1, 1, 1, 1, 1, 2, 2, 2, 2, 3, 3]) = true := by decide +kernel

/-- R271: a blob of one byte holds no whole word. -/
theorem test_hufDecode_short_blob :
    failsWith (exec .hufDecode (running .hufDecode [0x400, 30, 0x500, 1, 0, 6, 0x600] [(0x400, exampleRecords)])) 0x04 0
      = true := by decide +kernel

/-- R296's examples: 01 01 02 03 pack to 11 32; 01 10 has a bad pixel at index 1. -/
theorem test_hufPack :
    completesWith (exec .hufPack (running .hufPack [0x100, 4, 0x200] [(0x100, [1, 1, 2, 3])])) 2 0 0 0
      (fun t => t.buf.bytes 0x200 2 == [0x11, 0x32]) = true := by decide +kernel

theorem test_hufPack_bad_pixel :
    failsWith (exec .hufPack (running .hufPack [0x100, 2, 0x200] [(0x100, [0x01, 0x10])])) 0x06 1 = true := by
  decide +kernel

/-- R297's examples. -/
theorem test_hufEncode :
    completesWith (exec .hufEncode (withTree (running .hufEncode [0x200, 6, 0x500, 16, 0] [(0x200, sixSymbols)]) true))
      9 2 9 0 (fun t => t.buf.bytes 0x500 2 == [0xF8, 0x00]) = true := by decide +kernel

theorem test_hufEncode_keeps_lower_bits :
    completesWith
      (exec .hufEncode
        (withTree (running .hufEncode [0x200, 1, 0x500, 16, 5] [(0x200, sixSymbols), (0x500, [0xFF, 0xFF])]) true))
      6 2 1 0 (fun t => t.buf.bytes 0x500 2 == [0x1F, 0x00]) = true := by decide +kernel

/-- R298's example: CODE with 0x32 = 0 and 0x11 = 1. -/
theorem test_hufCompress :
    completesWith
      (exec .hufCompress
        { withTree (running .hufCompress [0x100, 2, 2, 0x200, 2, 0x300] [(0x100, [0x11, 0x32, 0x11, 0x11])]) true with
          code := deriveCodes (.node (.leaf 0x32) (.leaf 0x11)) })
      4 2 8 0
      (fun t => t.buf.bytes 0x200 2 == [0x0D, 0x00] && t.buf.bytes 0x300 8 == [0, 0, 0, 0, 2, 0, 0, 0]) = true := by
  decide +kernel

/-- A 156-byte container of one 2 × 1 glyph, written out from 30_encoding.md R168 to R177: colour 0 is (1, 2, 3), bearingX 1
and advance 7, the tree a single leaf 0x21. -/
def smallContainer : List Byte :=
  [0x20, 0, 0, 0] ++ List.replicate 10 0 ++ [1, 0, 2, 0, 1, 0, 2, 0, 1, 0] ++ List.replicate 8 0 ++ [1, 2, 3, 0xFF] ++
    List.replicate 60 0 ++ [2, 0, 0, 0, 1, 7] ++ List.replicate 8 0 ++
    [0, 0, 0, 0, 8, 0, 0, 0, 2, 0, 0, 0, 1, 0, 0, 0, 1, 0, 0, 0, 1, 0, 0, 0, 4, 0, 0, 0, 1, 0, 0, 0] ++ [0, 0] ++
    [0, 0, 0x21, 0, 0, 0] ++ [0, 0, 0, 0] ++ [0, 0]

/-- An FCP_PARSE of it. -/
def parseExample : State := running .fcpParse [0x100, 156, 0x400, 66] [(0x100, smallContainer)]

/-- R322, R330, R331: width 7 − 1 = 6, pixels 1 and 2 (low nibble first). -/
theorem test_fcpParse :
    completesWith (exec .fcpParse parseExample) 1 1 66 156
      (fun t =>
        t.buf.bytes 0x400 11 == [1, 0, 2, 0, 1, 0, 1, 0, 1, 2, 3] &&
          t.buf.bytes (0x400 + 56) 10 == [0x20, 0, 0, 0, 1, 7, 6, 0, 1, 2]) = true := by decide +kernel

/-- Vector FCP31's condition: one byte less capacity than the image needs. -/
theorem test_fcpParse_capacity :
    failsWith (exec .fcpParse (running .fcpParse [0x100, 156, 0x400, 65] [(0x100, smallContainer)])) 0x12 66 = true := by
  decide +kernel

/-! ### One step of the host port -/

/-- R51 and R39: a CMD write while BUSY = 1 sets REJECTED alone. -/
theorem test_cmd_rejected :
    nextWith (step { running .nop [] with script := [cmdLine 0x10] })
      (fun t => t.status.rejected && t.status.busy && t.pending == some { word := 0, args := operands [] }) = true := by
  decide +kernel

/-- R107: the bytes of a 4-byte write. -/
theorem test_buf_write :
    nextWith (step { State.reset with script := [.host (.write 0x01000010 .word 0x12345678)] })
      (fun t => t.buf.bytes 0x10 4 == [0x78, 0x56, 0x34, 0x12]) = true := by decide +kernel

/-- R105: a misaligned access is a bus error. -/
theorem test_misaligned_bus_error :
    nextWith (step { State.reset with script := [.host (.read 0x01000011 .half)] }) (fun t => t.response == .busError)
      = true := by decide +kernel

/-- R412: a soft reset of a running NOP leaves BUSY = 0 and no report. -/
theorem test_soft_reset :
    nextWith (step { running .nop [] with script := [ctrlLine 1] })
      (fun t => t.status == State.reset.status && t.pending == none) = true := by decide +kernel

/-! ### States that meet the statements' hypotheses -/

/-- A NOP runs on a fresh block. -/
def runningNop : State := running .nop []

theorem runningNop_inv : runningNop.Inv where
  params := by decide
  buf := ⟨by decide, by decide⟩
  lifecycle :=
    ⟨rfl, by decide, by decide, by intro p hp; cases hp; rfl, by decide, .inl rfl⟩
  cursor := by unfold State.cursorOk; decide
  freq := by unfold State.freqOk; decide +kernel
  huf := by unfold State.hufOk; decide +kernel

/-- A reserved word latched, with a BUF access at each end of the window for the clause of held accesses. -/
theorem witness_ReservedWordRaisesUnsupported :
    State.reset.status.busy = false ∧
    (let s := { running .nop [] with pending := some { word := 0x27, args := operands [] } }
     s.pending = some { word := 0x27, args := operands [] } ∧ s.status.busy = true ∧
       (HostAccess.read 0x01000000 .byte).inBufWindow s.params ∧
       (HostAccess.read 0x01000FFF .byte).inBufWindow s.params) ∧
    ¬∃ i, decode 0x27 = .ok i := by
  refine ⟨rfl, by unfold HostAccess.inBufWindow; decide, ?_⟩
  rintro ⟨i, h⟩
  cases i <;> revert h <;> decide

/-- The first and the last byte of the BUF window of a 4096-byte block. -/
theorem witness_StepRunsDecodedPendingCommand :
    runningNop.pending = some { word := 0, args := operands [] } ∧ decode 0 = .ok .nop ∧ Instr.nop.wf = true ∧
    runningNop.status.busy = true ∧ (HostAccess.read 0x01000000 .byte).inBufWindow runningNop.params ∧
    (HostAccess.read 0x01000FFF .byte).inBufWindow runningNop.params := by
  unfold HostAccess.inBufWindow; decide

theorem witness_PlacedCommandRunsNext : decode (BitVec.ofNat 32 0x40) = .ok .fcpParse := by decide

/-- No event, and a CTRL write that is no reset. -/
theorem witness_RunningCommandCompletes :
    runningNop.Inv ∧ runningNop.status.busy = true ∧ (∀ e ∈ runningNop.script, ¬e.resets) ∧ ¬(ctrlLine 2).resets := by
  refine ⟨runningNop_inv, rfl, fun _ h => (List.not_mem_nil h).elim, ?_⟩
  rintro (h | ⟨v, h, hv⟩)
  · exact absurd h (by decide)
  · obtain rfl : 2 = v := by simpa [ctrlLine, regLine] using h
    exact absurd hv (by decide)

theorem witness_CmdWriteWhileIdleIsAccepted : State.reset.status.busy = false := rfl

theorem witness_CmdWriteWhileBusyIsRejected : runningNop.status.busy = true := rfl

theorem witness_ArgWritesNeverReachARunningCommand :
    runningNop.pending = some { word := 0, args := operands [] } ∧
    exec .nop runningNop = .next (stateAfter (exec .nop runningNop)) := ⟨rfl, rfl⟩

theorem witness_InterruptLineFollowsStatusAndEnables : State.reset.status.busy = false := rfl

/-- Bit 0 = 0 with every other bit 1; bit 0 = 1 while idle, while a command runs, and while a reserved word is pending. -/
theorem witness_SoftResetKeepsBufOutsideAbortedRegions :
    (0xFFFFFFFE#32).getLsbD 0 = false ∧ (1#32).getLsbD 0 = true ∧ State.reset.status.busy = false ∧
    (running .hufPack [0, 2, 4095]).status.busy = true ∧
    (running .hufPack [0, 2, 4095]).pending = some { word := 0x30, args := operands [0, 2, 4095] } ∧
    decode 0x30 = .ok .hufPack ∧ decode 0x27 = .error (.reservedOpcode 0x27) ∧
    { running .nop [] with pending := some { word := 0x27, args := operands [] } }.pending =
      some { word := 0x27, args := operands [] } := by decide

theorem witness_ReadOnlyAndReservedOffsetsIgnoreWrites :
    (0x060 % 4 = 0 ∧ 0x060 ≤ 0x060 ∧ 0x060 ≤ 0x3FC) ∧ (0xFFC % 4 = 0 ∧ 0xC00 ≤ 0xFFC ∧ 0xFFC ≤ 0xFFC) ∧
    engineOwnedOffset 0x00C ∧ engineOwnedOffset 0x030 ∧ engineOwnedOffset 0x054 ∧ engineOwnedOffset 0xBFC := by
  unfold engineOwnedOffset; decide

theorem witness_RegisterReadsFollowTheMap :
    runningNop.status.busy = true ∧ engineOwnedOffset 0x400 ∧ State.reset.status.busy = false := by
  unfold engineOwnedOffset; decide

/-- A byte access and a misaligned access to the registers, the address after them, the last byte of BUF read two bytes wide,
and the address after BUF. -/
theorem witness_ForbiddenAccessIsABusError :
    (HostAccess.read 0xFFF .byte).forbidden State.reset.params ∧ (HostAccess.read 0xFFE .word).forbidden State.reset.params ∧
    (HostAccess.read 0x1000 .word).forbidden State.reset.params ∧
    (HostAccess.read 0x010FFFFF .half).forbidden State.reset.params ∧
    (HostAccess.write 0x01100000 .byte 0).forbidden State.reset.params ∧ State.reset.status.busy = false ∧
    ¬(HostAccess.read 0x1000 .word).inBufWindow runningNop.params := by
  unfold HostAccess.forbidden HostAccess.inBufWindow; decide

theorem witness_HostBufAccessesAreLittleEndian :
    State.reset.params.wf = true ∧ State.reset.status.busy = false ∧ (2 ^ 20 - 4) % AccessWidth.word.bytes = 0 ∧
    2 ^ 20 - 4 + AccessWidth.word.bytes ≤ State.reset.params.bufSize ∧
    4 * (2 ^ 18 - 1) + 4 ≤ State.reset.params.bufSize := by decide

theorem witness_BufAccessWhileBusyIsHeld :
    { runningNop with script := [.host (.read 0x01000FFF .byte)] }.Inv ∧ runningNop.status.busy = true ∧
    (HostAccess.read 0x01000FFF .byte).inBufWindow runningNop.params ∧
    (HostAccess.read 0xFFF .byte).addr.toNat ≤ 0xFFF :=
  ⟨⟨runningNop_inv.params, runningNop_inv.buf, runningNop_inv.lifecycle, runningNop_inv.cursor, runningNop_inv.freq,
    runningNop_inv.huf⟩, rfl, by unfold HostAccess.inBufWindow; decide, by decide⟩

theorem witness_NopCompletesAndChangesNothingElse :
    State.reset.status.busy = false ∧ State.reset.status.rejected = false := ⟨rfl, rfl⟩

/-- A region that ends at the last byte and a position at its end; a position one bit further; a region one byte too long. -/
theorem witness_CurSetPlacesTheCursor :
    (let s := running .curSet [4092, 4, 32]
     s.arg 2 ≤ 8 * s.arg 1 ∧ s.arg 0 + s.arg 1 ≤ s.params.bufSize) ∧
    (let s := running .curSet [4092, 4, 33]
     8 * s.arg 1 < s.arg 2) ∧
    (let s := running .curSet [4093, 4, 32]
     s.arg 2 ≤ 8 * s.arg 1 ∧ s.params.bufSize < s.arg 0 + s.arg 1) := by decide +kernel

/-- For each width: the last bytes of the region, an unaligned position, and one byte too few. -/
theorem witness_TypedReadsReturnLittleEndianValues :
    (let s := atCursor (running .curRd8 []) 4092 4 24
     s.cursorOk ∧ s.cur.bitPos.toNat % 8 = 0 ∧ s.cur.bitPos.toNat / 8 + 1 ≤ s.cur.len.toNat) ∧
    (let s := atCursor (running .curRd16 []) 4092 4 16
     s.cursorOk ∧ s.cur.bitPos.toNat % 8 = 0 ∧ s.cur.bitPos.toNat / 8 + 2 ≤ s.cur.len.toNat) ∧
    (let s := atCursor (running .curRd32 []) 4092 4 0
     s.cursorOk ∧ s.cur.bitPos.toNat % 8 = 0 ∧ s.cur.bitPos.toNat / 8 + 4 ≤ s.cur.len.toNat) ∧
    (atCursor (running .curRd8 []) 4092 4 25).cur.bitPos.toNat % 8 ≠ 0 ∧
    (let s := atCursor (running .curRd8 []) 4092 4 32
     s.cur.bitPos.toNat % 8 = 0 ∧ s.cur.len.toNat < s.cur.bitPos.toNat / 8 + 1) ∧
    (let s := atCursor (running .curRd16 []) 4092 4 24
     s.cur.bitPos.toNat % 8 = 0 ∧ s.cur.len.toNat < s.cur.bitPos.toNat / 8 + 2) ∧
    (let s := atCursor (running .curRd32 []) 4092 4 8
     s.cur.bitPos.toNat % 8 = 0 ∧ s.cur.len.toNat < s.cur.bitPos.toNat / 8 + 4) := by
  unfold State.cursorOk; decide +kernel

/-- As for the reads. -/
theorem witness_TypedWritesStoreLittleEndianValues :
    (let s := atCursor (running .curWr8 [0x1AB]) 4092 4 24
     s.cursorOk ∧ s.cur.bitPos.toNat % 8 = 0 ∧ s.cur.bitPos.toNat / 8 + 1 ≤ s.cur.len.toNat) ∧
    (let s := atCursor (running .curWr16 [0xBEEF]) 4092 4 16
     s.cursorOk ∧ s.cur.bitPos.toNat % 8 = 0 ∧ s.cur.bitPos.toNat / 8 + 2 ≤ s.cur.len.toNat) ∧
    (let s := atCursor (running .curWr32 [0xFFFFFFFE]) 4092 4 0
     s.cursorOk ∧ s.cur.bitPos.toNat % 8 = 0 ∧ s.cur.bitPos.toNat / 8 + 4 ≤ s.cur.len.toNat) ∧
    (atCursor (running .curWr8 []) 4092 4 25).cur.bitPos.toNat % 8 ≠ 0 ∧
    (let s := atCursor (running .curWr8 []) 4092 4 32
     s.cur.bitPos.toNat % 8 = 0 ∧ s.cur.len.toNat < s.cur.bitPos.toNat / 8 + 1) ∧
    (let s := atCursor (running .curWr16 []) 4092 4 24
     s.cur.bitPos.toNat % 8 = 0 ∧ s.cur.len.toNat < s.cur.bitPos.toNat / 8 + 2) ∧
    (let s := atCursor (running .curWr32 []) 4092 4 8
     s.cur.bitPos.toNat % 8 = 0 ∧ s.cur.len.toNat < s.cur.bitPos.toNat / 8 + 4) := by
  unfold State.cursorOk; decide +kernel

theorem witness_CurSkipMovesWithoutReading :
    (let s := atCursor (running .curSkip [4]) 4092 4 0
     s.cur.bitPos.toNat % 8 = 0 ∧ s.cur.bitPos.toNat / 8 + s.arg 0 ≤ s.cur.len.toNat) ∧
    (atCursor (running .curSkip [0]) 4092 4 31).cur.bitPos.toNat % 8 ≠ 0 ∧
    (let s := atCursor (running .curSkip [5]) 4092 4 0
     s.cur.bitPos.toNat % 8 = 0 ∧ s.cur.len.toNat < s.cur.bitPos.toNat / 8 + s.arg 0) := by decide +kernel

/-- 1 and 32 bits up to the end of the region, 0 and 33 bits, and one bit too few. -/
theorem witness_CurRdBitsReadsLeastSignificantBitFirst :
    (let s := atCursor (running .curRdBits [1]) 4092 4 31
     s.cursorOk ∧ 1 ≤ s.arg 0 ∧ s.arg 0 ≤ 32 ∧ s.cur.bitPos.toNat + s.arg 0 ≤ 8 * s.cur.len.toNat) ∧
    (let s := atCursor (running .curRdBits [32]) 4092 4 0
     s.cursorOk ∧ 1 ≤ s.arg 0 ∧ s.arg 0 ≤ 32 ∧ s.cur.bitPos.toNat + s.arg 0 ≤ 8 * s.cur.len.toNat) ∧
    (running .curRdBits [0]).arg 0 < 1 ∧ 32 < (running .curRdBits [33]).arg 0 ∧
    (let s := atCursor (running .curRdBits [32]) 4092 4 1
     1 ≤ s.arg 0 ∧ s.arg 0 ≤ 32 ∧ 8 * s.cur.len.toNat < s.cur.bitPos.toNat + s.arg 0) := by
  unfold State.cursorOk; decide +kernel

/-- As for CUR_RDBITS. -/
theorem witness_CurWrBitsWritesOnlyItsBits :
    (let s := atCursor (running .curWrBits [1, 1]) 4092 4 31
     s.cursorOk ∧ 1 ≤ s.arg 0 ∧ s.arg 0 ≤ 32 ∧ s.cur.bitPos.toNat + s.arg 0 ≤ 8 * s.cur.len.toNat) ∧
    (let s := atCursor (running .curWrBits [32, 5]) 4092 4 0
     s.cursorOk ∧ 1 ≤ s.arg 0 ∧ s.arg 0 ≤ 32 ∧ s.cur.bitPos.toNat + s.arg 0 ≤ 8 * s.cur.len.toNat) ∧
    (running .curWrBits [0]).arg 0 < 1 ∧ 32 < (running .curWrBits [33]).arg 0 ∧
    (let s := atCursor (running .curWrBits [32]) 4092 4 1
     1 ≤ s.arg 0 ∧ s.arg 0 ≤ 32 ∧ 8 * s.cur.len.toNat < s.cur.bitPos.toNat + s.arg 0) := by
  unfold State.cursorOk; decide +kernel

/-- The total reaches 2^32 − 1, and passes it by one. -/
def fullTotal (args : List Nat) : State :=
  { running .hufFreqAdd args with
    huf :=
      { treeValid := false, codesValid := false, leafRoot := false, nodeCount := 0, total := 0xFFFFFFFE, maxLen := 0 } }

theorem witness_FreqAddCountsTheSource :
    (let s := fullTotal [4095, 1]
     s.arg 0 + s.arg 1 ≤ s.params.bufSize ∧ s.huf.total.toNat + s.arg 1 ≤ 2 ^ 32 - 1) ∧
    (let s := fullTotal [4095, 2]
     s.params.bufSize < s.arg 0 + s.arg 1) ∧
    (let s := fullTotal [4094, 2]
     s.arg 0 + s.arg 1 ≤ s.params.bufSize ∧ 2 ^ 32 - 1 < s.huf.total.toNat + s.arg 1) := by decide +kernel

theorem witness_HufBuildFromCountsAndBuilds :
    (let s := running .hufBuildFrom [0, 4096]
     s.arg 0 + s.arg 1 ≤ s.params.bufSize) ∧
    (let s := running .hufBuildFrom [1, 4096]
     s.params.bufSize < s.arg 0 + s.arg 1) := by decide +kernel

theorem witness_HufDeriveInstallsTheCodewords :
    (let s := withTree (running .hufDerive []) false
     s.huf.treeValid = true ∧ s.tree.symbols.Nodup) ∧
    (running .hufDerive []).huf.treeValid = false := by decide +kernel

theorem witness_HufSerializeWritesTheRecords :
    (let s := withTree (running .hufSerialize [4066, 30]) false
     s.huf.treeValid = true ∧ s.huf.nodeCount.toNat = s.tree.size ∧ s.arg 0 + s.arg 1 ≤ s.params.bufSize ∧
       6 * s.huf.nodeCount.toNat ≤ s.arg 1) ∧
    (running .hufSerialize [0, 64]).huf.treeValid = false ∧
    (let s := withTree (running .hufSerialize [4067, 30]) false
     s.huf.treeValid = true ∧ s.params.bufSize < s.arg 0 + s.arg 1) ∧
    (let s := withTree (running .hufSerialize [4067, 29]) false
     s.huf.treeValid = true ∧ s.arg 0 + s.arg 1 ≤ s.params.bufSize ∧ s.arg 1 < 6 * s.huf.nodeCount.toNat) := by
  decide +kernel

/-- A 9216-byte block with codewords. -/
def dumping (args : List Nat) : State :=
  { withTree (running .hufDumpCodes args) true with params := { bufSize := 9216, hdrSizeRejects := [] } }

theorem witness_HufDumpCodesWritesEveryEntry :
    (let s := dumping [0, 9216]
     s.huf.codesValid = true ∧ (∀ v < 256, (tableGet s.code (BitVec.ofNat 8 v)).length ≤ 255) ∧
       s.arg 0 + s.arg 1 ≤ s.params.bufSize ∧ 9216 ≤ s.arg 1) ∧
    (running .hufDumpCodes [0, 9216]).huf.codesValid = false ∧
    (let s := dumping [1, 9216]
     s.huf.codesValid = true ∧ s.params.bufSize < s.arg 0 + s.arg 1) ∧
    (let s := dumping [1, 9215]
     s.huf.codesValid = true ∧ s.arg 0 + s.arg 1 ≤ s.params.bufSize ∧ s.arg 1 < 9216) := by decide +kernel

/-- One symbol of a one-record tree 0x21 and a two-byte blob at the end of BUF, its pixels before them. -/
def leafAtEnd : List (Nat × List Byte) := [(4088, [0, 0, 0x21, 0, 0, 0])]

/-- A HUF_DECODE of it. -/
def decodeAtEnd (args : List Nat) : State := running .hufDecode args leafAtEnd

/-- What makes record 0 of a tree the leaf 0x21 and bit 0 of the blob a 0. -/
def oneLeaf (m : Mem) (d : DecodeSource) : Prop :=
  2 ≤ d.blobLen ∧ streamBit m d.blob 0 = 0 ∧ 3 ≤ d.treeLen ∧ littleEndianAt m d.tree 2 = 0 ∧ m.readByte (d.tree + 2) = 0x21

/-- One symbol from position 0 of such a tree and blob. -/
theorem decodes_one_leaf {m : Mem} {d : DecodeSource} (h : oneLeaf m d) : DecodesAsWritten m d 1 0 (.ok ([1, 2], 1)) := by
  obtain ⟨hb, hbit, ht, h0, hv⟩ := h
  have w : WalksAsWritten m d 0 0 (.ok (m.readByte (d.tree + 0 + 2), 0 + 1)) :=
    WalksAsWritten.leaf (m := m) (d := d) (p := 0) (tp := 0) (o := 0) (child := 0) (by omega) (by omega) (by omega)
      (by simp [h0]) (by omega) (by simpa using h0) (by omega)
  rw [show m.readByte (d.tree + 0 + 2) = 0x21 from hv] at w
  exact .symbol w .done

theorem decodeAtEnd_walks (args : List Nat) :
    DecodesAsWritten (decodeAtEnd args).buf { tree := 4088, treeLen := 6, blob := 4094, blobLen := 2 } 1 0
      (.ok ([1, 2], 1)) :=
  decodes_one_leaf (m := bufOf leafAtEnd) (by unfold oneLeaf; decide +kernel)

/-- The same with a blob of one byte, which holds no whole word. -/
theorem decodeAtEnd_blob_ends (args : List Nat) :
    DecodesAsWritten (decodeAtEnd args).buf { tree := 4088, treeLen := 6, blob := 4094, blobLen := 1 } 1 0
      (.error { code := .fmtBitstreamEnd, info := 0 }) :=
  .symbolError (.blobEnds (by decide))

/-- The walk of the first clause is `decodeAtEnd_walks`, that of the last `decodeAtEnd_blob_ends`. -/
theorem witness_HufDecodeWritesThePixels :
    (let s := decodeAtEnd [4088, 6, 4094, 2, 0, 1, 4086]
     s.arg 0 + s.arg 1 ≤ s.params.bufSize ∧ s.arg 2 + s.arg 3 ≤ s.params.bufSize ∧
       s.arg 6 + 2 * s.arg 5 ≤ s.params.bufSize ∧ regionsOverlap (s.arg 6) (2 * s.arg 5) (s.arg 0) (s.arg 1) = false ∧
       regionsOverlap (s.arg 6) (2 * s.arg 5) (s.arg 2) (s.arg 3) = false ∧ (s.arg 5 = 1 ∧ s.arg 4 = 0)) ∧
    (let s := decodeAtEnd [4088, 9, 4094, 2, 0, 1, 4086]
     s.params.bufSize < s.arg 0 + s.arg 1) ∧
    (let s := decodeAtEnd [4088, 8, 4094, 3, 0, 1, 4086]
     s.arg 0 + s.arg 1 ≤ s.params.bufSize ∧ s.params.bufSize < s.arg 2 + s.arg 3) ∧
    (let s := decodeAtEnd [4088, 8, 4094, 2, 0, 1, 4095]
     s.arg 0 + s.arg 1 ≤ s.params.bufSize ∧ s.arg 2 + s.arg 3 ≤ s.params.bufSize ∧
       s.params.bufSize < s.arg 6 + 2 * s.arg 5) ∧
    (let s := decodeAtEnd [4088, 6, 4094, 2, 0, 1, 4087]
     s.arg 0 + s.arg 1 ≤ s.params.bufSize ∧ s.arg 2 + s.arg 3 ≤ s.params.bufSize ∧
       s.arg 6 + 2 * s.arg 5 ≤ s.params.bufSize ∧ regionsOverlap (s.arg 6) (2 * s.arg 5) (s.arg 0) (s.arg 1) = true) ∧
    (let s := decodeAtEnd [4088, 6, 4094, 1, 0, 1, 4086]
     s.arg 0 + s.arg 1 ≤ s.params.bufSize ∧ s.arg 2 + s.arg 3 ≤ s.params.bufSize ∧
       s.arg 6 + 2 * s.arg 5 ≤ s.params.bufSize ∧ regionsOverlap (s.arg 6) (2 * s.arg 5) (s.arg 0) (s.arg 1) = false ∧
       regionsOverlap (s.arg 6) (2 * s.arg 5) (s.arg 2) (s.arg 3) = false ∧ s.arg 3 = 1) := by decide +kernel

theorem witness_HufPackJoinsPixelPairs :
    (let s := running .hufPack [4094, 2, 4093] [(4094, [15, 15])]
     s.arg 1 % 2 = 0 ∧ s.arg 0 + s.arg 1 ≤ s.params.bufSize ∧ s.arg 2 + s.arg 1 / 2 ≤ s.params.bufSize ∧
       regionsOverlap (s.arg 0) (s.arg 1) (s.arg 2) (s.arg 1 / 2) = false ∧
       ∀ i < s.arg 1, (s.buf.readByte (s.arg 0 + i)).toNat ≤ 15) ∧
    (running .hufPack [0, 3, 10]).arg 1 % 2 ≠ 0 ∧
    (let s := running .hufPack [4095, 2, 0]
     s.arg 1 % 2 = 0 ∧ s.params.bufSize < s.arg 0 + s.arg 1) ∧
    (let s := running .hufPack [4094, 2, 4096]
     s.arg 1 % 2 = 0 ∧ s.arg 0 + s.arg 1 ≤ s.params.bufSize ∧ s.params.bufSize < s.arg 2 + s.arg 1 / 2) ∧
    (let s := running .hufPack [4094, 2, 4095]
     s.arg 1 % 2 = 0 ∧ s.arg 0 + s.arg 1 ≤ s.params.bufSize ∧ s.arg 2 + s.arg 1 / 2 ≤ s.params.bufSize ∧
       regionsOverlap (s.arg 0) (s.arg 1) (s.arg 2) (s.arg 1 / 2) = true) ∧
    (let s := running .hufPack [4094, 2, 4093] [(4094, [15, 16])]
     1 < s.arg 1 ∧ s.arg 1 % 2 = 0 ∧ s.arg 0 + s.arg 1 ≤ s.params.bufSize ∧
       s.arg 2 + s.arg 1 / 2 ≤ s.params.bufSize ∧ regionsOverlap (s.arg 0) (s.arg 1) (s.arg 2) (s.arg 1 / 2) = false ∧
       15 < (s.buf.readByte (s.arg 0 + 1)).toNat ∧ ∀ j < 1, (s.buf.readByte (s.arg 0 + j)).toNat ≤ 15) := by
  decide +kernel

/-- An encode of the six symbols, with the codewords derived. -/
def encoding (args : List Nat) (symbols : List Byte := sixSymbols) : State :=
  withTree (running .hufEncode args [(0x200, symbols)]) true

theorem witness_HufEncodePlacesTheCodewords :
    (let s := encoding [0x200, 6, 4094, 2, 7]
     s.huf.codesValid = true ∧ s.arg 0 + s.arg 1 ≤ s.params.bufSize ∧ s.arg 2 + s.arg 3 ≤ s.params.bufSize ∧
       regionsOverlap (s.arg 0) (s.arg 1) (s.arg 2) (s.arg 3) = false ∧ s.allCoded (s.arg 0) (s.arg 1) ∧
       2 * ((s.arg 4 + (s.symbolBits (s.arg 0) (s.arg 1)).length + 15) / 16) ≤ s.arg 3) ∧
    (running .hufEncode [0x200, 6, 4094, 2, 0]).huf.codesValid = false ∧
    (let s := encoding [4091, 6, 0, 2, 0]
     s.huf.codesValid = true ∧ s.params.bufSize < s.arg 0 + s.arg 1) ∧
    (let s := encoding [0x200, 6, 4095, 2, 0]
     s.huf.codesValid = true ∧ s.arg 0 + s.arg 1 ≤ s.params.bufSize ∧ s.params.bufSize < s.arg 2 + s.arg 3) ∧
    (let s := encoding [0x200, 6, 0x205, 2, 0]
     s.huf.codesValid = true ∧ s.arg 0 + s.arg 1 ≤ s.params.bufSize ∧ s.arg 2 + s.arg 3 ≤ s.params.bufSize ∧
       regionsOverlap (s.arg 0) (s.arg 1) (s.arg 2) (s.arg 3) = true) ∧
    (let s := encoding [0x200, 6, 4094, 2, 0] [0x11, 0x11, 0x11, 0x22, 0x22, 0x34]
     s.huf.codesValid = true ∧ s.arg 0 + s.arg 1 ≤ s.params.bufSize ∧ s.arg 2 + s.arg 3 ≤ s.params.bufSize ∧
       regionsOverlap (s.arg 0) (s.arg 1) (s.arg 2) (s.arg 3) = false ∧ s.firstUncoded (s.arg 0) (s.arg 1) 5) ∧
    (let s := encoding [0x200, 6, 4094, 2, 8]
     s.huf.codesValid = true ∧ s.arg 0 + s.arg 1 ≤ s.params.bufSize ∧ s.arg 2 + s.arg 3 ≤ s.params.bufSize ∧
       regionsOverlap (s.arg 0) (s.arg 1) (s.arg 2) (s.arg 3) = false ∧ s.allCoded (s.arg 0) (s.arg 1) ∧
       s.arg 3 < 2 * ((s.arg 4 + (s.symbolBits (s.arg 0) (s.arg 1)).length + 15) / 16)) := by
  unfold State.firstUncoded State.allCoded; decide +kernel

/-- A compression of two glyphs of three symbols, with the codewords derived. -/
def compressing (args : List Nat) (symbols : List Byte := sixSymbols) : State :=
  withTree (running .hufCompress args [(0x200, symbols)]) true

/-- The overlap of R298 for the operands of a state. -/
def compressOverlap (s : State) : Bool :=
  regionsOverlap (s.arg 0) (s.arg 1 * s.arg 2) (s.arg 3) (s.arg 4) ||
    regionsOverlap (s.arg 0) (s.arg 1 * s.arg 2) (s.arg 5) (4 * s.arg 1) ||
      regionsOverlap (s.arg 3) (s.arg 4) (s.arg 5) (4 * s.arg 1)

theorem witness_HufCompressWritesBlobAndPositions :
    (let s := compressing [0x200, 2, 3, 4086, 2, 4088]
     s.params.wf = true ∧ s.huf.codesValid = true ∧ s.arg 0 + s.arg 1 * s.arg 2 ≤ s.params.bufSize ∧
       s.arg 3 + s.arg 4 ≤ s.params.bufSize ∧ s.arg 5 + 4 * s.arg 1 ≤ s.params.bufSize ∧ compressOverlap s = false ∧
       s.allCoded (s.arg 0) (s.arg 1 * s.arg 2) ∧
       2 * (((s.symbolBits (s.arg 0) (s.arg 1 * s.arg 2)).length + 15) / 16) ≤ s.arg 4) ∧
    (running .hufCompress [0x200, 2, 3, 4086, 2, 4088]).huf.codesValid = false ∧
    (let s := compressing [4091, 2, 3, 0, 2, 8]
     s.huf.codesValid = true ∧ s.params.bufSize < s.arg 0 + s.arg 1 * s.arg 2) ∧
    (let s := compressing [0x200, 2, 3, 4095, 2, 8]
     s.huf.codesValid = true ∧ s.arg 0 + s.arg 1 * s.arg 2 ≤ s.params.bufSize ∧
       s.params.bufSize < s.arg 3 + s.arg 4) ∧
    (let s := compressing [0x200, 2, 3, 4086, 2, 4089]
     s.huf.codesValid = true ∧ s.arg 0 + s.arg 1 * s.arg 2 ≤ s.params.bufSize ∧
       s.arg 3 + s.arg 4 ≤ s.params.bufSize ∧ s.params.bufSize < s.arg 5 + 4 * s.arg 1) ∧
    (let s := compressing [0x200, 2, 3, 4087, 2, 4088]
     s.huf.codesValid = true ∧ s.arg 0 + s.arg 1 * s.arg 2 ≤ s.params.bufSize ∧
       s.arg 3 + s.arg 4 ≤ s.params.bufSize ∧ s.arg 5 + 4 * s.arg 1 ≤ s.params.bufSize ∧ compressOverlap s = true) ∧
    (let s := compressing [0x200, 2, 3, 4086, 2, 4088] [0x10, 0x11, 0x11, 0x22, 0x22, 0x33]
     s.huf.codesValid = true ∧ s.arg 0 + s.arg 1 * s.arg 2 ≤ s.params.bufSize ∧
       s.arg 3 + s.arg 4 ≤ s.params.bufSize ∧ s.arg 5 + 4 * s.arg 1 ≤ s.params.bufSize ∧ compressOverlap s = false ∧
       s.firstUncoded (s.arg 0) (s.arg 1 * s.arg 2) 0) ∧
    (let s := compressing [0x200, 2, 3, 4087, 1, 4088]
     s.huf.codesValid = true ∧ s.arg 0 + s.arg 1 * s.arg 2 ≤ s.params.bufSize ∧
       s.arg 3 + s.arg 4 ≤ s.params.bufSize ∧ s.arg 5 + 4 * s.arg 1 ≤ s.params.bufSize ∧ compressOverlap s = false ∧
       s.allCoded (s.arg 0) (s.arg 1 * s.arg 2) ∧
       s.arg 4 < 2 * (((s.symbolBits (s.arg 0) (s.arg 1 * s.arg 2)).length + 15) / 16)) := by
  unfold State.firstUncoded State.allCoded; decide +kernel

/-- The font of the small container. -/
def smallFont : FontModel :=
  { numGlyphs := 1
    charWidth := 2
    charHeight := 1
    images := 1
    palette := (1, 2, 3) :: List.replicate 15 (0, 0, 0)
    metrics := [{ code := 0x20, bearingX := 1, advance := 7, width := 6 }]
    grids := [[1, 2]] }

/-- The source region of an FCP_PARSE. -/
def parseSource (s : State) : Source := { base := s.arg 0, len := s.arg 1 }

/-- The operands of an FCP_PARSE name two valid regions that do not overlap. -/
abbrev regionsFit (s : State) : Prop :=
  s.arg 0 + s.arg 1 ≤ s.params.bufSize ∧ s.arg 2 + s.arg 3 ≤ s.params.bufSize ∧
    regionsOverlap (s.arg 0) (s.arg 1) (s.arg 2) (s.arg 3) = false

theorem smallContainer_passes :
    containerPasses parseExample.buf (hdrSizeOk parseExample.params) (parseSource parseExample) 66 156 := by
  unfold containerPasses; decide +kernel

theorem smallContainer_declaredBy : smallFont.declaredBy parseExample.buf (parseSource parseExample) := by
  unfold FontModel.declaredBy; decide +kernel

theorem smallContainer_position : imagePosition parseExample.buf (parseSource parseExample) 0 = 0 := by decide +kernel

theorem smallContainer_decodes : imageDecodes parseExample.buf (parseSource parseExample) 0 [1, 2] := by
  unfold imageDecodes
  rw [smallContainer_position, show (containerFields parseExample.buf (parseSource parseExample)).glyphSize = 1 by
    decide +kernel]
  exact ⟨by decide, 1, decodes_one_leaf (by unfold oneLeaf; decide +kernel)⟩

theorem smallContainer_declares :
    ParsedAsDeclared parseExample.buf (hdrSizeOk parseExample.params) (parseSource parseExample) 66 smallFont 156 := by
  refine ⟨smallContainer_passes, smallContainer_declaredBy, fun i hi => ?_⟩
  rw [show (containerFields parseExample.buf (parseSource parseExample)).images = 1 by decide +kernel] at hi
  obtain rfl : i = 0 := by omega
  exact ⟨[1, 2], rfl, smallContainer_decodes⟩

/-- An FCP_PARSE of the first `len` bytes of the small container, changed at the addresses of `patch`, for `cap` bytes. -/
def parseOf (len cap : Nat) (patch : List (Nat × List Byte) := []) : State :=
  running .fcpParse [0x100, len, 0x400, cap] ((0x100, smallContainer) :: patch)

/-- A failure of each check of R322, worked out by hand from R168 to R179 (S = 110, P = 150, the blob at 154): a source of no
bytes, of a blob one byte short, and a header one byte short; an odd and a too large L; one byte less capacity than 66; HTS = 1
and HTS = 2^31; CDS = 2^31; 2 · GS = 4 against CW · CH = 2; and of two failures the earlier, R322's E_CAPACITY before its
E_FMT_BAD_SIZE. -/
def badContainers : List (State × CmdError) :=
  [(parseOf 0 66, { code := .fmtTruncated, info := 0 }), (parseOf 155 66, { code := .fmtTruncated, info := 154 }),
    (parseOf 31 66, { code := .fmtTruncated, info := 24 }),
    (parseOf 156 66 [(0x100 + 96, [1])], { code := .fmtBadSize, info := 96 }),
    (parseOf 156 66 [(0x100 + 96, [4])], { code := .fmtBadSize, info := 96 }),
    (parseOf 156 65, { code := .capacity, info := 66 }),
    (parseOf 156 66 [(0x100 + 114, [1])], { code := .fmtBadSize, info := 114 }),
    (parseOf 156 66 [(0x100 + 114, [0, 0, 0, 0x80])], { code := .fmtBadSize, info := 114 }),
    (parseOf 156 66 [(0x100 + 118, [0, 0, 0, 0x80])], { code := .fmtBadSize, info := 118 }),
    (parseOf 156 66 [(0x100 + 126, [2])], { code := .fmtDimension, info := 2 }),
    (parseOf 156 65 [(0x100 + 96, [1])], { code := .capacity, info := 66 })]

theorem badContainers_fail :
    ∀ c ∈ badContainers, regionsFit c.1 ∧
      firstFailure (containerChecks c.1.buf (hdrSizeOk c.1.params) (parseSource c.1) (c.1.arg 3)) = some c.2 := by
  decide +kernel

/-- A position of −2^31. -/
def negativePosition : State := parseOf 156 66 [(0x100 + 150, [0, 0, 0, 0x80])]

/-- A position of 16, where the blob has ended. -/
def positionPastBlob : State := parseOf 156 66 [(0x100 + 150, [16])]

theorem negativePosition_fails :
    FailsAsDeclared negativePosition.buf (hdrSizeOk negativePosition.params) (parseSource negativePosition) 66
      { code := .fmtBadOffset, info := 0 } :=
  .inr ⟨by decide +kernel, 0, by decide +kernel, fun _ h => absurd h (Nat.not_lt_zero _), .inl (by decide +kernel)⟩

theorem positionPastBlob_fails :
    FailsAsDeclared positionPastBlob.buf (hdrSizeOk positionPastBlob.params) (parseSource positionPastBlob) 66
      { code := .fmtBitstreamEnd, info := 16 } := by
  refine .inr ⟨by decide +kernel, 0, by decide +kernel, fun _ h => absurd h (Nat.not_lt_zero _), .inr ⟨by decide +kernel, ?_⟩⟩
  rw [show imagePosition positionPastBlob.buf (parseSource positionPastBlob) 0 = 16 by decide +kernel,
    show (containerFields positionPastBlob.buf (parseSource positionPastBlob)).glyphSize = 1 by decide +kernel]
  exact .symbolError (.blobEnds (by decide +kernel))

/-- A declared font; one byte too many in each region and an overlap; and the errors of the checks and of the images. -/
theorem witness_FcpParseWritesTheFontModel :
    (regionsFit parseExample ∧
      ParsedAsDeclared parseExample.buf (hdrSizeOk parseExample.params) (parseSource parseExample) (parseExample.arg 3)
        smallFont 156) ∧
    (let s := running .fcpParse [4000, 97, 0, 0]
     s.params.bufSize < s.arg 0 + s.arg 1) ∧
    (let s := running .fcpParse [4000, 96, 4090, 7]
     s.arg 0 + s.arg 1 ≤ s.params.bufSize ∧ s.params.bufSize < s.arg 2 + s.arg 3) ∧
    (let s := running .fcpParse [0, 97, 96, 56]
     s.arg 0 + s.arg 1 ≤ s.params.bufSize ∧ s.arg 2 + s.arg 3 ≤ s.params.bufSize ∧
       regionsOverlap (s.arg 0) (s.arg 1) (s.arg 2) (s.arg 3) = true) ∧
    (∀ c ∈ badContainers,
      regionsFit c.1 ∧ FailsAsDeclared c.1.buf (hdrSizeOk c.1.params) (parseSource c.1) (c.1.arg 3) c.2) ∧
    regionsFit negativePosition ∧ regionsFit positionPastBlob :=
  ⟨⟨by decide +kernel, smallContainer_declares⟩, by decide +kernel, by decide +kernel, by decide +kernel,
    fun c hc => ⟨(badContainers_fail c hc).1, .inl (badContainers_fail c hc).2⟩, by decide +kernel⟩

/-- A command for each clause: it answers a next state, and that state differs where the clause says. -/
theorem witness_OnlyNamedCommandsWriteEachState :
    nextWith (exec .curSet (running .curSet [1, 2, 3])) (fun t => t.cur != (running .curSet [1, 2, 3]).cur) = true ∧
    nextWith (exec .hufFreqAdd (running .hufFreqAdd [0, 1])) (fun t => tableGet t.freq 0 != 0) = true ∧
    nextWith (exec .hufBuildFrom (running .hufBuildFrom [0x200, 6] [(0x200, sixSymbols)]))
      (fun t => t.tree != (.leaf 0)) = true ∧
    nextWith (exec .hufDerive (withTree (running .hufDerive []) false))
      (fun t => tableGet t.code 0x11 != [] && t.huf.codesValid) = true ∧
    nextWith (exec .curWr8 (atCursor (running .curWr8 [1]) 0 1 0)) (fun t => t.buf.readByte 0 != 0) = true := by
  decide +kernel

/-- An acceptance; a completion for each event that lets it happen; a soft reset. -/
theorem witness_OnlyTheNamedEventsChangeBusy :
    (let s := { State.reset with script := [cmdLine 0] }
     s.stepsTo (stateAfter (step s)) ∧ s.status.busy = false ∧ (stateAfter (step s)).status.busy = true) ∧
    ∀ l ∈ [[], [.engine], [.host (.read 0x01000FFF .byte)], [ctrlLine 1]],
      let s := { runningNop with script := l }
      s.stepsTo (stateAfter (step s)) ∧ s.status.busy = true ∧ (stateAfter (step s)).status.busy = false := by
  refine ⟨⟨rfl, rfl, rfl⟩, ?_⟩
  simp only [List.mem_cons, List.not_mem_nil, or_false, forall_eq_or_imp, forall_eq]
  exact ⟨⟨rfl, rfl, rfl⟩, ⟨rfl, rfl, rfl⟩, ⟨rfl, rfl, rfl⟩, ⟨rfl, rfl, rfl⟩⟩

/-- No present symbol, and three. -/
theorem witness_BuiltTreeHasTwoKMinusOneNodes :
    presentCount (Vector.replicate 256 0) = 0 ∧ presentCount exampleFreq = 3 := by decide +kernel

theorem witness_CodewordsAreTreePaths : exampleTree.symbols.Nodup ∧ [true, false] ≠ [] := by decide

theorem witness_CodewordsArePrefixFreeAndComplete :
    exampleTree.symbols.Nodup ∧ (0x11 : Byte) ≠ 0x22 ∧ tableGet (deriveCodes exampleTree) 0x11 ≠ [] := by decide +kernel

theorem witness_FrequentSymbolsHaveNoLongerCodewords :
    0 < (tableGet exampleFreq 0x33).toNat ∧ (tableGet exampleFreq 0x33).toNat < (tableGet exampleFreq 0x11).toNat := by
  decide +kernel

/-- The example tree at 0x400 and the codeword 11 of 0x22 at bit 0 of the blob. -/
theorem witness_SerializedTreeDecodesEveryCodeword :
    (let d : DecodeSource := { tree := 0x400, treeLen := 30, blob := 0x500, blobLen := 2 }
     let m := bufOf [(0x400, exampleRecords), (0x500, [3])]
     let w := tableGet (deriveCodes (buildTree exampleFreq)) 0x22
     w ≠ [] ∧ d.treeLen = 6 * (buildTree exampleFreq).size ∧
       m.bytes d.tree d.treeLen = serializeTree (buildTree exampleFreq) ∧
       ∀ j < w.length, fetchBit m d (0 + j) = .ok (w.getD j false)) := by decide +kernel

/-- Two states that differ in FREQ, TREE and a byte outside the regions. -/
theorem witness_HufDecodeDependsOnItsInputsOnly :
    (let s := decodeExample
     let u : State := { withTree decodeExample true with buf := s.buf.store 0 [7], freq := exampleFreq }
     (∀ k : Fin 8, k < 7 → u.arg k = s.arg k) ∧ u.params.bufSize = s.params.bufSize ∧
       (∀ j < s.arg 1, u.buf.readByte (s.arg 0 + j) = s.buf.readByte (s.arg 0 + j)) ∧
       (∀ j < s.arg 3, u.buf.readByte (s.arg 2 + j) = s.buf.readByte (s.arg 2 + j)) ∧ s.status.done = false ∧
       s.status.err = false ∧ u.status.done = false ∧ u.status.err = false) := by decide +kernel

/-- Two blobs that differ in bit 0 alone, decoded from bit 1. -/
theorem witness_DecodeReadsNoBitBeforeTheStart :
    (let d : DecodeSource := { tree := 0x400, treeLen := 30, blob := 0x500, blobLen := 2 }
     let m := bufOf [(0x400, exampleRecords), (0x500, [0xF8])]
     let n := bufOf [(0x400, exampleRecords), (0x500, [0xF9])]
     (∀ j < d.treeLen, n.readByte (d.tree + j) = m.readByte (d.tree + j)) ∧
       (∀ q < 8 * d.blobLen, 1 ≤ q → streamBit n d.blob q = streamBit m d.blob q)) := by decide +kernel

theorem witness_DecodeShiftsByAWholeWord :
    2 ≤ ({ tree := 0, treeLen := 0, blob := 0, blobLen := 2 } : DecodeSource).blobLen := by decide

/-- The example's encode, with the tree's records in BUF. -/
def encodeExample : State :=
  withTree (running .hufEncode [0x200, 6, 0x500, 16, 0] [(0x200, sixSymbols), (0x400, exampleRecords)]) true

theorem witness_EncodedSymbolsDecodeToThemselves :
    (let s := encodeExample
     let t := stateAfter (exec .hufEncode s)
     s.params.wf = true ∧ s.huf.treeValid = true ∧ s.tree.symbols.Nodup ∧ s.code = deriveCodes s.tree ∧
       s.status.done = false ∧ t.status.done = true ∧ t.buf.bytes 0x400 (6 * s.tree.size) = serializeTree s.tree) ∧
    exec .hufEncode encodeExample = .next (stateAfter (exec .hufEncode encodeExample)) :=
  ⟨by decide +kernel, eq_next_stateAfter (by decide +kernel)⟩

theorem witness_FontImageLayoutIsTheSpecs :
    (let f := smallFont
     f.numGlyphs < 2 ^ 16 ∧ f.charWidth < 2 ^ 16 ∧ f.charHeight < 2 ^ 16 ∧ f.images < 2 ^ 16 ∧ f.palette.length = 16 ∧
       f.metrics.length = f.numGlyphs ∧ f.grids.length = f.numGlyphs ∧
       (∀ g ∈ f.grids, g.length = f.charWidth * f.charHeight) ∧
       (∀ g ∈ f.metrics, g.code < 2 ^ 32 ∧ g.bearingX < 256 ∧ g.advance < 256 ∧ -256 < g.width ∧ g.width < 256) ∧
       (bufOf [(9, fontImage f)]).bytes 9 (56 + 8 * f.numGlyphs + f.numGlyphs * f.charWidth * f.charHeight) =
         fontImage f) := by decide +kernel

/-- SIM_FIELD in the sub-header, its operands measured as E and 0. -/
def simInSubHeader : SimField := { field := .subHeader, totalStreamLength := fun _ e => e, widthTableLength := fun _ _ => 0 }

/-- R351: 156 − 0 − 7 = 149 = 0x95 at S + 32 = 142, little-endian, and no other byte. -/
theorem test_patchSim :
    let before := containerBeforeSim (referenceContract smallFont) smallFont
    before.length = 156 ∧
      assembleContainer { referenceContract smallFont with simField := some simInSubHeader } smallFont =
        before.take 142 ++ [0x95, 0] ++ before.drop 144 := by decide +kernel

/-- The small font assembled at 0x100, with room for exactly its image: SIM_FIELD not written, in the sub-header, and in the last
three bytes of the reserved block of eight. -/
theorem witness_AssembledContainerParsesToItsFont :
    ∀ sim ∈ [none, some simInSubHeader, some { simInSubHeader with field := .reservedBlock 5 3 }],
      let f := smallFont
      let p := { referenceContract f with simField := sim }
      let c := assembleContainer p f
      let s := running .fcpParse [0x100, c.length, 0x400, 66] [(0x100, c)]
      s.params.wf = true ∧ f.fitsContainer = true ∧ p.fits f = true ∧
        hdrSizeOk s.params (BitVec.ofNat 32 (littleEndianAt s.buf (s.arg 0) 4)) = true ∧
        s.arg 1 = (assembleContainer p f).length ∧ s.buf.bytes (s.arg 0) (s.arg 1) = assembleContainer p f ∧
        regionsFit s ∧ fontImageSize f.numGlyphs f.charWidth f.charHeight ≤ s.arg 3 := by
  simp only [List.mem_cons, List.not_mem_nil, or_false, forall_eq_or_imp, forall_eq]
  decide +kernel

theorem witness_EveryStepKeepsTheBufferInside :
    runningNop.bufOk ∧ runningNop.hufOk ∧ runningNop.stepsTo (stateAfter (step runningNop)) :=
  ⟨runningNop_inv.buf, runningNop_inv.huf, rfl⟩

theorem witness_EveryStepKeepsTheLifecycle :
    runningNop.lifecycleOk ∧ runningNop.stepsTo (stateAfter (step runningNop)) := ⟨runningNop_inv.lifecycle, rfl⟩

theorem witness_InvariantStatesStepToInvariantStates : runningNop.Inv := runningNop_inv

end Sys2Proof.Tests
end

namespace Sys2Proof.Machine

/-! ## The pure functions of the tree builder: sums, sizes and lengths -/

/-! ### Counting (10_state.md R47) -/

theorem freqSum_replicate_zero : freqSum (Vector.replicate 256 0) = 0 := by
  have hzero : (0 : Word).toNat = 0 := rfl
  rw [freqSum, Vector.toList_replicate, List.map_replicate, List.sum_replicate, hzero, smul_zero]

theorem tableGet_le_freqSum (f : Vector Word 256) (v : Byte) : (tableGet f v).toNat ≤ freqSum f :=
  List.single_le_sum (by simp) _
    (List.mem_map_of_mem (Vector.mem_toList_iff.mpr (Vector.getElem_mem (byte_lt_256 v))))

/-- Replacing one entry moves the sum by the difference; both sides are written without subtraction. -/
theorem freqSum_tableSet (f : Vector Word 256) (v : Byte) (x : Word) :
    freqSum (tableSet f v x) + (tableGet f v).toNat = freqSum f + x.toNat := by
  have hv : v.toNat < f.toList.length := by simpa using byte_lt_256 v
  have hget : (tableGet f v).toNat = (f.toList[v.toNat]).toNat := by simp [tableGet]
  have hsplit := congrArg (fun l => (l.map BitVec.toNat).sum) (List.take_append_drop v.toNat f.toList)
  rw [List.drop_eq_getElem_cons hv] at hsplit
  simp only [List.map_append, List.sum_append, List.map_cons, List.sum_cons] at hsplit
  simp only [freqSum, tableSet, Vector.toList_set, List.set_eq_take_append_cons_drop, hv, if_true, List.map_append,
    List.sum_append, List.map_cons, List.sum_cons, hget]
  omega

theorem freqSum_countSymbols (f : Vector Word 256) (bs : List Byte) (h : freqSum f + bs.length < 2 ^ 32) :
    freqSum (countSymbols f bs) = freqSum f + bs.length := by
  induction bs generalizing f with
  | nil => rfl
  | cons v vs ih =>
    have hle := tableGet_le_freqSum f v
    simp only [List.length_cons] at h
    have hone : (tableGet f v + 1).toNat = (tableGet f v).toNat + 1 := by
      rw [BitVec.toNat_add_of_lt (by simp; omega)]; simp
    have hset := freqSum_tableSet f v (tableGet f v + 1)
    have hstep : freqSum (tableSet f v (tableGet f v + 1)) = freqSum f + 1 := by omega
    simp only [countSymbols, List.length_cons]
    rw [ih _ (by omega), hstep]
    omega

/-! ### The built tree (41_huffman_build.md R233 to R237) -/

theorem queueInsert_perm (x : QueueItem) (q : List QueueItem) : (queueInsert x q).Perm (x :: q) := by
  induction q with
  | nil => exact .refl _
  | cons y ys ih =>
    simp only [queueInsert]
    split
    · exact .refl _
    · exact (ih.cons y).trans (.swap x y ys)

/-- The leaf symbols of all the trees of a queue. -/
def queueSymbols (q : List QueueItem) : List Byte := q.flatMap fun a => a.tree.symbols

theorem queueSymbols_queueInsert (x : QueueItem) (q : List QueueItem) :
    (queueSymbols (queueInsert x q)).Perm (x.tree.symbols ++ queueSymbols q) :=
  (queueInsert_perm x q).flatMap_right _

theorem queueInsert_length (x : QueueItem) (q : List QueueItem) : (queueInsert x q).length = q.length + 1 :=
  (queueInsert_perm x q).length_eq

/-- The leaves of the queue are the symbols it was made from. -/
theorem queueSymbols_foldr_leaves (f : Vector Word 256) (l : List (Byte × Nat)) :
    (queueSymbols (l.foldr
      (fun p q => queueInsert { freq := (tableGet f p.1).toNat, seq := p.2, tree := .leaf p.1 } q) [])).Perm
      (l.map Prod.fst) := by
  induction l with
  | nil => exact .refl _
  | cons p l ih => exact (queueSymbols_queueInsert _ _).trans (ih.cons p.1)

theorem leafQueue_symbols (f : Vector Word 256) (symbols : List Byte) :
    (queueSymbols (leafQueue f symbols)).Perm symbols := by
  simpa [leafQueue] using queueSymbols_foldr_leaves f symbols.zipIdx

theorem foldr_queueInsert_length (g : Byte × Nat → QueueItem) (l : List (Byte × Nat)) :
    (l.foldr (fun p q => queueInsert (g p) q) []).length = l.length := by
  induction l with
  | nil => rfl
  | cons p l ih => simp [queueInsert_length, ih]

theorem leafQueue_length (f : Vector Word 256) (symbols : List Byte) : (leafQueue f symbols).length = symbols.length := by
  simp [leafQueue, foldr_queueInsert_length fun p => { freq := (tableGet f p.1).toNat, seq := p.2, tree := .leaf p.1 }]

/-- The merge loop keeps the leaves: each round joins two trees of the queue under one parent. -/
theorem mergeQueue_symbols (fuel next : Nat) (q : List QueueItem) (hne : q ≠ []) (hfuel : q.length ≤ fuel + 1) :
    (mergeQueue fuel next q).symbols.Perm (queueSymbols q) := by
  induction fuel generalizing next q with
  | zero =>
    match q with
    | [a] => simp [mergeQueue, queueSymbols]
    | a :: b :: rest => simp at hfuel
  | succ fuel ih =>
    match q with
    | [a] => simp [mergeQueue, queueSymbols]
    | a :: b :: rest =>
      simp only [mergeQueue]
      refine (ih _ _ ?_ ?_).trans ((queueSymbols_queueInsert _ _).trans ?_)
      · exact List.ne_nil_of_length_pos (by simp [queueInsert_length])
      · simpa [queueInsert_length] using hfuel
      · simp [queueSymbols, Tree.symbols]

theorem presentSymbols_nodup (f : Vector Word 256) : (presentSymbols f).Nodup := by
  refine List.Nodup.filter _ (List.Nodup.map_on (fun a ha b hb hab => ?_) List.nodup_range)
  have := congrArg BitVec.toNat hab
  simp only [List.mem_range] at ha hb
  simpa [Nat.mod_eq_of_lt ha, Nat.mod_eq_of_lt hb] using this

/-- The leaves of the built tree are distinct (10_state.md R61). -/
theorem buildTree_symbols_nodup (f : Vector Word 256) : (buildTree f).symbols.Nodup := by
  have hnodup := presentSymbols_nodup f
  unfold buildTree
  split
  · simp [Tree.symbols]
  · simp [Tree.symbols]
  · rename_i hnil _
    refine ((mergeQueue_symbols _ _ _ ?_ ?_).trans (leafQueue_symbols f _)).nodup_iff.mpr hnodup
    · intro h
      exact hnil (List.length_eq_zero_iff.mp (by rw [← leafQueue_length f, h]; rfl))
    · rw [leafQueue_length]; omega

/-! ### Sizes -/

theorem treeSize_add_one (t : Tree) : t.size + 1 = 2 * t.symbols.length := by
  induction t with
  | leaf s => rfl
  | node l r ihl ihr => simp only [Tree.size, Tree.symbols, List.length_append]; omega

theorem nodup_bytes_length_le {l : List Byte} (h : l.Nodup) : l.length ≤ 256 := by
  have hsub : l.map BitVec.toNat ⊆ List.range 256 := fun n hn => by
    obtain ⟨b, -, rfl⟩ := List.mem_map.mp hn
    exact List.mem_range.mpr b.isLt
  have hmap : (l.map BitVec.toNat).Nodup := h.map fun _ _ => BitVec.eq_of_toNat_eq
  simpa using (hmap.subperm hsub).length_le

/-- At most 511 nodes (10_state.md R61). -/
theorem treeSize_le_of_nodup {t : Tree} (h : t.symbols.Nodup) : t.size ≤ 511 := by
  have := treeSize_add_one t
  have := nodup_bytes_length_le h
  omega

/-! ### Codeword lengths (10_state.md R48) -/

theorem tableGet_ofNat {α : Type} (t : Vector α 256) {i : Nat} (h : i < 256) : tableGet t (BitVec.ofNat 8 i) = t[i] := by
  simp [tableGet, Nat.mod_eq_of_lt h]

theorem maxCodeLength_le {c : Vector (List Bool) 256} {n : Nat} (h : ∀ v, (tableGet c v).length ≤ n) :
    maxCodeLength c ≤ n := by
  have hmem : ∀ w ∈ c.toList, w.length ≤ n := fun w hw => by
    obtain ⟨i, hi, rfl⟩ := Vector.mem_iff_getElem.mp (Vector.mem_toList_iff.mp hw)
    exact tableGet_ofNat c hi ▸ h (BitVec.ofNat 8 i)
  have hfold : ∀ l : List (List Bool), (∀ w ∈ l, w.length ≤ n) → l.foldr (fun w m => max w.length m) 0 ≤ n := by
    intro l hl
    induction l with
    | nil => exact Nat.zero_le n
    | cons w l ih =>
      exact Nat.max_le.mpr ⟨hl w List.mem_cons_self, ih fun w' hw' => hl w' (List.mem_cons_of_mem w hw')⟩
  exact hfold _ hmem

/-- A codeword is no longer than the path to it, and a path no longer than the tree has nodes. -/
theorem walkCodes_length_le {t : Tree} {p : List Bool} {c : Vector (List Bool) 256} {n : Nat}
    (hc : ∀ v, (tableGet c v).length ≤ n) (hp : p.length + t.size ≤ n) (v : Byte) :
    (tableGet (walkCodes t p c) v).length ≤ n := by
  induction t generalizing p c v with
  | leaf s =>
    simp only [walkCodes, tableGet_tableSet]
    split
    · omega
    · exact hc v
  | node l r ihl ihr =>
    simp only [Tree.size] at hp
    exact ihr (fun v => ihl hc (by simp; omega) v) (by simp; omega) v

theorem maxCodeLength_deriveCodes_le (t : Tree) : maxCodeLength (deriveCodes t) ≤ t.size := by
  refine maxCodeLength_le fun v => ?_
  cases t with
  | leaf s =>
    simp only [deriveCodes, emptyCodes, tableGet_tableSet, tableGet_replicate, Tree.size]
    split <;> simp
  | node l r => exact walkCodes_length_le (by simp [emptyCodes]) (by simp) v

end Sys2Proof.Machine

namespace Sys2Proof.Machine

/-! ## What the commands store fits where they store it -/

/-! ### Memories in canonical form below an address -/

/-- Canonical, with every listed address below `n`: what `State.bufOk` says of BUF. -/
def Mem.Within (m : Mem) (n : Nat) : Prop := m.wf = true ∧ m.inside n = true

theorem State.bufOk_iff (s : State) : s.bufOk ↔ s.buf.Within s.params.bufSize := Iff.rfl

theorem Mem.Within.store {m : Mem} {n a : Nat} {bs : List Byte} (h : m.Within n) (hb : a + bs.length ≤ n) :
    (m.store a bs).Within n :=
  ⟨Mem.store_wf h.1 a bs, Mem.store_inside h.2 hb⟩

theorem Mem.Within.placeBits {m : Mem} {n base q : Nat} {c : List Bool} (h : m.Within n)
    (hb : base + (q + c.length + 7) / 8 ≤ n) : (m.placeBits base q c).Within n :=
  ⟨Mem.placeBits_wf h.1 base q c, Mem.placeBits_inside h.2 hb⟩

/-- The padding of 43_huffman_encode.md R294 stays in the bytes the blob occupies. -/
theorem Mem.Within.padBlob {m : Mem} {n base e : Nat} (h : m.Within n) (hb : base + blobBytesFor e ≤ n) :
    (padBlob m base e).Within n := by
  refine h.placeBits ?_
  simp only [blobBytesFor, ceil16, List.length_replicate] at *
  omega

theorem Mem.Within.placeStreams {m : Mem} {n base q : Nat} {streams : List (List Bool)} (h : m.Within n)
    (hb : base + (q + streams.flatten.length + 7) / 8 ≤ n) : (placeStreams m base q streams).Within n := by
  induction streams generalizing m q with
  | nil => exact h
  | cons c rest ih =>
    simp only [List.flatten_cons, List.length_append] at hb
    exact ih (h.placeBits (by omega)) (by omega)

/-! ### The position table (43_huffman_encode.md R299) -/

theorem glyphStreams_length (m : Mem) (c : Vector (List Bool) 256) (a gs n : Nat) :
    (glyphStreams m c a gs n).length = n := by
  induction n generalizing a with
  | zero => rfl
  | succ n ih => simp [glyphStreams, ih]

theorem glyphStarts_length (q : Nat) (streams : List (List Bool)) : (glyphStarts q streams).length = streams.length := by
  induction streams generalizing q with
  | nil => rfl
  | cons c rest ih => simp [glyphStarts, ih]

theorem positionTable_length (starts : List Nat) : (positionTable starts).length = 4 * starts.length := by
  induction starts with
  | nil => rfl
  | cons st rest ih => simp only [positionTable, List.flatMap_cons, List.length_append, length_leBytes,
      List.length_cons] at *; omega

/-! ### The image of a parsed font (44_container.md R322) -/

/-- A step of a parse that answers had an answer before it. -/
theorem except_bind_eq_ok {ε α β : Type} {x : Except ε α} {f : α → Except ε β} {b : β} :
    (x >>= f) = .ok b ↔ ∃ a, x = .ok a ∧ f a = .ok b := by
  cases x with
  | error e => simp [bind, Except.bind]
  | ok a => simp [bind, Except.bind]

theorem parsePalette_length {m : Mem} {src : Source} {n o o' : Nat} {l : List (Byte × Byte × Byte)}
    (h : parsePalette m src n o = .ok (l, o')) : l.length = n := by
  induction n generalizing o l o' with
  | zero => simp [parsePalette] at h; simp [← h.1]
  | succ n ih =>
    simp only [parsePalette, except_bind_eq_ok] at h
    obtain ⟨r, -, g, -, b, -, a, -, ⟨rest, p⟩, hrest, h⟩ := h
    simp only [pure, Except.pure, Except.ok.injEq, Prod.mk.injEq] at h
    simp [← h.1, ih hrest]

theorem parseMetrics_length {m : Mem} {src : Source} {ngi n i o o' : Nat} {l : List GlyphMetrics}
    (h : parseMetrics m src ngi n i o = .ok (l, o')) : l.length = n := by
  induction n generalizing i o l o' with
  | zero => simp [parseMetrics] at h; simp [← h.1]
  | succ n ih =>
    unfold parseMetrics at h
    split at h
    · simp only [except_bind_eq_ok] at h
      obtain ⟨bx, -, adv, -, ⟨rest, p⟩, hrest, h⟩ := h
      simp only [pure, Except.pure, Except.ok.injEq, Prod.mk.injEq] at h
      simp [← h.1, ih hrest]
    · simp only [except_bind_eq_ok] at h
      obtain ⟨⟨rest, p⟩, hrest, h⟩ := h
      simp only [pure, Except.pure, Except.ok.injEq, Prod.mk.injEq] at h
      simp [← h.1, ih hrest]

theorem parseWidthTable_length {m : Mem} {src : Source} {g o o' : Nat} {l : List GlyphMetrics}
    (h : parseWidthTable m src g o = .ok (l, o')) : l.length = g := by
  simp only [parseWidthTable, except_bind_eq_ok] at h
  obtain ⟨len, -, h⟩ := h
  split at h
  · simp at h
  · exact parseMetrics_length h

theorem parsePositions_length {m : Mem} {src : Source} {n o o' : Nat} {l : List Int}
    (h : parsePositions m src n o = .ok (l, o')) : l.length = n := by
  induction n generalizing o l o' with
  | zero => simp [parsePositions] at h; simp [← h.1]
  | succ n ih =>
    simp only [parsePositions, except_bind_eq_ok] at h
    obtain ⟨v, -, ⟨rest, p⟩, hrest, h⟩ := h
    simp only [pure, Except.pure, Except.ok.injEq, Prod.mk.injEq] at h
    simp [← h.1, ih hrest]

/-- Each decoded image has two pixels per symbol. -/
theorem decodeImages_flatten_length {m : Mem} {d : DecodeSource} {gs i : Nat} {ps : List Int} {grids : List (List Byte)}
    (h : decodeImages m d gs i ps = .ok grids) : grids.flatten.length = ps.length * (2 * gs) := by
  induction ps generalizing i grids with
  | nil => simp [decodeImages] at h; simp [h]
  | cons pos rest ih =>
    unfold decodeImages at h
    split at h
    · simp at h
    · split at h
      · simp at h
      · rename_i px _ hpx
        split at h
        · simp at h
        · rename_i grids' hrest
          simp only [Except.ok.injEq] at h
          simp only [← h, List.flatten_cons, List.length_append, decodeCore_length hpx, ih hrest, List.length_cons]
          ring

theorem flatMap_palette_length (l : List (Byte × Byte × Byte)) :
    (l.flatMap fun c => [c.1, c.2.1, c.2.2]).length = 3 * l.length := by
  induction l with
  | nil => rfl
  | cons c rest ih => simp only [List.flatMap_cons, List.length_append, ih, List.length_cons, List.length_nil]; omega

theorem flatMap_metricsRecord_length (l : List GlyphMetrics) : (l.flatMap metricsRecord).length = 8 * l.length := by
  induction l with
  | nil => rfl
  | cons g rest ih =>
    simp only [List.flatMap_cons, List.length_append, ih, metricsRecord, length_leBytes, List.length_cons]
    omega

theorem fontImage_length (f : FontModel) :
    (fontImage f).length = 8 + 3 * f.palette.length + 8 * f.metrics.length + f.grids.flatten.length := by
  simp only [fontImage, List.length_append, length_leBytes, flatMap_palette_length, flatMap_metricsRecord_length]

/-- The image of a parsed font has the size its header declares, and that fits ARG3 (30_encoding.md R180,
44_container.md R322). -/
theorem parseContainer_fontImage_length {m : Mem} {ok : Word → Bool} {src : Source} {cap consumed : Nat} {f : FontModel}
    (h : parseContainer m ok src cap = .ok (f, consumed)) : (fontImage f).length ≤ cap := by
  simp only [parseContainer, except_bind_eq_ok] at h
  obtain ⟨⟨g, cw, ch, o⟩, -, h⟩ := h
  split at h
  · simp at h
  rename_i hcap
  simp only [except_bind_eq_ok] at h
  obtain ⟨⟨palette, o1⟩, hpal, ⟨metrics, o2⟩, hmet, o3, -, ⟨sec, o4⟩, -, o5, -, o6, -, ⟨positions, o7⟩, hpos, o8, -,
    h⟩ := h
  split at h
  · simp at h
  rename_i hdim
  simp only [except_bind_eq_ok] at h
  obtain ⟨grids, hgrids, h⟩ := h
  simp only [pure, Except.pure, Except.ok.injEq, Prod.mk.injEq] at h
  obtain ⟨rfl, -⟩ := h
  have hlen := decodeImages_flatten_length hgrids
  have hfill : (grids ++ List.replicate (g - min sec.numImages g) (List.replicate (cw * ch) (0 : Byte))).flatten.length =
      g * (cw * ch) := by
    rw [List.flatten_append, List.length_append, hlen, List.length_take, parsePositions_length hpos,
      List.flatten_replicate_replicate, List.length_replicate]
    rcases Nat.eq_zero_or_pos (min sec.numImages g) with h0 | h0
    · simp [h0]
    · have hsize : 2 * sec.glyphSize = cw * ch := by
        by_contra hne
        exact hdim ⟨h0, hne⟩
      have hmin : min (min sec.numImages g) sec.numImages = min sec.numImages g := by omega
      rw [hsize, hmin, ← Nat.add_mul]
      congr 1
      omega
  have hassoc : g * cw * ch = g * (cw * ch) := Nat.mul_assoc g cw ch
  rw [fontImage_length, parsePalette_length hpal, parseWidthTable_length hmet, hfill, ← hassoc]
  simp only [fontImageSize] at hcap
  omega

end Sys2Proof.Machine

namespace Sys2Proof.Machine

/-! ## What a command can answer -/

/-- What the command `i` does to the cursor, the tables and BUF of `s` before it completes without error. -/
inductive Effect (s : State) : Instr → State → Prop
  | nop : Effect s .nop s
  | placeCursor (hpos : s.arg 2 ≤ 8 * s.arg 1) (hregion : s.arg 0 + s.arg 1 ≤ s.params.bufSize) :
      Effect s .curSet (s.setCursor (s.arg 0) (s.arg 1) (s.arg 2))
  | read {i : Instr} (hi : i ∈ [Instr.curRd8, .curRd16, .curRd32, .curSkip, .curRdBits]) {q : Nat}
      (hq : q ≤ 8 * s.cur.len.toNat) : Effect s i (s.moveCursor q)
  | write {i : Instr} (hi : i ∈ [Instr.curWr8, .curWr16, .curWr32, .curWrBits]) {q : Nat}
      (hq : q ≤ 8 * s.cur.len.toNat) {m : Mem}
      (hm : s.buf.Within s.params.bufSize → m.Within s.params.bufSize) : Effect s i ((s.withBuf m).moveCursor q)
  | clearFreq : Effect s .hufFreqClear (s.setFreq (Vector.replicate 256 0) 0)
  | addFreq {bs : List Byte} (htotal : s.huf.total.toNat + bs.length < 2 ^ 32) :
      Effect s .hufFreqAdd (s.setFreq (countSymbols s.freq bs) (s.huf.total.toNat + bs.length))
  | build : Effect s .hufBuild (s.installTree (buildTree s.freq))
  | buildFrom {bs : List Byte} (hlen : bs.length < 2 ^ 32) {f : Vector Word 256}
      (hf : f = countSymbols (Vector.replicate 256 0) bs) :
      Effect s .hufBuildFrom ((s.setFreq f bs.length).installTree (buildTree f))
  | derive (htree : s.huf.treeValid = true) :
      Effect s .hufDerive (s.installCodes (deriveCodes s.tree) (maxCodeLength (deriveCodes s.tree)))
  | store {i : Instr}
      (hi : i ∈ [Instr.hufSerialize, .hufDumpCodes, .hufDecode, .hufPack, .hufEncode, .hufCompress, .fcpParse]) {m : Mem}
      (hm : s.hufOk → s.buf.Within s.params.bufSize → m.Within s.params.bufSize) : Effect s i (s.withBuf m)

/-- What the execution step of the command `i` can answer: an error completion, one with a havoc region (60_exceptions.md
R375), a completion after the command's effect, or, from a state that breaks the cursor's bounds only, a fault (log entry
8). -/
inductive Answers (i : Instr) (s : State) : Host.Outcome State Fault Refusal → Prop
  | raise (code : ErrCode) (info : Nat) : Answers i s (.next (s.raise code info))
  | raiseHavoc (hi : i ∈ [Instr.hufDecode, .fcpParse]) {a n : Nat} (hregion : a + n ≤ s.params.bufSize) (code : ErrCode)
      (info : Nat) : Answers i s (.next ((s.havoc a n).raise code info))
  | complete {u : State} (h : Effect s i u) (r0 r1 r2 r3 : Nat) : Answers i s (.next (u.complete r0 r1 r2 r3))
  | outside (h : ¬s.cursorOk) (a : Nat) : Answers i s (.fault (.outsideBuffer a))

/-- One check of a command's list: it raises its error or the command goes on. -/
theorem Answers.check {i : Instr} {s : State} {c : Prop} [Decidable c] {code : ErrCode} {info : Nat}
    {o : Host.Outcome State Fault Refusal} (h : ¬c → Answers i s o) :
    Answers i s (if c then .next (s.raise code info) else o) := by
  split
  · exact .raise code info
  · rename_i hc; exact h hc

/-- The check that a region operand is valid (20_memory.md R114). -/
theorem Answers.checkRegion {i : Instr} {s : State} {a n : Nat} {code : ErrCode} {info : Nat}
    {o : Host.Outcome State Fault Refusal} (h : a + n ≤ s.params.bufSize → Answers i s o) :
    Answers i s (if !s.regionValid a n then .next (s.raise code info) else o) :=
  .check fun hc => h (by simpa using hc)

/-- An engine access at the cursor: the bytes of a position inside the cursor's region exist (10_state.md R45). -/
theorem Answers.access {i : Instr} {s u : State} {n r0 r1 r2 r3 : Nat} (hend : s.cur.bitPos.toNat / 8 + n ≤ s.cur.len.toNat)
    (h : s.cursorByte + n ≤ s.params.bufSize → Effect s i u) :
    Answers i s (s.accessing s.cursorByte n (u.complete r0 r1 r2 r3)) := by
  unfold State.accessing
  split
  · rename_i hle; exact .complete (h hle) r0 r1 r2 r3
  · rename_i hgt
    refine .outside (fun hcur => hgt ?_) _
    have := hcur.1
    simp only [State.cursorByte]
    omega

/-! ### The cursor -/

theorem cursorRead_answers {i : Instr} (hi : i ∈ [Instr.curRd8, .curRd16, .curRd32, .curSkip, .curRdBits]) (s : State)
    (n : Nat) : Answers i s (s.cursorRead n) :=
  .check fun halign => .check fun hlen => .access (by omega) fun _ => .read hi (by omega)

theorem cursorWrite_answers {i : Instr} (hi : i ∈ [Instr.curWr8, .curWr16, .curWr32, .curWrBits]) (s : State) (n : Nat) :
    Answers i s (s.cursorWrite n) :=
  .check fun halign => .check fun hlen => .access (by omega) fun hle =>
    .write hi (by omega) fun hbuf => hbuf.store (by simpa using hle)

theorem execCurSet_answers (s : State) : Answers .curSet s (execCurSet s) :=
  .check fun hpos => .checkRegion fun hregion => .complete (.placeCursor (by omega) hregion) 0 0 0 0

theorem execCurSkip_answers (s : State) : Answers .curSkip s (execCurSkip s) :=
  .check fun halign => .check fun hlen => .complete (.read (by simp) (by omega)) _ _ _ _

theorem execCurRdBits_answers (s : State) : Answers .curRdBits s (execCurRdBits s) :=
  .check fun hn => .check fun hlen => .access (by simp only [bytesSpanned]; omega) fun _ => .read (by simp) (by omega)

theorem execCurWrBits_answers (s : State) : Answers .curWrBits s (execCurWrBits s) := by
  refine .check fun hn => .check fun hlen => .access (by simp only [bytesSpanned]; omega) fun hle =>
    .write (by simp) (by omega) fun hbuf => hbuf.placeBits ?_
  simp only [State.cursorByte, bytesSpanned, length_natToBits] at *
  omega

/-! ### The tree builder -/

theorem execHufFreqAdd_answers (s : State) : Answers .hufFreqAdd s (execHufFreqAdd s) := by
  refine .checkRegion fun _ => .check fun htotal => ?_
  have heffect : Effect s .hufFreqAdd _ := .addFreq (bs := s.buf.bytes (s.arg 0) (s.arg 1)) (by simp; omega)
  rw [Mem.length_bytes] at heffect
  exact .complete heffect _ _ _ _

theorem execHufBuildFrom_answers (s : State) : Answers .hufBuildFrom s (execHufBuildFrom s) := by
  refine .checkRegion fun _ => ?_
  have heffect : Effect s .hufBuildFrom _ :=
    .buildFrom (bs := s.buf.bytes (s.arg 0) (s.arg 1)) (by simpa using s.arg_lt 1) rfl
  rw [Mem.length_bytes] at heffect
  exact .complete heffect _ _ _ _

theorem execHufDerive_answers (s : State) : Answers .hufDerive s (execHufDerive s) :=
  .check fun htree => .complete (.derive (by simpa using htree)) _ _ _ _

theorem execHufSerialize_answers (s : State) : Answers .hufSerialize s (execHufSerialize s) := by
  refine .check fun htree => .checkRegion fun hregion => .check fun hneed =>
    .complete (.store (by simp) fun hhuf hbuf => hbuf.store ?_) _ _ _ _
  obtain ⟨-, -, -, hcount, -⟩ := hhuf
  have hvalid : s.huf.treeValid = true := by simpa using htree
  rw [hvalid, if_pos rfl] at hcount
  rw [serializeTree, serializeFrom_length]
  omega

theorem execHufDumpCodes_answers (s : State) : Answers .hufDumpCodes s (execHufDumpCodes s) :=
  .check fun _ => .checkRegion fun hregion => .check fun hneed =>
    .complete (.store (by simp) fun _ hbuf => hbuf.store (by rw [dumpCodes_length]; omega)) _ _ _ _

/-! ### The decoder, the encoder and the parser -/

theorem execHufDecode_answers (s : State) : Answers .hufDecode s (execHufDecode s) := by
  refine .checkRegion fun _ => .checkRegion fun _ => .checkRegion fun hdest => .check fun _ => ?_
  split
  · exact .raiseHavoc (by simp) hdest _ _
  · rename_i hout
    exact .complete (.store (by simp) fun _ hbuf => hbuf.store (by rw [decodeCore_length hout]; exact hdest)) _ _ _ _

theorem execHufPack_answers (s : State) : Answers .hufPack s (execHufPack s) := by
  refine .check fun _ => .checkRegion fun _ => .checkRegion fun hdest => .check fun _ => ?_
  split
  · exact .raise _ _
  · exact .complete (.store (by simp) fun _ hbuf =>
      hbuf.store (by rw [packPixels_length, Mem.length_bytes]; exact hdest)) _ _ _ _

theorem execHufEncode_answers (s : State) : Answers .hufEncode s (execHufEncode s) := by
  refine .check fun _ => .checkRegion fun _ => .checkRegion fun hdest => .check fun _ => ?_
  split
  · exact .raise _ _
  · refine .check fun hcap => .complete (.store (by simp) fun _ hbuf => (hbuf.placeBits ?_).padBlob ?_) _ _ _ _
    · simp only [blobBytesFor] at hcap; omega
    · omega

theorem execHufCompress_answers (s : State) : Answers .hufCompress s (execHufCompress s) := by
  refine .check fun _ => .checkRegion fun _ => .checkRegion fun hblob => .checkRegion fun htable => .check fun _ => ?_
  split
  · exact .raise _ _
  · refine .check fun hcap =>
      .complete (.store (by simp) fun _ hbuf => ((hbuf.placeStreams ?_).padBlob ?_).store ?_) _ _ _ _
    · simp only [blobBytesFor] at hcap; omega
    · omega
    · rw [positionTable_length, glyphStarts_length, glyphStreams_length]; exact htable

theorem execFcpParse_answers (s : State) : Answers .fcpParse s (execFcpParse s) := by
  refine .checkRegion fun _ => .checkRegion fun hdest => .check fun _ => ?_
  split
  · exact .raiseHavoc (by simp) hdest _ _
  · rename_i hparse
    have hlen := parseContainer_fontImage_length hparse
    exact .complete (.store (by simp) fun _ hbuf => hbuf.store (by omega)) _ _ _ _

/-! ### Every command -/

theorem exec_answers (i : Instr) (s : State) : Answers i s (exec i s) := by
  cases i with
  | nop => exact .complete .nop 0 0 0 0
  | curSet => exact execCurSet_answers s
  | curRd8 => exact cursorRead_answers (by simp) s 1
  | curRd16 => exact cursorRead_answers (by simp) s 2
  | curRd32 => exact cursorRead_answers (by simp) s 4
  | curWr8 => exact cursorWrite_answers (by simp) s 1
  | curWr16 => exact cursorWrite_answers (by simp) s 2
  | curWr32 => exact cursorWrite_answers (by simp) s 4
  | curSkip => exact execCurSkip_answers s
  | curRdBits => exact execCurRdBits_answers s
  | curWrBits => exact execCurWrBits_answers s
  | hufFreqClear => exact .complete .clearFreq 0 0 0 0
  | hufFreqAdd => exact execHufFreqAdd_answers s
  | hufBuild => exact .complete .build _ _ _ _
  | hufBuildFrom => exact execHufBuildFrom_answers s
  | hufDerive => exact execHufDerive_answers s
  | hufSerialize => exact execHufSerialize_answers s
  | hufDumpCodes => exact execHufDumpCodes_answers s
  | hufDecode => exact execHufDecode_answers s
  | hufPack => exact execHufPack_answers s
  | hufEncode => exact execHufEncode_answers s
  | hufCompress => exact execHufCompress_answers s
  | fcpParse => exact execFcpParse_answers s

/-- Everything an execution step that answers a next state can do. -/
theorem exec_cases {i : Instr} {s t : State} (h : exec i s = .next t) :
    (∃ code info, t = s.raise code info) ∨
    (∃ a n code info, i ∈ [Instr.hufDecode, .fcpParse] ∧ a + n ≤ s.params.bufSize ∧
      t = (s.havoc a n).raise code info) ∨
    (∃ u r0 r1 r2 r3, Effect s i u ∧ t = u.complete r0 r1 r2 r3) := by
  have hanswers := exec_answers i s
  rw [h] at hanswers
  cases hanswers with
  | raise code info => exact .inl ⟨code, info, rfl⟩
  | raiseHavoc hi hregion code info => exact .inr (.inl ⟨_, _, code, info, hi, hregion, rfl⟩)
  | complete heffect r0 r1 r2 r3 => exact .inr (.inr ⟨_, r0, r1, r2, r3, heffect, rfl⟩)

/-- While the cursor is in bounds no command faults. -/
theorem exec_answers_next {s : State} (h : s.cursorOk) (i : Instr) : ∃ t, exec i s = .next t := by
  generalize ho : exec i s = o
  cases ho ▸ exec_answers i s with
  | raise code info => exact ⟨_, rfl⟩
  | raiseHavoc hi hregion code info => exact ⟨_, rfl⟩
  | complete heffect r0 r1 r2 r3 => exact ⟨_, rfl⟩
  | outside hcur a => exact absurd h hcur

end Sys2Proof.Machine

namespace Sys2Proof.Machine

/-! ## What a command keeps -/

theorem State.hostSideKept_refl (s : State) : s.hostSideKept s := ⟨rfl, rfl, rfl, rfl, rfl, rfl, rfl⟩

/-- Before its completion a command touches no field of the host's and no field of the lifecycle. -/
theorem Effect.kept {s u : State} {i : Instr} (h : Effect s i u) :
    s.hostSideKept u ∧ u.status = s.status ∧ u.errInfo = s.errInfo ∧ u.params = s.params := by
  cases h <;> exact ⟨s.hostSideKept_refl, rfl, rfl, rfl⟩

/-- A command completes with DONE or ERR, and keeps what the host owns. -/
theorem exec_completes {i : Instr} {s t : State} (h : exec i s = .next t) :
    s.hostSideKept t ∧ t.pending = none ∧ t.status.busy = false ∧ (t.status.done = true ∨ t.status.err = true) := by
  obtain ⟨code, info, rfl⟩ | ⟨a, n, code, info, -, -, rfl⟩ | ⟨u, r0, r1, r2, r3, heffect, rfl⟩ := exec_cases h
  · exact ⟨s.hostSideKept_refl, rfl, rfl, .inr rfl⟩
  · exact ⟨s.hostSideKept_refl, rfl, rfl, .inr rfl⟩
  · obtain ⟨hhost, -⟩ := heffect.kept
    exact ⟨hhost, rfl, rfl, .inl rfl⟩

/-! ## What a host access can do -/

/-- What the host access `a` turns `s` into. -/
inductive HostEffect (s : State) : HostAccess → State → Prop
  | answer (a : HostAccess) (r : Response) (n : Nat) : HostEffect s a { s with response := r, freeIdx := n }
  | accept (c : Word) (hidle : s.status.busy = false) :
      HostEffect s (.write (BitVec.ofNat 32 0x004) .word c) ((s.accept c).respond .written)
  | reject (c : Word) (hbusy : s.status.busy = true) :
      HostEffect s (.write (BitVec.ofNat 32 0x004) .word c) (s.reject.respond .written)
  | writeStatus (a : HostAccess) (v : Word) : HostEffect s a ((s.writeStatus v).respond .written)
  | writeArg (a : HostAccess) (k : Fin 8) (v : Word) : HostEffect s a ((s.writeArg k v).respond .written)
  | writeIrqEn (a : HostAccess) (v : Word) : HostEffect s a ((s.writeIrqEn v).respond .written)
  | softReset (v : Word) (hv : v.getLsbD 0 = true) :
      HostEffect s (.write (BitVec.ofNat 32 0x05C) .word v) (s.softReset.respond .written)
  | store (a : HostAccess) (b : Nat) (bs : List Byte) (hregion : b + bs.length ≤ s.params.bufSize) :
      HostEffect s a ((s.withBuf (s.buf.store b bs)).respond .written)

theorem regAt_eq_cmd_iff (off : Nat) : regAt off = .cmd ↔ off = 0x004 := by
  simp only [regAt, ite_eq_iff, reduceCtorEq, and_false, and_true, or_false, false_or]
  omega

theorem regAt_eq_ctrl_iff (off : Nat) : regAt off = .ctrl ↔ off = 0x05C := by
  simp only [regAt, ite_eq_iff, reduceCtorEq, and_false, and_true, or_false, false_or]
  omega

theorem regAccessOk_iff (off : Nat) (w : AccessWidth) : regAccessOk off w = true ↔ w = .word ∧ off % 4 = 0 := by
  simp [regAccessOk]

theorem targetOf_eq_reg_iff (p : Params) (addr : Word) (off : Nat) :
    targetOf p addr = .reg off ↔ addr.toNat < 0x1000 ∧ addr.toNat = off := by
  unfold targetOf
  split_ifs <;> simp <;> omega

/-- A register offset is the address itself. -/
theorem eq_ofNat_of_targetOf_eq_reg {p : Params} {addr : Word} {off : Nat} (h : targetOf p addr = .reg off) :
    addr = BitVec.ofNat 32 off := by
  obtain ⟨-, rfl⟩ := (targetOf_eq_reg_iff p addr off).mp h
  simp

theorem State.regRead_effect (s : State) (a : HostAccess) (r : Reg) : HostEffect s a (s.regRead r) := by
  unfold State.regRead
  split
  · exact .answer a _ _
  · exact .answer a _ s.freeIdx

/-- A register write of an allowed access, by the register it names. -/
theorem State.regWrite_effect (s : State) (v : Word) (off : Nat) :
    HostEffect s (.write (BitVec.ofNat 32 off) .word v) ((s.regWrite v (regAt off)).respond .written) := by
  cases hr : regAt off with
  | cmd =>
    obtain rfl := (regAt_eq_cmd_iff off).mp hr
    simp only [State.regWrite, State.issue]
    split
    · rename_i hbusy; exact .reject v hbusy
    · rename_i hidle; exact .accept v (by simpa using hidle)
  | ctrl =>
    obtain rfl := (regAt_eq_ctrl_iff off).mp hr
    simp only [State.regWrite]
    split
    · rename_i hv; exact .softReset v hv
    · exact .answer _ _ s.freeIdx
  | status => exact .writeStatus _ v
  | arg k => exact .writeArg _ k v
  | irqEn => exact .writeIrqEn _ v
  | id | errInfo | res | curBase | curLen | curBitPos | hufState | hufTotal | hufMaxLen | freq | codeLen | reserved =>
    exact .answer _ _ s.freeIdx

theorem State.hostAccess_effect (s : State) (a : HostAccess) : HostEffect s a (s.hostAccess a) := by
  obtain ⟨addr, w, off, rfl, -, -, heq⟩ | ⟨addr, w, v, off, rfl, htarget, hok, heq⟩ | ⟨addr, w, b, rfl, -, -, heq⟩ |
    ⟨addr, w, v, b, rfl, -, hok, heq⟩ | heq := s.hostAccess_cases a <;> rw [heq]
  · exact s.regRead_effect _ _
  · obtain ⟨rfl, -⟩ := (regAccessOk_iff off w).mp hok
    exact eq_ofNat_of_targetOf_eq_reg htarget ▸ s.regWrite_effect v off
  · exact .answer _ _ s.freeIdx
  · obtain ⟨-, hregion⟩ : b % w.bytes = 0 ∧ b + w.bytes ≤ s.params.bufSize := by simpa [bufAccessOk] using hok
    exact .store _ b _ (by simpa using hregion)
  · exact .answer _ _ s.freeIdx

/-! ## The resets -/

/-- The state a soft reset resets: the running command's destination bytes made unspecified (70_reset_and_hazards.md R412). -/
theorem State.softReset_eq (s : State) :
    ∃ l, s.softReset = (s.havocAll l).resetRegisters ∧ (s.status.busy = true → l = s.pendingDestRegions) ∧
      (s.status.busy = false → l = []) := by
  cases hbusy : s.status.busy with
  | true => exact ⟨s.pendingDestRegions, by simp [State.softReset, hbusy], by simp, by simp⟩
  | false => exact ⟨[], by simp [State.softReset, hbusy, State.havocAll], by simp, by simp⟩

theorem State.reset_lifecycleOk : State.reset.lifecycleOk := by
  simp [State.lifecycleOk, State.reset]

/-- The lifecycle is a property of STATUS, ERRINFO and PENDING. -/
theorem State.lifecycleOk_congr {s t : State} (hstatus : t.status = s.status) (herr : t.errInfo = s.errInfo)
    (hpending : t.pending = s.pending) (h : s.lifecycleOk) : t.lifecycleOk := by
  simpa only [State.lifecycleOk, hstatus, herr, hpending] using h

theorem State.resetRegisters_lifecycleOk (s : State) : s.resetRegisters.lifecycleOk :=
  State.lifecycleOk_congr (s := State.reset) rfl rfl rfl State.reset_lifecycleOk

/-- With its parameters in range and BUF inside, a state whose registers are reset meets the whole invariant. -/
theorem State.resetRegisters_inv {s : State} (hparams : s.params.wf = true) (hbuf : s.bufOk) : s.resetRegisters.Inv where
  params := hparams
  buf := hbuf
  lifecycle := s.resetRegisters_lifecycleOk
  cursor := by simp [State.cursorOk, State.reset]
  freq := freqSum_replicate_zero.symm
  huf := by simp [State.hufOk, State.reset]

theorem State.havocAll_bufOk {s : State} (h : s.bufOk) (l : List (Nat × Nat)) : (s.havocAll l).bufOk := by
  obtain ⟨hwf, hinside⟩ := h
  exact ⟨State.havocAll_wf hwf, by rw [State.havocAll_params]; exact State.havocAll_inside hwf hinside⟩

theorem State.havoc_bufOk {s : State} {a n : Nat} (h : s.bufOk) (hregion : a + n ≤ s.params.bufSize) : (s.havoc a n).bufOk :=
  Mem.Within.store h (by simpa using hregion)

/-! ## One step -/

/-- A property that a completion of a pending command, an unsupported word, a host access, a power-on reset and the event's removal
from the script all keep is kept by every step. -/
theorem step_preserves {P : State → Prop}
    (hexec : ∀ i s t p, P s → s.pending = some p → exec i s = .next t → P t)
    (hunsupported : ∀ s p, P s → s.pending = some p → P (s.raise .unsupported p.word.toNat))
    (hhost : ∀ s a, P s → P (s.hostAccess a)) (hpower : ∀ s, P s → P s.powerOn) (hdrop : ∀ s, P s → P s.dropEvent)
    {s t : State} (hs : P s) (h : step s = .next t) : P t := by
  have hrun : ∀ u, P u → u.executePending = .next t → P t := by
    intro u hu hstep
    obtain ⟨-, rfl⟩ | ⟨p, i, hp, -, hi⟩ | ⟨p, e, hp, -, rfl⟩ := State.executePending_cases hstep
    · exact hu
    · exact hexec i u t p hu hp hi
    · exact hunsupported u p hu hp
  obtain ⟨-, h⟩ | ⟨rest, -, h⟩ | ⟨rest, -, rfl⟩ | ⟨a, rest, -, -, h⟩ | ⟨a, rest, -, -, rfl⟩ := step_cases h
  · exact hrun s hs h
  · exact hrun s.dropEvent (hdrop s hs) h
  · exact hpower _ (hdrop s hs)
  · exact hrun s hs h
  · exact hhost _ a (hdrop s hs)

/-- A step stops only where the execution step of the pending command does. -/
theorem step_answers_next {s : State} (h : ∀ i, ∃ t, exec i s = .next t) (hdrop : ∀ i, ∃ t, exec i s.dropEvent = .next t) :
    ∃ t, step s = .next t := by
  have hrun : ∀ u : State, (∀ i, ∃ t, exec i u = .next t) → ∃ t, u.executePending = .next t := by
    intro u hu
    unfold State.executePending
    split
    · exact ⟨_, rfl⟩
    · split
      · exact hu _
      · exact ⟨_, rfl⟩
  unfold step State.advance
  split
  · exact hrun s h
  · exact hrun _ hdrop
  · exact ⟨_, rfl⟩
  · split
    · exact hrun s h
    · exact ⟨_, rfl⟩

/-! ### The lifecycle -/

/-- An error completes a pending command. -/
theorem State.raise_lifecycleOk {s : State} {p : Pending} (h : s.lifecycleOk) (hp : s.pending = some p) (code : ErrCode)
    (info : Nat) : (s.raise code info).lifecycleOk := by
  obtain ⟨hbusy, -, hrunning, -, -, -⟩ := h
  obtain ⟨hdone, -⟩ := hrunning (by rw [hbusy, hp]; rfl)
  simp [State.lifecycleOk, hdone]

theorem State.complete_lifecycleOk {s : State} {p : Pending} (h : s.lifecycleOk) (hp : s.pending = some p)
    (r0 r1 r2 r3 : Nat) : (s.complete r0 r1 r2 r3).lifecycleOk := by
  obtain ⟨hbusy, -, hrunning, -, -, -⟩ := h
  obtain ⟨-, herr, hcode, hinfo⟩ := hrunning (by rw [hbusy, hp]; rfl)
  simp [State.lifecycleOk, herr, hcode, hinfo]

theorem exec_lifecycleOk {i : Instr} {s t : State} {p : Pending} (h : s.lifecycleOk) (hp : s.pending = some p)
    (hexec : exec i s = .next t) : t.lifecycleOk := by
  obtain ⟨code, info, rfl⟩ | ⟨a, n, code, info, -, -, rfl⟩ | ⟨u, r0, r1, r2, r3, heffect, rfl⟩ := exec_cases hexec
  · exact State.raise_lifecycleOk h hp code info
  · exact State.raise_lifecycleOk (s := s.havoc a n) h hp code info
  · obtain ⟨-, hstatus, herr, -⟩ := heffect.kept
    exact State.lifecycleOk_congr (s := s.complete) (by simp [hstatus]) (by simp [herr]) rfl
      (State.complete_lifecycleOk h hp 0 0 0 0)

theorem HostEffect.lifecycleOk {s t : State} {a : HostAccess} (h : HostEffect s a t) (hs : s.lifecycleOk) : t.lifecycleOk := by
  cases h with
  | answer r n => exact hs
  | accept c hidle => simp [State.lifecycleOk]
  | reject c hbusy => exact hs
  | writeStatus a v =>
    obtain ⟨hbusy, hexcl, hrunning, hop, hdone, hcode⟩ := hs
    refine ⟨hbusy, fun hboth => hexcl ?_, fun hb => ?_, hop, fun hd => hdone ?_, hcode⟩
    · simp only [State.respond_status, State.writeStatus_status, Bool.and_eq_true] at hboth
      exact ⟨hboth.1.1, hboth.2.1⟩
    · obtain ⟨hd, he, hinfo⟩ := hrunning hb
      exact ⟨by simp [hd], by simp [he], hinfo⟩
    · simp only [State.respond_status, State.writeStatus_status, Bool.and_eq_true] at hd
      exact hd.1
  | writeArg a k v => exact hs
  | writeIrqEn a v => exact hs
  | softReset v hv =>
    obtain ⟨l, heq, -, -⟩ := s.softReset_eq
    rw [heq]
    exact (s.havocAll l).resetRegisters_lifecycleOk
  | store a b bs hregion => exact hs

theorem step_lifecycleOk {s t : State} (hs : s.lifecycleOk) (h : step s = .next t) : t.lifecycleOk :=
  step_preserves (P := State.lifecycleOk) (fun _ _ _ _ hs hp hexec => exec_lifecycleOk hs hp hexec)
    (fun _ _ hs hp => State.raise_lifecycleOk hs hp _ _) (fun s a hs => (s.hostAccess_effect a).lifecycleOk hs)
    (fun s _ => s.resetRegisters_lifecycleOk) (fun _ hs => hs) hs h

/-! ### The whole invariant -/

/-- BUF stays canonical and inside; what HUF_SERIALIZE writes is bounded by the tree's invariants. -/
theorem Effect.bufOk {s u : State} {i : Instr} (h : Effect s i u) (hbuf : s.bufOk) (hhuf : s.hufOk) : u.bufOk := by
  cases h with
  | write hi hq hm => exact (State.bufOk_iff _).mpr (hm hbuf)
  | store hi hm => exact (State.bufOk_iff _).mpr (hm hhuf hbuf)
  | nop | placeCursor | read | clearFreq | addFreq | build | buildFrom | derive => exact hbuf

theorem toNat_ofNat_of_lt {n : Nat} (h : n < 2 ^ 32) : (BitVec.ofNat 32 n).toNat = n := by
  rw [BitVec.toNat_ofNat, Nat.mod_eq_of_lt h]

/-- A position inside a cursor's region is a 32-bit value, because BUF has at most 2^24 bytes (00_scope.md R9). -/
theorem State.moveCursor_cursorOk {s : State} {q : Nat} (hparams : s.params.wf = true) (hcur : s.cursorOk)
    (hq : q ≤ 8 * s.cur.len.toNat) : (s.moveCursor q).cursorOk := by
  obtain ⟨hregion, -⟩ := hcur
  simp only [Params.wf, Bool.and_eq_true, decide_eq_true_eq] at hparams
  exact ⟨hregion, by simpa [toNat_ofNat_of_lt (show q < 2 ^ 32 by omega)] using hq⟩

theorem Effect.cursorOk {s u : State} {i : Instr} (h : Effect s i u) (hparams : s.params.wf = true) (hcur : s.cursorOk) :
    u.cursorOk := by
  cases h with
  | placeCursor hpos hregion =>
    simp only [State.cursorOk, State.setCursor_cur, State.setCursor_params, toNat_ofNat_of_lt (s.arg_lt _)]
    exact ⟨hregion, hpos⟩
  | read hi hq => exact State.moveCursor_cursorOk hparams hcur hq
  | write hi hq hm => exact State.moveCursor_cursorOk (s := s.withBuf _) hparams hcur hq
  | nop | clearFreq | addFreq | build | buildFrom | derive | store => exact hcur

theorem Effect.freqOk {s u : State} {i : Instr} (h : Effect s i u) (hfreq : s.freqOk) : u.freqOk := by
  cases h with
  | clearFreq => exact freqSum_replicate_zero.symm
  | addFreq htotal =>
    simp only [State.freqOk] at hfreq
    simp only [State.freqOk, State.setFreq_huf, State.setFreq_freq]
    rw [toNat_ofNat_of_lt htotal, freqSum_countSymbols _ _ (by omega), hfreq]
  | buildFrom hlen hf =>
    simp only [State.freqOk, State.installTree_huf, State.setFreq_huf, State.installTree_freq, State.setFreq_freq]
    rw [toNat_ofNat_of_lt hlen, hf, freqSum_countSymbols _ _ (by rw [freqSum_replicate_zero]; omega),
      freqSum_replicate_zero, Nat.zero_add]
  | nop | placeCursor | read | write | build | derive | store => exact hfreq

/-- A tree of distinct leaves installed: its flags and its node count, which fits the nine bits of NODE_COUNT. -/
theorem State.installTree_hufOk (s : State) {t : Tree} (h : t.symbols.Nodup) : (s.installTree t).hufOk := by
  have hsize := treeSize_le_of_nodup h
  simpa [State.hufOk] using ⟨h, (by omega : t.size < 512)⟩

theorem State.installCodes_hufOk {s : State} (hhuf : s.hufOk) (htree : s.huf.treeValid = true) :
    (s.installCodes (deriveCodes s.tree) (maxCodeLength (deriveCodes s.tree))).hufOk := by
  obtain ⟨hnodup, -, hleaf, hcount, -⟩ := hhuf
  have hmax := maxCodeLength_deriveCodes_le s.tree
  have hsize := treeSize_le_of_nodup (hnodup htree)
  refine ⟨hnodup, fun _ => ⟨htree, rfl⟩, hleaf, hcount, ?_⟩
  exact toNat_ofNat_of_lt (by omega)

theorem Effect.hufOk {s u : State} {i : Instr} (h : Effect s i u) (hhuf : s.hufOk) : u.hufOk := by
  cases h with
  | build => exact s.installTree_hufOk (buildTree_symbols_nodup _)
  | buildFrom => exact State.installTree_hufOk _ (buildTree_symbols_nodup _)
  | derive htree => exact State.installCodes_hufOk hhuf htree
  | nop | placeCursor | read | write | clearFreq | addFreq | store => exact hhuf

theorem exec_inv {i : Instr} {s t : State} {p : Pending} (hs : s.Inv) (hp : s.pending = some p) (h : exec i s = .next t) :
    t.Inv := by
  have hlife := exec_lifecycleOk hs.lifecycle hp h
  obtain ⟨code, info, rfl⟩ | ⟨a, n, code, info, -, hregion, rfl⟩ | ⟨u, r0, r1, r2, r3, heffect, rfl⟩ := exec_cases h
  · exact ⟨hs.params, hs.buf, hlife, hs.cursor, hs.freq, hs.huf⟩
  · exact ⟨hs.params, State.havoc_bufOk hs.buf hregion, hlife, hs.cursor, hs.freq, hs.huf⟩
  · obtain ⟨-, -, -, hparams⟩ := heffect.kept
    exact ⟨by rw [State.complete_params, hparams]; exact hs.params, heffect.bufOk hs.buf hs.huf, hlife,
      heffect.cursorOk hs.params hs.cursor, heffect.freqOk hs.freq, heffect.hufOk hs.huf⟩

theorem State.raise_inv {s : State} {p : Pending} (hs : s.Inv) (hp : s.pending = some p) (code : ErrCode) (info : Nat) :
    (s.raise code info).Inv :=
  ⟨hs.params, hs.buf, State.raise_lifecycleOk hs.lifecycle hp code info, hs.cursor, hs.freq, hs.huf⟩

theorem HostEffect.inv {s t : State} {a : HostAccess} (h : HostEffect s a t) (hs : s.Inv) : t.Inv := by
  have hlife := h.lifecycleOk hs.lifecycle
  cases h with
  | softReset v hv =>
    obtain ⟨l, heq, -, -⟩ := s.softReset_eq
    have hreset : (s.havocAll l).resetRegisters.Inv :=
      State.resetRegisters_inv (by rw [State.havocAll_params]; exact hs.params) (State.havocAll_bufOk hs.buf l)
    rw [heq]
    exact ⟨hreset.params, hreset.buf, hreset.lifecycle, hreset.cursor, hreset.freq, hreset.huf⟩
  | store a b bs hregion => exact ⟨hs.params, Mem.Within.store hs.buf hregion, hlife, hs.cursor, hs.freq, hs.huf⟩
  | answer | accept | reject | writeStatus | writeArg | writeIrqEn =>
    exact ⟨hs.params, hs.buf, hlife, hs.cursor, hs.freq, hs.huf⟩

theorem State.powerOn_inv {s : State} (hs : s.Inv) : s.powerOn.Inv := by
  have hreset := State.resetRegisters_inv hs.params hs.buf
  exact ⟨hreset.params, State.havoc_bufOk hreset.buf (by simp), hreset.lifecycle, hreset.cursor, hreset.freq, hreset.huf⟩

theorem State.dropEvent_inv {s : State} (hs : s.Inv) : s.dropEvent.Inv :=
  ⟨hs.params, hs.buf, hs.lifecycle, hs.cursor, hs.freq, hs.huf⟩

theorem step_inv {s t : State} (hs : s.Inv) (h : step s = .next t) : t.Inv :=
  step_preserves (P := State.Inv) (fun _ _ _ _ hs hp hexec => exec_inv hs hp hexec)
    (fun _ _ hs hp => State.raise_inv hs hp _ _) (fun s a hs => (s.hostAccess_effect a).inv hs)
    (fun _ hs => State.powerOn_inv hs) (fun _ hs => State.dropEvent_inv hs) hs h

/-- Settles O59: a step answers a next state because no command faults while the cursor is in bounds, and each thing a step can do
keeps each clause of the invariant. -/
theorem invariantStatesStepToInvariantStates : Obligations.InvariantStatesStepToInvariantStates := by
  intro s hs
  obtain ⟨t, ht⟩ := step_answers_next (exec_answers_next hs.cursor) (exec_answers_next (s := s.dropEvent) hs.cursor)
  exact ⟨t, ht, step_inv hs ht⟩

/-- Settles O58: the lifecycle is kept by each thing a step can do, so by the step. -/
theorem everyStepKeepsTheLifecycle : Obligations.EveryStepKeepsTheLifecycle :=
  fun _ _ hs h => step_lifecycleOk hs h

/-- Settles O60: reset is a state whose registers are reset, with the reference parameters and an empty BUF. -/
theorem resetMeetsTheInvariant : Obligations.ResetMeetsTheInvariant :=
  State.resetRegisters_inv (s := State.reset) rfl ⟨rfl, rfl⟩

end Sys2Proof.Machine

namespace Sys2Proof.Machine

/-! ## Which command writes which state (10_state.md R64) -/

theorem Effect.cur_kept_or {s u : State} {i : Instr} (h : Effect s i u) :
    u.cur = s.cur ∨
      i ∈ [Instr.curSet, .curRd8, .curRd16, .curRd32, .curWr8, .curWr16, .curWr32, .curSkip, .curRdBits, .curWrBits] := by
  cases h with
  | placeCursor => exact .inr (by decide)
  | read hi => exact .inr ((by decide : [Instr.curRd8, .curRd16, .curRd32, .curSkip, .curRdBits] ⊆ _) hi)
  | write hi => exact .inr ((by decide : [Instr.curWr8, .curWr16, .curWr32, .curWrBits] ⊆ _) hi)
  | nop | clearFreq | addFreq | build | buildFrom | derive | store => exact .inl rfl

theorem Effect.freq_kept_or {s u : State} {i : Instr} (h : Effect s i u) :
    (u.freq = s.freq ∧ u.huf.total = s.huf.total) ∨ i ∈ [Instr.hufFreqClear, .hufFreqAdd, .hufBuildFrom] := by
  cases h with
  | clearFreq | addFreq | buildFrom => exact .inr (by decide)
  | nop | placeCursor | read | write | build | derive | store => exact .inl ⟨rfl, rfl⟩

theorem Effect.tree_kept_or {s u : State} {i : Instr} (h : Effect s i u) :
    (u.tree = s.tree ∧ u.huf.nodeCount = s.huf.nodeCount ∧ u.huf.leafRoot = s.huf.leafRoot ∧
      u.huf.treeValid = s.huf.treeValid) ∨ i ∈ [Instr.hufBuild, .hufBuildFrom] := by
  cases h with
  | build | buildFrom => exact .inr (by decide)
  | nop | placeCursor | read | write | clearFreq | addFreq | derive | store => exact .inl ⟨rfl, rfl, rfl, rfl⟩

/-- A build makes the codes invalid, and leaves their contents (log entry 20). -/
theorem Effect.code_kept_or {s u : State} {i : Instr} (h : Effect s i u) :
    (u.code = s.code ∧ (u.huf.codesValid = s.huf.codesValid ∨ u.huf.codesValid = false)) ∨ i = .hufDerive := by
  cases h with
  | derive => exact .inr rfl
  | build | buildFrom => exact .inl ⟨rfl, .inr rfl⟩
  | nop | placeCursor | read | write | clearFreq | addFreq | store => exact .inl ⟨rfl, .inl rfl⟩

theorem Effect.buf_kept_or {s u : State} {i : Instr} (h : Effect s i u) :
    u.buf = s.buf ∨
      i ∈ [Instr.curWr8, .curWr16, .curWr32, .curWrBits, .hufSerialize, .hufDumpCodes, .hufDecode, .hufPack, .hufEncode,
        .hufCompress, .fcpParse] := by
  cases h with
  | write hi => exact .inr ((by decide : [Instr.curWr8, .curWr16, .curWr32, .curWrBits] ⊆ _) hi)
  | store hi =>
    exact .inr ((by decide :
      [Instr.hufSerialize, .hufDumpCodes, .hufDecode, .hufPack, .hufEncode, .hufCompress, .fcpParse] ⊆ _) hi)
  | nop | placeCursor | read | clearFreq | addFreq | build | buildFrom | derive => exact .inl rfl

theorem State.bufKept_of_buf_eq {s t : State} (h : t.buf = s.buf) : s.bufKept t := fun x => by rw [h]

/-- Settles O39. An error completion keeps the cursor and the tables, and BUF but for the havoc region of the two commands that have
one; a completion keeps what its command's effect keeps. -/
theorem onlyNamedCommandsWriteEachState : Obligations.OnlyNamedCommandsWriteEachState := by
  intro i s t h
  obtain ⟨hhost, hpending, hbusy, -⟩ := exec_completes h
  refine ⟨hhost, hpending, hbusy, ?_⟩
  obtain ⟨code, info, rfl⟩ | ⟨a, n, code, info, hi, -, rfl⟩ | ⟨u, r0, r1, r2, r3, heffect, rfl⟩ := exec_cases h
  · simpa [State.bufKept] using Or.inl
  · have hnamed := (by decide : [Instr.hufDecode, .fcpParse] ⊆ [Instr.curWr8, .curWr16, .curWr32, .curWrBits,
      .hufSerialize, .hufDumpCodes, .hufDecode, .hufPack, .hufEncode, .hufCompress, .fcpParse]) hi
    exact ⟨by simp, by simp, by simp, by simp, .inl, fun _ => hnamed⟩
  · refine ⟨heffect.cur_kept_or.resolve_left, fun hne => heffect.freq_kept_or.resolve_left ?_,
      fun hne => heffect.tree_kept_or.resolve_left ?_, fun hne => heffect.code_kept_or.resolve_left fun hkept => hne hkept.1,
      fun hvalid => ?_, fun hne => heffect.buf_kept_or.resolve_left fun hbuf => hne (State.bufKept_of_buf_eq hbuf)⟩
    · rintro ⟨hfreq, htotal⟩
      exact hne.elim (· hfreq) (· htotal)
    · rintro ⟨htree, hcount, hleaf, hv⟩
      exact hne.elim (· htree) (·.elim (· hcount) (·.elim (· hleaf) (· hv)))
    · obtain ⟨-, hsame | hoff⟩ | hi := heffect.code_kept_or
      · exact .inl (hsame ▸ hvalid)
      · simp [hoff] at hvalid
      · exact .inr hi

/-! ## Which events change BUSY (10_state.md R36) -/

theorem targetOf_eq_buf_iff (p : Params) (addr : Word) (b : Nat) :
    targetOf p addr = .buf b ↔
      0x01000000 ≤ addr.toNat ∧ addr.toNat < 0x01000000 + p.bufSize ∧ addr.toNat = 0x01000000 + b := by
  unfold targetOf bufWindow
  split_ifs <;> simp <;> omega

/-- A held access is one to the BUF window while BUSY = 1 (20_memory.md R109). -/
theorem State.holds_iff (s : State) (a : HostAccess) :
    s.holds a = true ↔ s.status.busy = true ∧ a.inBufWindow s.params := by
  simp only [State.holds, Bool.and_eq_true, HostAccess.inBufWindow]
  refine and_congr_right fun _ => ?_
  cases ht : targetOf s.params a.addr with
  | buf b =>
    obtain ⟨hlo, hhi, -⟩ := (targetOf_eq_buf_iff s.params a.addr b).mp ht
    simp [hlo, hhi]
  | reg off =>
    have := (targetOf_eq_reg_iff s.params a.addr off).mp ht
    simp; omega
  | nothing =>
    simp only [Bool.false_eq_true, false_iff]
    rintro ⟨hlo, hhi⟩
    have := (targetOf_eq_buf_iff s.params a.addr (a.addr.toNat - 0x01000000)).mpr ⟨hlo, hhi, by omega⟩
    simp [ht] at this

/-- The engine's step never sets BUSY, and clears it only by completing the pending command. -/
theorem State.executePending_busy {s t : State} (h : s.executePending = .next t) :
    (s.status.busy = false → t.status.busy ≠ true) ∧
    (s.status.busy = true → t.status.busy = false →
      s.pending ≠ none ∧ t.pending = none ∧ (t.status.done = true ∨ t.status.err = true)) := by
  obtain ⟨-, rfl⟩ | ⟨p, i, hp, -, hi⟩ | ⟨p, e, hp, -, rfl⟩ := State.executePending_cases h
  · simp +contextual
  · obtain ⟨-, hpending, hbusy, hreport⟩ := exec_completes hi
    exact ⟨by simp [hbusy], fun _ _ => ⟨by simp [hp], hpending, hreport⟩⟩
  · simp [hp]

theorem State.softReset_busy (s : State) : s.softReset.status.busy = false := by
  obtain ⟨l, heq, -, -⟩ := s.softReset_eq
  rw [heq]
  rfl

/-- A host access changes BUSY only by an accepted command or a soft reset. -/
theorem HostEffect.busy {s t : State} {a : HostAccess} (h : HostEffect s a t) :
    t.status.busy = s.status.busy ∨
    (∃ c, a = .write (BitVec.ofNat 32 0x004) .word c ∧ s.status.busy = false ∧
      t.pending = some { word := c, args := s.args }) ∨
    (∃ v : Word, a = .write (BitVec.ofNat 32 0x05C) .word v ∧ v.getLsbD 0 = true ∧ t.status.busy = false) := by
  cases h with
  | accept c hidle => exact .inr (.inl ⟨c, rfl, hidle, rfl⟩)
  | softReset v hv => exact .inr (.inr ⟨v, rfl, hv, s.softReset_busy⟩)
  | answer | reject | writeStatus | writeArg | writeIrqEn | store => exact .inl rfl

/-- Everything one step can do, by who moves: the engine (no event left, its own event, or a held BUF access), a power-on reset,
or the host. -/
theorem step_cases_by_mover {s t : State} (h : step s = .next t) :
    ((s.script = [] ∨ (∃ rest, s.script = .engine :: rest) ∨
        ∃ a rest, s.script = .host a :: rest ∧ a.inBufWindow s.params) ∧
      ∃ u : State, u.status = s.status ∧ u.pending = s.pending ∧ u.executePending = .next t) ∨
    (∃ rest, s.script = .powerOn :: rest ∧ t = s.dropEvent.powerOn) ∨
    (∃ a rest, s.script = .host a :: rest ∧ t = s.dropEvent.hostAccess a) := by
  obtain ⟨hscript, h⟩ | ⟨rest, hscript, h⟩ | hpower | ⟨a, rest, hscript, hheld, h⟩ | ⟨a, rest, hscript, -, h⟩ :=
    step_cases h
  · exact .inl ⟨.inl hscript, s, rfl, rfl, h⟩
  · exact .inl ⟨.inr (.inl ⟨rest, hscript⟩), s.dropEvent, rfl, rfl, h⟩
  · exact .inr (.inl hpower)
  · obtain ⟨-, hwindow⟩ := (s.holds_iff a).mp hheld
    exact .inl ⟨.inr (.inr ⟨a, rest, hscript, hwindow⟩), s, rfl, rfl, h⟩
  · exact .inr (.inr ⟨a, rest, hscript, h⟩)

/-- Settles O40: among the things a step can do, only an accepted CMD write sets BUSY, and only a completion, a power-on reset or
a soft reset clears it. -/
theorem onlyTheNamedEventsChangeBusy : Obligations.OnlyTheNamedEventsChangeBusy := by
  intro s t h
  obtain ⟨hevent, u, hstatus, hpending, h⟩ | ⟨rest, hscript, rfl⟩ | ⟨a, rest, hscript, rfl⟩ := step_cases_by_mover h
  · obtain ⟨hset, hclear⟩ := State.executePending_busy h
    rw [hstatus] at hset hclear
    refine ⟨fun hidle hbusy => absurd hbusy (hset hidle), fun hbusy hidle => .inl ?_⟩
    obtain ⟨hsome, hnone, hreport⟩ := hclear hbusy hidle
    exact ⟨hpending ▸ hsome, hnone, hreport, hevent⟩
  · exact ⟨fun _ hset => absurd hset (by simp [State.powerOn, State.reset]),
      fun _ _ => .inr ⟨.powerOn, rest, hscript, .inl rfl⟩⟩
  · obtain hsame | ⟨c, rfl, hidle, hpending⟩ | ⟨v, rfl, hv, hclear⟩ := (s.dropEvent.hostAccess_effect a).busy
    · rw [hsame]
      exact ⟨fun hidle hbusy => absurd (hidle.symm.trans hbusy) (by simp),
        fun hbusy hidle => absurd (hidle.symm.trans hbusy) (by simp)⟩
    · exact ⟨fun _ _ => ⟨c, rest, hscript, hpending⟩, fun hset => absurd hset (by simpa using hidle)⟩
    · exact ⟨fun _ hset => absurd hset (by simp [hclear]),
        fun _ _ => .inr ⟨ctrlLine v, rest, hscript, .inr ⟨v, rfl, hv⟩⟩⟩

/-! ## The step that runs the pending command (10_state.md R50) -/

/-- Settles O4: each of the three events leads to the engine's step, which runs the decoded word. -/
theorem stepRunsDecodedPendingCommand : Obligations.StepRunsDecodedPendingCommand := by
  intro s p i hp hdecode _
  refine ⟨State.executePending_of_decoded hp hdecode, fun rest => ?_, fun a rest hbusy hwindow => ?_⟩
  · exact State.executePending_of_decoded (s := { s with script := rest }) hp hdecode
  · have hheld : State.holds { s with script := .host a :: rest } a = true := (State.holds_iff _ a).mpr ⟨hbusy, hwindow⟩
    simp only [step, State.advance, hheld, if_true]
    exact State.executePending_of_decoded hp hdecode

/-- Settles O5: the placed word is pending and the engine's event is next. -/
theorem placedCommandRunsNext : Obligations.PlacedCommandRunsNext :=
  fun s _ w _ hdecode => State.executePending_of_decoded (s := s.accept (BitVec.ofNat 32 w)) rfl hdecode

end Sys2Proof.Machine

namespace Sys2Proof.Machine

/-! ## The register block -/

/-! ### The map (10_state.md R32) -/

theorem regAt_eq_id_iff (off : Nat) : regAt off = .id ↔ off = 0x000 := by
  simp only [regAt, ite_eq_iff, reduceCtorEq, and_false, and_true, or_false]

theorem regAt_arg : ∀ k : Fin 8, regAt (0x010 + 4 * k.val) = .arg k := by decide

theorem regAt_res : ∀ k : Fin 4, regAt (0x030 + 4 * k.val) = .res k := by decide

theorem regAt_freq (v : Byte) : regAt (0x400 + 4 * v.toNat) = .freq v := by
  have hv := byte_lt_256 v
  have hidx : (0x400 + 4 * v.toNat - 0x400) / 4 = v.toNat := by omega
  simp (disch := omega) only [regAt, if_neg, if_pos, hidx, BitVec.ofNat_toNat, BitVec.setWidth_eq]

theorem regAt_codeLen (v : Byte) : regAt (0x800 + 4 * v.toNat) = .codeLen v := by
  have hv := byte_lt_256 v
  have hidx : (0x800 + 4 * v.toNat - 0x800) / 4 = v.toNat := by omega
  simp (disch := omega) only [regAt, if_neg, if_pos, hidx, BitVec.ofNat_toNat, BitVec.setWidth_eq]

theorem regAt_reserved {off : Nat} (h : (0x060 ≤ off ∧ off ≤ 0x3FC) ∨ (0xC00 ≤ off ∧ off ≤ 0xFFC)) :
    regAt off = .reserved := by
  obtain h | h := h <;> simp (disch := omega) only [regAt, if_neg, if_pos]

theorem engineOwnedOffset_range {off : Nat} (h : engineOwnedOffset off) : off < 0x1000 ∧ off % 4 = 0 := by
  unfold engineOwnedOffset at h
  omega

theorem regAt_engineOwned_low : ∀ off < 0x058, 0x030 ≤ off → off % 4 = 0 → (regAt off).engineOwned = true := by decide

theorem regAt_engineOwned {off : Nat} (h : engineOwnedOffset off) : (regAt off).engineOwned = true := by
  obtain ⟨halign, rfl | ⟨hlo, hhi⟩ | ⟨hlo, hhi⟩⟩ := h
  · rfl
  · exact regAt_engineOwned_low off (by omega) hlo halign
  · obtain hfreq | hlen : off < 0x800 ∨ 0x800 ≤ off := by omega
    · simp (disch := omega) only [regAt, if_neg, if_pos, Reg.engineOwned]
    · simp (disch := omega) only [regAt, if_neg, if_pos, Reg.engineOwned]

/-! ### Accesses of an aligned offset -/

theorem targetOf_ofNat_eq_reg (p : Params) {off : Nat} (h : off < 0x1000) : targetOf p (BitVec.ofNat 32 off) = .reg off := by
  have hnat : (BitVec.ofNat 32 off).toNat = off := toNat_ofNat_of_lt (by omega)
  exact (targetOf_eq_reg_iff p _ off).mpr ⟨by omega, hnat⟩

/-- A register access is never held (20_memory.md R109). -/
theorem step_readLine (s : State) {off : Nat} (hoff : off < 0x1000) (halign : off % 4 = 0) (rest : List Event) :
    step { s with script := readLine off :: rest } = .next (State.regRead { s with script := rest } (regAt off)) := by
  simp [step, State.advance, readLine, State.holds, HostAccess.addr, targetOf_ofNat_eq_reg _ hoff, State.hostAccess,
    regAccessOk, halign, State.dropEvent]

theorem step_regLine (s : State) {off : Nat} (hoff : off < 0x1000) (halign : off % 4 = 0) (v : Word) (rest : List Event) :
    step { s with script := regLine off v :: rest } =
      .next ((State.regWrite { s with script := rest } v (regAt off)).respond .written) := by
  simp [step, State.advance, regLine, State.holds, HostAccess.addr, targetOf_ofNat_eq_reg _ hoff, State.hostAccess,
    regAccessOk, halign, State.dropEvent]

/-- A read of a register the engine does not own, or of any register while BUSY = 0, returns its value. -/
theorem State.answersRead_regValue (s : State) {off : Nat} {r : Reg} (hr : regAt off = r)
    (hfree : s.status.busy = false ∨ r.engineOwned = false) (hoff : off < 0x1000) (halign : off % 4 = 0) :
    s.answersRead off (s.regValue r) := by
  intro rest
  have hread : (s.status.busy && r.engineOwned) = false := by rw [Bool.and_eq_false_iff]; exact hfree
  rw [step_readLine s hoff halign, hr]
  simp only [State.regRead, hread]
  cases r <;> rfl

theorem Reg.engineOwned_regWrite {r : Reg} (h : r.engineOwned = true) (s : State) (v : Word) : s.regWrite v r = s := by
  cases r with
  | id | cmd | status | arg | irqEn | ctrl | reserved => simp [Reg.engineOwned] at h
  | errInfo | res | curBase | curLen | curBitPos | hufState | hufTotal | hufMaxLen | freq | codeLen => rfl

/-- A register whose writes are ignored. -/
theorem State.ignoresWrite_of_regWrite (s : State) {off : Nat} (h : ∀ (s : State) v, s.regWrite v (regAt off) = s)
    (hoff : off < 0x1000) (halign : off % 4 = 0) : s.ignoresWrite off := by
  intro v rest
  rw [step_regLine s hoff halign, h]
  rfl

/-! ### CMD (10_state.md R50, R51) -/

theorem step_cmdLine (s : State) (c : Word) (rest : List Event) :
    step { s with script := cmdLine c :: rest } = .next ((State.issue { s with script := rest } c).respond .written) :=
  step_regLine s (by omega) rfl c rest

/-- Settles O7: the CMD write is an issue, which an idle block accepts. -/
theorem cmdWriteWhileIdleIsAccepted : Obligations.CmdWriteWhileIdleIsAccepted := by
  intro s c rest hidle
  rw [step_cmdLine]
  simp [State.issue, hidle, State.accept, State.respond, commandOp]

/-- Settles O8: the CMD write is an issue, which a busy block rejects. -/
theorem cmdWriteWhileBusyIsRejected : Obligations.CmdWriteWhileBusyIsRejected := by
  intro s c rest hbusy
  rw [step_cmdLine]
  simp [State.issue, hbusy, State.reject, State.respond]

/-! ### Reset values and ignored writes (10_state.md R55, R65) -/

theorem State.resetRegisters_atResetValues (s : State) : s.resetRegisters.atResetValues :=
  ⟨rfl, rfl, by simp [State.reset], by simp [State.reset], rfl, rfl, rfl, by simp [State.reset], rfl⟩

/-- Every register but ID reads 0 after reset. -/
theorem State.reset_regValue {r : Reg} (h : r ≠ .id) : State.reset.regValue r = 0 := by
  cases r with
  | id => exact absurd rfl h
  | arg k => simp [State.regValue, State.reset]
  | res k => simp [State.regValue, State.reset]
  | freq v => simp [State.regValue, State.reset]
  | cmd | status | errInfo | curBase | curLen | curBitPos | hufState | hufTotal | hufMaxLen | irqEn | ctrl | codeLen |
    reserved => rfl

/-- Settles O14: an offset other than 0 names a register other than ID, and each of those reads 0. -/
theorem resetValuesAreTheSpecs : Obligations.ResetValuesAreTheSpecs := by
  refine ⟨State.reset.resetRegisters_atResetValues, rfl, fun off _ _ => ?_⟩
  split
  · rename_i h0
    rw [(regAt_eq_id_iff off).mpr h0]
    rfl
  · rename_i hne
    exact State.reset_regValue fun hid => hne ((regAt_eq_id_iff off).mp hid)

/-- Settles O15: a reserved or read-only offset names a register whose write is the identity. -/
theorem readOnlyAndReservedOffsetsIgnoreWrites : Obligations.ReadOnlyAndReservedOffsetsIgnoreWrites := by
  refine ⟨fun s off halign hoff => ⟨?_, ?_⟩, fun s => ?_, fun s off hown => ?_⟩
  · exact s.ignoresWrite_of_regWrite (by simp [regAt_reserved hoff, State.regWrite]) (by omega) halign
  · exact s.answersRead_regValue (regAt_reserved hoff) (.inr rfl) (by omega) halign
  · exact s.ignoresWrite_of_regWrite (fun _ _ => rfl) (by omega) rfl
  · obtain ⟨hoff, halign⟩ := engineOwnedOffset_range hown
    exact s.ignoresWrite_of_regWrite (Reg.engineOwned_regWrite (regAt_engineOwned hown)) hoff halign

/-! ### STATUS and HUF_STATE as words (10_state.md R35, R46) -/

theorem Status.toWord_bits (st : Status) :
    st.toWord.getLsbD 0 = st.busy ∧ st.toWord.getLsbD 1 = st.done ∧ st.toWord.getLsbD 2 = st.err ∧
      st.toWord.getLsbD 3 = st.rejected := by
  simp (disch := omega) only [Status.toWord, BitVec.getLsbD_append, if_pos, if_neg, BitVec.getLsbD_ofBool, Nat.reduceSub,
    decide_true, Bool.true_and, and_self]

theorem Status.toWord_fields (st : Status) :
    st.toWord.extractLsb' 4 4 = 0#4 ∧ st.toWord.extractLsb' 8 8 = st.errCode ∧ st.toWord.extractLsb' 16 8 = st.lastOp ∧
      st.toWord.extractLsb' 24 8 = 0#8 := by
  simp (disch := omega) only [Status.toWord, BitVec.extractLsb'_append_eq_of_le, BitVec.extractLsb'_append_eq_of_add_le,
    Nat.reduceSub, BitVec.extractLsb'_eq_self, and_self]

theorem HufRegs.stateWord_bits (h : HufRegs) :
    h.stateWord.getLsbD 0 = h.treeValid ∧ h.stateWord.getLsbD 1 = h.codesValid ∧ h.stateWord.getLsbD 2 = h.leafRoot := by
  simp (disch := omega) only [HufRegs.stateWord, BitVec.getLsbD_append, if_pos, if_neg, BitVec.getLsbD_ofBool, Nat.reduceSub,
    decide_true, Bool.true_and, and_self]

theorem HufRegs.stateWord_fields (h : HufRegs) :
    h.stateWord.extractLsb' 3 13 = 0#13 ∧ h.stateWord.extractLsb' 16 9 = h.nodeCount ∧
      h.stateWord.extractLsb' 25 7 = 0#7 := by
  simp (disch := omega) only [HufRegs.stateWord, BitVec.extractLsb'_append_eq_of_le,
    BitVec.extractLsb'_append_eq_of_add_le, Nat.reduceSub, BitVec.extractLsb'_eq_self, and_self]

/-- Settles O9: a read answers the word of STATUS, whose fields are its bits, and a write is `writeStatus`. -/
theorem statusFieldsAndWriteOneToClear : Obligations.StatusFieldsAndWriteOneToClear := by
  refine ⟨fun s => ?_, fun s v rest => ?_, ?_⟩
  · obtain ⟨hbusy, hdone, herr, hrejected⟩ := s.status.toWord_bits
    exact ⟨s.status.toWord, s.answersRead_regValue (r := .status) rfl (.inr rfl) (by omega) rfl, hbusy, hdone, herr, hrejected,
      s.status.toWord_fields⟩
  · exact step_regLine s (by omega) rfl v rest
  · exact State.reset.answersRead_regValue (r := .status) rfl (.inr rfl) (by omega) rfl

/-- Settles O16: each offset of the map names its register, and a read returns the register's value unless the engine owns it. -/
theorem registerReadsFollowTheMap : Obligations.RegisterReadsFollowTheMap := by
  refine ⟨fun s off rest hbusy hown => ?_, fun s => ⟨?_, ?_, ?_, ?_, ?_, fun k => ?_⟩, fun s hidle =>
    ⟨?_, fun k => ?_, ?_, ?_, ?_, ⟨s.huf.stateWord, ?_, ?_⟩, ?_, ?_, fun v => ⟨?_, ?_⟩⟩⟩
  · obtain ⟨hoff, halign⟩ := engineOwnedOffset_range hown
    rw [step_readLine s hoff halign]
    simp [State.regRead, hbusy, regAt_engineOwned hown]
  · exact s.answersRead_regValue (r := .id) rfl (.inr rfl) (by omega) rfl
  · exact s.answersRead_regValue (r := .cmd) rfl (.inr rfl) (by omega) rfl
  · exact s.answersRead_regValue (r := .status) rfl (.inr rfl) (by omega) rfl
  · exact s.answersRead_regValue (r := .irqEn) rfl (.inr rfl) (by omega) rfl
  · exact s.answersRead_regValue (r := .ctrl) rfl (.inr rfl) (by omega) rfl
  · exact s.answersRead_regValue (regAt_arg k) (.inr rfl) (by omega) (by omega)
  · exact s.answersRead_regValue (r := .errInfo) rfl (.inl hidle) (by omega) rfl
  · exact s.answersRead_regValue (regAt_res k) (.inl hidle) (by omega) (by omega)
  · exact s.answersRead_regValue (r := .curBase) rfl (.inl hidle) (by omega) rfl
  · exact s.answersRead_regValue (r := .curLen) rfl (.inl hidle) (by omega) rfl
  · exact s.answersRead_regValue (r := .curBitPos) rfl (.inl hidle) (by omega) rfl
  · exact s.answersRead_regValue (r := .hufState) rfl (.inl hidle) (by omega) rfl
  · obtain ⟨htree, hcodes, hleaf⟩ := s.huf.stateWord_bits
    exact ⟨htree, hcodes, hleaf, s.huf.stateWord_fields⟩
  · exact s.answersRead_regValue (r := .hufTotal) rfl (.inl hidle) (by omega) rfl
  · exact s.answersRead_regValue (r := .hufMaxLen) rfl (.inl hidle) (by omega) rfl
  · exact s.answersRead_regValue (regAt_freq v) (.inl hidle) (by have := byte_lt_256 v; omega) (by omega)
  · exact s.answersRead_regValue (regAt_codeLen v) (.inl hidle) (by have := byte_lt_256 v; omega) (by omega)

/-! ### CTRL and the soft reset (10_state.md R54, 70_reset_and_hazards.md R412) -/

theorem step_ctrlLine (s : State) (v : Word) (rest : List Event) :
    step { s with script := ctrlLine v :: rest } =
      .next ((if v.getLsbD 0 then State.softReset { s with script := rest } else { s with script := rest }).respond
        .written) :=
  step_regLine s (by omega) rfl v rest

theorem State.havocAll_readByte_beyond {l : List (Nat × Nat)} {s : State} {x : Nat} (h : s.params.bufSize ≤ x) :
    (s.havocAll l).buf.readByte x = s.buf.readByte x := by
  induction l generalizing s with
  | nil => rfl
  | cons r rest ih =>
    obtain ⟨b, n⟩ := r
    refine (ih (s := s.havocInside b n) h).trans (s.buf.readByte_store_of_not_mem _ _ _ ?_)
    rw [length_freeBytes]
    omega

/-- The model's destination regions are the list of R412. -/
theorem State.destRegions_eq_abortedRegions {s : State} {p : Pending} (hp : s.pending = some p) (i : Instr) :
    s.destRegions i = abortedRegions s.cur p.args i := by
  cases i <;> simp [State.destRegions, abortedRegions, State.arg_of_pending hp]

theorem State.softReset_atResetValues (s : State) : s.softReset.atResetValues := by
  obtain ⟨l, heq, -, -⟩ := s.softReset_eq
  rw [heq]
  exact (s.havocAll l).resetRegisters_atResetValues

/-- What a soft reset keeps apart from BUF. -/
theorem State.softReset_kept (s : State) : s.softReset.params = s.params ∧ s.softReset.script = s.script := by
  obtain ⟨l, heq, -, -⟩ := s.softReset_eq
  rw [heq]
  exact ⟨State.havocAll_params l s, State.havocAll_script l s⟩

theorem State.softReset_readByte_beyond {s : State} {x : Nat} (h : s.params.bufSize ≤ x) :
    s.softReset.buf.readByte x = s.buf.readByte x := by
  obtain ⟨l, heq, -, -⟩ := s.softReset_eq
  rw [heq]
  exact State.havocAll_readByte_beyond h

/-- A soft reset keeps every byte outside the destination regions of a running command. -/
theorem State.softReset_readByte {s : State} {x : Nat}
    (h : s.status.busy = true → ∀ r ∈ s.pendingDestRegions, x < r.1 ∨ r.1 + r.2 ≤ x) :
    s.softReset.buf.readByte x = s.buf.readByte x := by
  obtain ⟨l, heq, hbusy, hidle⟩ := s.softReset_eq
  rw [heq]
  refine State.havocAll_readByte fun r hr => ?_
  cases hb : s.status.busy with
  | true => exact h hb r (hbusy hb ▸ hr)
  | false => simp [hidle hb] at hr

/-- Settles O12: the havoc of a soft reset reaches the pending command's regions inside BUF only. -/
theorem softResetKeepsBufOutsideAbortedRegions : Obligations.SoftResetKeepsBufOutsideAbortedRegions := by
  refine ⟨fun s v rest hv => ?_, fun s => ?_, fun s v rest hv => ?_⟩
  · rw [step_ctrlLine, hv]
    rfl
  · exact s.answersRead_regValue (r := .ctrl) rfl (.inr rfl) (by omega) rfl
  · have hstep := step_ctrlLine s v rest
    rw [hv, if_pos rfl] at hstep
    obtain ⟨hparams, hscript⟩ := State.softReset_kept { s with script := rest }
    refine ⟨_, hstep, State.softReset_atResetValues { s with script := rest }, hparams, hscript, rfl,
      fun x hx => State.softReset_readByte_beyond hx, fun hidle x => State.softReset_readByte (by simp [hidle]),
      fun p i hbusy hp hd x hx => ?_, fun p e hbusy hp he x => ?_⟩
    · refine State.softReset_readByte fun _ => ?_
      simpa [State.pendingDestRegions, hp, hd, State.destRegions_eq_abortedRegions] using hx
    · exact State.softReset_readByte (by simp [State.pendingDestRegions, hp, he])

end Sys2Proof.Machine

namespace Sys2Proof.Machine

/-! ## A running command reads its latched operands only (10_state.md R43, R63) -/

/-- Other live values in the ARG registers. -/
def State.withArgs (s : State) (a : Vector Word 8) : State := { s with args := a }

@[simp] theorem State.withArgs_buf (s : State) (a : Vector Word 8) : (s.withArgs a).buf = s.buf := rfl
@[simp] theorem State.withArgs_code (s : State) (a : Vector Word 8) : (s.withArgs a).code = s.code := rfl
@[simp] theorem State.withArgs_params (s : State) (a : Vector Word 8) : (s.withArgs a).params = s.params := rfl

theorem State.arg_withArgs {s : State} {p : Pending} (hp : s.pending = some p) (a : Vector Word 8) (k : Fin 8) :
    (s.withArgs a).arg k = s.arg k := by
  rw [State.arg_of_pending hp, State.arg_of_pending (s := s.withArgs a) hp]

/-- The next state of an outcome with other live ARG values; a stop stays a stop. -/
def outcomeWithArgs (a : Vector Word 8) : Host.Outcome State Fault Refusal → Host.Outcome State Fault Refusal
  | .next t => .next (t.withArgs a)
  | .fault r => .fault r
  | .refused r => .refused r

@[simp] theorem outcomeWithArgs_next (a : Vector Word 8) (t : State) : outcomeWithArgs a (.next t) = .next (t.withArgs a) := rfl

@[simp] theorem outcomeWithArgs_fault (a : Vector Word 8) (r : Fault) : outcomeWithArgs a (.fault r) = .fault r := rfl

@[simp] theorem outcomeWithArgs_ite (a : Vector Word 8) (c : Prop) [Decidable c] (o o' : Host.Outcome State Fault Refusal) :
    outcomeWithArgs a (if c then o else o') = if c then outcomeWithArgs a o else outcomeWithArgs a o' :=
  apply_ite _ c o o'

theorem cursorRead_withArgs (s : State) (a : Vector Word 8) (n : Nat) :
    (s.withArgs a).cursorRead n = outcomeWithArgs a (s.cursorRead n) := by
  simp only [State.cursorRead, State.accessing, outcomeWithArgs_ite, outcomeWithArgs_next, outcomeWithArgs_fault]
  rfl

section
variable {s : State} {p : Pending} (hp : s.pending = some p) (a : Vector Word 8)
include hp

theorem cursorWrite_withArgs (n : Nat) : (s.withArgs a).cursorWrite n = outcomeWithArgs a (s.cursorWrite n) := by
  simp only [State.cursorWrite, State.accessing, outcomeWithArgs_ite, outcomeWithArgs_next, outcomeWithArgs_fault,
    State.arg_withArgs hp]
  rfl

/-- The same next state with the other live ARG values: a command's checks, reads and writes use the latched copy. -/
theorem exec_withArgs (i : Instr) : exec i (s.withArgs a) = outcomeWithArgs a (exec i s) := by
  have harg := State.arg_withArgs hp a
  cases i with
  | nop | hufFreqClear | hufBuild => rfl
  | curSet =>
    simp only [exec, execCurSet, outcomeWithArgs_ite, outcomeWithArgs_next, harg]
    rfl
  | curRd8 => exact cursorRead_withArgs s a 1
  | curRd16 => exact cursorRead_withArgs s a 2
  | curRd32 => exact cursorRead_withArgs s a 4
  | curWr8 => exact cursorWrite_withArgs hp a 1
  | curWr16 => exact cursorWrite_withArgs hp a 2
  | curWr32 => exact cursorWrite_withArgs hp a 4
  | curSkip =>
    simp only [exec, execCurSkip, outcomeWithArgs_ite, outcomeWithArgs_next, harg]
    rfl
  | curRdBits =>
    simp only [exec, execCurRdBits, State.accessing, outcomeWithArgs_ite, outcomeWithArgs_next, outcomeWithArgs_fault,
      harg]
    rfl
  | curWrBits =>
    simp only [exec, execCurWrBits, State.accessing, outcomeWithArgs_ite, outcomeWithArgs_next, outcomeWithArgs_fault,
      harg]
    rfl
  | hufFreqAdd =>
    simp only [exec, execHufFreqAdd, outcomeWithArgs_ite, outcomeWithArgs_next, harg]
    rfl
  | hufBuildFrom =>
    simp only [exec, execHufBuildFrom, outcomeWithArgs_ite, outcomeWithArgs_next, harg]
    rfl
  | hufDerive =>
    simp only [exec, execHufDerive, outcomeWithArgs_ite, outcomeWithArgs_next]
    rfl
  | hufSerialize =>
    simp only [exec, execHufSerialize, outcomeWithArgs_ite, outcomeWithArgs_next, harg]
    rfl
  | hufDumpCodes =>
    simp only [exec, execHufDumpCodes, outcomeWithArgs_ite, outcomeWithArgs_next, harg]
    rfl
  | hufDecode =>
    simp only [exec, execHufDecode, State.decodeSource, outcomeWithArgs_ite, harg, State.withArgs_buf]
    cases decodeCore s.buf _ (s.arg 5) (s.arg 4) <;> rfl
  | hufPack =>
    simp only [exec, execHufPack, outcomeWithArgs_ite, outcomeWithArgs_next, harg, State.withArgs_buf]
    cases firstBadPixel 0 (s.buf.bytes (s.arg 0) (s.arg 1)) <;> rfl
  | hufEncode =>
    simp only [exec, execHufEncode, outcomeWithArgs_ite, outcomeWithArgs_next, harg, State.withArgs_buf,
      State.withArgs_code]
    cases firstNoCode s.code (s.buf.bytes (s.arg 0) (s.arg 1)) with
    | some v => rfl
    | none => simp only [outcomeWithArgs_ite]; rfl
  | hufCompress =>
    simp only [exec, execHufCompress, outcomeWithArgs_ite, outcomeWithArgs_next, harg, State.withArgs_buf,
      State.withArgs_code]
    cases firstNoCode s.code (s.buf.bytes (s.arg 0) (s.arg 1 * s.arg 2)) with
    | some v => rfl
    | none => simp only [outcomeWithArgs_ite]; rfl
  | fcpParse =>
    simp only [exec, execFcpParse, outcomeWithArgs_ite, outcomeWithArgs_next, harg, State.withArgs_buf,
      State.withArgs_params]
    cases parseContainer s.buf (hdrSizeOk s.params) { base := s.arg 0, len := s.arg 1 } (s.arg 3) <;> rfl

end

/-- Settles O10: an ARG write and read are the register's, and a command with other live ARG values has the same next state with
those values. -/
theorem argWritesNeverReachARunningCommand : Obligations.ArgWritesNeverReachARunningCommand := by
  refine ⟨fun s k v rest => ?_, fun s k => ?_, fun k => ?_, fun i s t p a hp h => ⟨?_, ?_⟩⟩
  · rw [argLine, step_regLine s (by omega) (by omega), regAt_arg]
    rfl
  · exact s.answersRead_regValue (regAt_arg k) (.inr rfl) (by omega) (by omega)
  · simp [State.reset]
  · obtain ⟨⟨hargs, -⟩, -⟩ := exec_completes h
    exact hargs
  · exact (exec_withArgs hp a i).trans (congrArg (outcomeWithArgs a) h)

end Sys2Proof.Machine

namespace Sys2Proof.Machine

/-! ## The host port and BUF (20_memory.md R100 to R109) -/

/-! ### Accesses that are not held (R109) -/

theorem State.holds_of_idle {s : State} (hidle : s.status.busy = false) (a : HostAccess) : s.holds a = false := by
  simp [State.holds, hidle]

theorem State.holds_of_not_inBufWindow {s : State} {a : HostAccess} (h : ¬a.inBufWindow s.params) : s.holds a = false :=
  Bool.eq_false_iff.mpr fun hheld => h ((s.holds_iff a).mp hheld).2

theorem HostAccess.not_inBufWindow_of_reg {a : HostAccess} (p : Params) (h : a.addr.toNat ≤ 0xFFF) : ¬a.inBufWindow p :=
  fun ⟨hlo, _⟩ => by omega

/-- An access that is not held is performed by the step that meets it. -/
theorem step_host_of_not_held {s : State} {a : HostAccess} (h : s.holds a = false) (rest : List Event) :
    step { s with script := .host a :: rest } = .next (State.hostAccess { s with script := rest } a) := by
  have hfree : State.holds { s with script := .host a :: rest } a = false := h
  simp [step, State.advance, hfree, State.dropEvent]

/-- A held access stays at the head of the script while the engine moves. -/
theorem step_host_of_held {s : State} {a : HostAccess} {rest : List Event} (hscript : s.script = .host a :: rest)
    (h : s.holds a = true) : step s = s.executePending := by
  simp [step, State.advance, hscript, h]

/-! ### Forbidden accesses (R106) -/

theorem bufAccessOk_iff (p : Params) (b : Nat) (w : AccessWidth) :
    bufAccessOk p b w = true ↔ b % w.bytes = 0 ∧ b + w.bytes ≤ p.bufSize := by
  simp [bufAccessOk]

/-- The window's base is a multiple of every access width, so host and engine addresses are aligned alike (R105). -/
theorem AccessWidth.window_add_mod (w : AccessWidth) (b : Nat) : (0x01000000 + b) % w.bytes = b % w.bytes := by
  cases w <;> simp only [AccessWidth.bytes] <;> omega

theorem HostAccess.not_forbidden_of_reg {a : HostAccess} {p : Params} {off : Nat} (htarget : targetOf p a.addr = .reg off)
    (hok : regAccessOk off a.width = true) : ¬a.forbidden p := by
  obtain ⟨hlt, rfl⟩ := (targetOf_eq_reg_iff p a.addr off).mp htarget
  have hallowed := (regAccessOk_iff _ _).mp hok
  rintro (⟨-, hbad⟩ | ⟨hgt, -⟩ | ⟨⟨hlo, -⟩, -⟩)
  · exact hbad hallowed
  · omega
  · omega

theorem HostAccess.not_forbidden_of_buf {a : HostAccess} {p : Params} {b : Nat} (htarget : targetOf p a.addr = .buf b)
    (hok : bufAccessOk p b a.width = true) : ¬a.forbidden p := by
  obtain ⟨hlo, hhi, haddr⟩ := (targetOf_eq_buf_iff p a.addr b).mp htarget
  obtain ⟨halign, hend⟩ := (bufAccessOk_iff p b a.width).mp hok
  rintro (⟨hle, -⟩ | ⟨-, hout⟩ | ⟨-, hmis | hbeyond⟩)
  · omega
  · exact hout ⟨hlo, hhi⟩
  · rw [haddr, AccessWidth.window_add_mod] at hmis
    exact hmis halign
  · omega

/-- Each way a host access can be performed is that of an allowed access, so a forbidden one is a bus error. -/
theorem State.hostAccess_of_forbidden {s : State} {a : HostAccess} (h : a.forbidden s.params) :
    s.hostAccess a = s.respond .busError := by
  obtain ⟨addr, w, off, rfl, htarget, hok, -⟩ | ⟨addr, w, v, off, rfl, htarget, hok, -⟩ |
    ⟨addr, w, b, rfl, htarget, hok, -⟩ | ⟨addr, w, v, b, rfl, htarget, hok, -⟩ | heq := s.hostAccess_cases a
  · exact absurd h (HostAccess.not_forbidden_of_reg htarget hok)
  · exact absurd h (HostAccess.not_forbidden_of_reg htarget hok)
  · exact absurd h (HostAccess.not_forbidden_of_buf htarget hok)
  · exact absurd h (HostAccess.not_forbidden_of_buf htarget hok)
  · exact heq

/-- Settles O17: the access is not held, and a forbidden access is a bus error. -/
theorem forbiddenAccessIsABusError : Obligations.ForbiddenAccessIsABusError := by
  intro s a rest hforbidden hfree
  have hheld : s.holds a = false := hfree.elim (State.holds_of_idle · a) State.holds_of_not_inBufWindow
  rw [step_host_of_not_held hheld]
  exact congrArg _ (State.hostAccess_of_forbidden hforbidden)

/-! ### BUF accesses, byte by byte (R103, R107) -/

/-- MemRead is the sum of 00_scope.md R13. -/
theorem Mem.readLE_eq_littleEndianAt (m : Mem) (a n : Nat) : m.readLE a n = littleEndianAt m a n := by
  induction n generalizing a with
  | zero => rfl
  | succ n ih =>
    have hshift : ∀ k, (m.readByte (a + (k + 1))).toNat * 2 ^ (8 * (k + 1)) =
        256 * ((m.readByte (a + 1 + k)).toNat * 2 ^ (8 * k)) := by
      intro k
      rw [Nat.mul_succ, Nat.pow_add, Nat.add_right_comm a 1 k, Nat.add_assoc a k 1]
      ring
    simp only [Mem.readLE, ih, littleEndianAt, List.range_succ_eq_map, List.map_cons, List.map_map, List.sum_cons,
      Function.comp_def, Nat.succ_eq_add_one, hshift, List.sum_map_mul_left]
    simp

/-- A little-endian write stores byte `k` of its value at `a + k`. -/
theorem Mem.readByte_writeLE (m : Mem) (a n v : Nat) {k : Nat} (hk : k < n) :
    ((m.writeLE a n v).readByte (a + k)).toNat = v / 2 ^ (8 * k) % 256 := by
  rw [Mem.writeLE, m.readByte_store_of_mem a _ (a + k) (by omega) (by simpa using hk), getElem_leBytes]
  simp

theorem Mem.readByte_writeLE_outside (m : Mem) (a n v : Nat) {x : Nat} (h : x < a ∨ a + n ≤ x) :
    (m.writeLE a n v).readByte x = m.readByte x :=
  m.readByte_store_of_not_mem a _ x (by simpa using h)

/-- The host address of an engine address inside BUF names it (R101), because BUF_SIZE is at most 2^24 (00_scope.md R9). -/
theorem targetOf_window {p : Params} (hparams : p.wf = true) {a : Nat} (h : a < p.bufSize) :
    targetOf p (BitVec.ofNat 32 (0x01000000 + a)) = .buf a := by
  simp only [Params.wf, Bool.and_eq_true, decide_eq_true_eq] at hparams
  rw [targetOf_eq_buf_iff, toNat_ofNat_of_lt (by omega)]
  omega

theorem AccessWidth.bytes_pos (w : AccessWidth) : 0 < w.bytes := by cases w <;> decide

section
variable {s : State} {a : Nat} {w : AccessWidth} (hparams : s.params.wf = true) (hidle : s.status.busy = false)
  (halign : a % w.bytes = 0) (hend : a + w.bytes ≤ s.params.bufSize)
include hparams hidle halign hend

theorem step_bufWrite (v : Word) (rest : List Event) :
    step { s with script := .host (.write (BitVec.ofNat 32 (0x01000000 + a)) w v) :: rest } =
      .next { s with buf := s.buf.writeLE a w.bytes v.toNat, script := rest, response := .written } := by
  have htarget := targetOf_window hparams (a := a) (by have := w.bytes_pos; omega)
  have hok := (bufAccessOk_iff s.params a w).mpr ⟨halign, hend⟩
  rw [step_host_of_not_held (State.holds_of_idle hidle _)]
  simp [State.hostAccess, htarget, hok, State.withBuf, State.respond]

theorem step_bufRead (rest : List Event) :
    step { s with script := .host (.read (BitVec.ofNat 32 (0x01000000 + a)) w) :: rest } =
      .next { s with script := rest, response := .data (BitVec.ofNat 32 (littleEndianAt s.buf a w.bytes)) } := by
  have htarget := targetOf_window hparams (a := a) (by have := w.bytes_pos; omega)
  have hok := (bufAccessOk_iff s.params a w).mpr ⟨halign, hend⟩
  rw [step_host_of_not_held (State.holds_of_idle hidle _)]
  simp [State.hostAccess, htarget, hok, State.respond, Mem.readLE_eq_littleEndianAt]

end

/-- The bytes of R107's example, after a 4-byte write of 0x12345678. -/
theorem Mem.readByte_writeLE_example (m : Mem) (a : Nat) :
    (m.writeLE a 4 0x12345678).readByte a = 0x78 ∧ (m.writeLE a 4 0x12345678).readByte (a + 1) = 0x56 ∧
    (m.writeLE a 4 0x12345678).readByte (a + 2) = 0x34 ∧ (m.writeLE a 4 0x12345678).readByte (a + 3) = 0x12 := by
  have hbyte : ∀ k < 4, ((m.writeLE a 4 0x12345678).readByte (a + k)).toNat = 0x12345678 / 2 ^ (8 * k) % 256 :=
    fun k hk => m.readByte_writeLE a 4 0x12345678 hk
  exact ⟨BitVec.eq_of_toNat_eq (hbyte 0 (by omega)), BitVec.eq_of_toNat_eq (hbyte 1 (by omega)),
    BitVec.eq_of_toNat_eq (hbyte 2 (by omega)), BitVec.eq_of_toNat_eq (hbyte 3 (by omega))⟩

/-- Settles O18: an aligned access inside BUF of an idle block is a little-endian read or write, and R107's example is one of
each. -/
theorem hostBufAccessesAreLittleEndian : Obligations.HostBufAccessesAreLittleEndian := by
  refine ⟨fun s a w v rest hparams hidle halign hend => ⟨?_, ?_⟩, fun s a rest hparams hidle hend => ?_⟩
  · exact ⟨_, step_bufWrite hparams hidle halign hend v rest, fun k hk => s.buf.readByte_writeLE a _ _ hk,
      fun x hx => s.buf.readByte_writeLE_outside a _ _ hx, rfl⟩
  · exact step_bufRead hparams hidle halign hend rest
  · obtain ⟨h0, h1, h2, h3⟩ := s.buf.readByte_writeLE_example (4 * a)
    have hhalf : littleEndianAt (s.buf.writeLE (4 * a) 4 0x12345678) (4 * a + 2) 2 = 0x1234 := by
      simp [← Mem.readLE_eq_littleEndianAt, Mem.readLE, h2, h3]
    have hwrite := step_bufWrite (a := 4 * a) (w := .word) hparams hidle (Nat.mul_mod_right 4 a) hend 0x12345678
    have hread := step_bufRead (s := { s with buf := s.buf.writeLE (4 * a) 4 0x12345678, response := .written })
      (a := 4 * a + 2) (w := .half) hparams hidle (by simp only [AccessWidth.bytes]; omega)
      (by simp only [AccessWidth.bytes]; omega) rest
    exact ⟨_, _, hwrite _, h0, h1, h2, h3, hread, congrArg (fun n => Response.data (BitVec.ofNat 32 n)) hhalf⟩

/-! ### Held accesses (R109) -/

/-- The engine's step of a pending command completes it and keeps what the host owns. -/
theorem State.executePending_completes {s t : State} {p : Pending} (hp : s.pending = some p)
    (h : s.executePending = .next t) : s.hostSideKept t ∧ t.status.busy = false := by
  obtain ⟨hnone, -⟩ | ⟨q, i, -, -, hexec⟩ | ⟨q, e, -, -, rfl⟩ := State.executePending_cases h
  · simp [hp] at hnone
  · obtain ⟨hhost, -, hbusy, -⟩ := exec_completes hexec
    exact ⟨hhost, hbusy⟩
  · exact ⟨s.hostSideKept_refl, rfl⟩

/-- Settles O19: the step of a held access is the engine's, which completes the command, so the next step performs the access; an
access outside the BUF window is not held. -/
theorem bufAccessWhileBusyIsHeld : Obligations.BufAccessWhileBusyIsHeld := by
  refine ⟨fun s a rest hinv hbusy hscript hwindow => ?_, fun s a rest hreg => ?_⟩
  · obtain ⟨t, ht, -⟩ := invariantStatesStepToInvariantStates s hinv
    obtain ⟨hpending, -⟩ := hinv.lifecycle
    obtain ⟨p, hp⟩ := Option.isSome_iff_exists.mp (hpending.symm.trans hbusy)
    have hengine := step_host_of_held hscript ((s.holds_iff a).mpr ⟨hbusy, hwindow⟩)
    obtain ⟨⟨-, -, -, -, -, hkept, hresponse⟩, hidle⟩ := State.executePending_completes hp (hengine ▸ ht)
    have hwaits : t.script = .host a :: rest := hkept.trans hscript
    refine ⟨t, ht, hidle, hwaits, hresponse, ?_⟩
    rw [← step_host_of_not_held (State.holds_of_idle hidle a), ← hwaits]
  · exact step_host_of_not_held (State.holds_of_not_inBufWindow (HostAccess.not_inBufWindow_of_reg _ hreg)) rest

/-! ## BUF inside and the validity invariants (R100, 10_state.md R64) -/

theorem exec_bufOk_hufOk {i : Instr} {s t : State} (hbuf : s.bufOk) (hhuf : s.hufOk) (h : exec i s = .next t) :
    t.bufOk ∧ t.hufOk := by
  obtain ⟨code, info, rfl⟩ | ⟨a, n, code, info, -, hregion, rfl⟩ | ⟨u, r0, r1, r2, r3, heffect, rfl⟩ := exec_cases h
  · exact ⟨hbuf, hhuf⟩
  · exact ⟨State.havoc_bufOk hbuf hregion, hhuf⟩
  · exact ⟨heffect.bufOk hbuf hhuf, heffect.hufOk hhuf⟩

theorem State.resetRegisters_hufOk (s : State) : s.resetRegisters.hufOk := by
  simp [State.hufOk, State.reset]

theorem HostEffect.bufOk_hufOk {s t : State} {a : HostAccess} (h : HostEffect s a t) (hbuf : s.bufOk) (hhuf : s.hufOk) :
    t.bufOk ∧ t.hufOk := by
  cases h with
  | softReset v hv =>
    obtain ⟨l, heq, -, -⟩ := s.softReset_eq
    rw [heq]
    exact ⟨State.havocAll_bufOk hbuf l, (s.havocAll l).resetRegisters_hufOk⟩
  | store a b bs hregion => exact ⟨Mem.Within.store hbuf hregion, hhuf⟩
  | answer | accept | reject | writeStatus | writeArg | writeIrqEn => exact ⟨hbuf, hhuf⟩

/-- Settles O57: both properties are kept by each thing a step can do, so by the step. -/
theorem everyStepKeepsTheBufferInside : Obligations.EveryStepKeepsTheBufferInside :=
  fun _ _ hbuf hhuf h => step_preserves (P := fun s => s.bufOk ∧ s.hufOk)
    (fun _ _ _ _ ⟨hbuf, hhuf⟩ _ hexec => exec_bufOk_hufOk hbuf hhuf hexec) (fun _ _ hs _ => hs)
    (fun s a ⟨hbuf, hhuf⟩ => (s.hostAccess_effect a).bufOk_hufOk hbuf hhuf)
    (fun s ⟨hbuf, _⟩ => ⟨State.havoc_bufOk (s := s.resetRegisters) hbuf (by simp), s.resetRegisters_hufOk⟩)
    (fun _ hs => hs) ⟨hbuf, hhuf⟩ h

end Sys2Proof.Machine

namespace Sys2Proof.Machine

/-! ## Command words (30_encoding.md R140 to R144) -/

/-! ### The opcode map (R142) -/

theorem mem_of_lookupOpcode {op : Byte} {i : Instr} {rows : List (Byte × Instr)} (h : lookupOpcode op rows = some i) :
    (op, i) ∈ rows := by
  induction rows with
  | nil => simp [lookupOpcode] at h
  | cons row rows ih =>
    obtain ⟨k, j⟩ := row
    simp only [lookupOpcode] at h
    split at h
    · rename_i hk
      cases h
      exact hk ▸ List.mem_cons_self
    · exact List.mem_cons_of_mem _ (ih h)

/-- The encoder's opcode of a row's command is the row's opcode. -/
theorem opcode_of_mem_opcodeTable : ∀ row ∈ opcodeTable, opcode row.2 = row.1 := by decide

theorem lookupOpcode_opcode (i : Instr) : lookupOpcode (opcode i) opcodeTable = some i := by cases i <;> rfl

/-- An opcode selects a command's row exactly when it is the command's opcode. -/
theorem lookupOpcode_eq_some_iff (op : Byte) (i : Instr) : lookupOpcode op opcodeTable = some i ↔ op = opcode i :=
  ⟨fun h => (opcode_of_mem_opcodeTable _ (mem_of_lookupOpcode h)).symm, fun h => h ▸ lookupOpcode_opcode i⟩

theorem exists_eq_opcode_iff (op : Byte) : (∃ i, op = opcode i) ↔ op ∈ opcodeTable.map Prod.fst := by
  constructor
  · rintro ⟨i, rfl⟩
    exact List.mem_map.mpr ⟨(opcode i, i), mem_of_lookupOpcode (lookupOpcode_opcode i), rfl⟩
  · intro h
    obtain ⟨row, hrow, rfl⟩ := List.mem_map.mp h
    exact ⟨row.2, (opcode_of_mem_opcodeTable row hrow).symm⟩

/-- The ranges of `opcodeDefined` hold the opcodes of the map and no others (R143). -/
theorem opcodeDefined_iff (op : Byte) : opcodeDefined op.toNat = true ↔ ∃ i, op = opcode i := by
  rw [exists_eq_opcode_iff]
  simp only [opcodeDefined, opcodeTable, List.map_cons, List.map_nil, List.mem_cons, List.not_mem_nil,
    ← BitVec.toNat_inj, Bool.or_eq_true, Bool.and_eq_true, beq_iff_eq, decide_eq_true_eq,
    BitVec.ofNat_eq_ofNat, BitVec.toNat_ofNat, Nat.reducePow, Nat.zero_mod, Nat.reduceMod, or_false]
  omega

/-! ### The two fields of a word (R140) -/

theorem toNat_commandOp (c : Word) : (commandOp c).toNat = c.toNat % 256 := by
  simp [commandOp]

theorem commandZero_eq_zero_iff (c : Word) : commandZero c = 0 ↔ c.toNat / 256 = 0 := by
  have hc := c.isLt
  have hzero : (commandZero c).toNat = c.toNat / 256 % 2 ^ 24 := by simp [commandZero, Nat.shiftRight_eq_div_pow]
  rw [← BitVec.toNat_inj, hzero, show (0 : BitVec 24).toNat = 0 from rfl]
  omega

theorem commandWordDefined_iff (c : Word) : commandWordDefined c = true ↔ commandZero c = 0 ∧ ∃ i, commandOp c = opcode i := by
  rw [commandZero_eq_zero_iff, ← opcodeDefined_iff, toNat_commandOp]
  simp [commandWordDefined]

/-- A word is a command's word exactly when its two fields are. -/
theorem eq_encode_iff (c : Word) (i : Instr) : c = encode i ↔ commandZero c = 0 ∧ commandOp c = opcode i := by
  have hop := (opcode i).isLt
  have hword : (encode i).toNat = (opcode i).toNat := BitVec.toNat_setWidth_of_le (by omega)
  rw [commandZero_eq_zero_iff, ← BitVec.toNat_inj, ← BitVec.toNat_inj, toNat_commandOp, hword]
  omega

/-! ### The decoder (R143, R144) -/

theorem decode_of_zeroField_ne {c : Word} (h : commandZero c ≠ 0) : decode c = .error (.zeroFieldNotZero c) := if_pos h

theorem decode_of_row {c : Word} {i : Instr} (hzero : commandZero c = 0)
    (hrow : lookupOpcode (commandOp c) opcodeTable = some i) : decode c = .ok i := by
  rw [decode, if_neg (not_not.mpr hzero), hrow]

theorem decode_of_no_row {c : Word} (hzero : commandZero c = 0) (hrow : lookupOpcode (commandOp c) opcodeTable = none) :
    decode c = .error (.reservedOpcode (commandOp c)) := by
  rw [decode, if_neg (not_not.mpr hzero), hrow]

theorem decode_eq_ok_iff (c : Word) (i : Instr) : decode c = .ok i ↔ c = encode i := by
  rw [eq_encode_iff, ← lookupOpcode_eq_some_iff]
  by_cases hzero : commandZero c = 0
  · cases hrow : lookupOpcode (commandOp c) opcodeTable with
    | some j => simp only [decode_of_row hzero hrow, hzero, true_and, Except.ok.injEq, Option.some.injEq]
    | none => simp only [decode_of_no_row hzero hrow, reduceCtorEq, and_false]
  · simp only [decode_of_zeroField_ne hzero, hzero, reduceCtorEq, false_and]

theorem decode_encode (i : Instr) : decode (encode i) = .ok i := (decode_eq_ok_iff _ i).mpr rfl

theorem exists_decode_eq_ok_iff (c : Word) :
    (∃ i, decode c = .ok i) ↔ commandZero c = 0 ∧ ∃ i, commandOp c = opcode i := by
  simp only [decode_eq_ok_iff, eq_encode_iff, exists_and_left]

/-- The decoder is total: a word it does not accept it rejects. -/
theorem exists_decode_eq_error_iff (c : Word) : (∃ e, decode c = .error e) ↔ ¬∃ i, decode c = .ok i := by
  cases decode c <;> simp

/-- Settles O2: a word decodes to `i` exactly when its fields are those of `encode i`, and the words with such fields are the
defined ones. -/
theorem decodeMatchesEncodeExactly : Obligations.DecodeMatchesEncodeExactly := by
  refine fun c => ⟨decode_eq_ok_iff c, ?_⟩
  rw [exists_decode_eq_error_iff, exists_decode_eq_ok_iff, ← commandWordDefined_iff, Bool.not_eq_true]

/-- Settles O1: eight words of the map are the encoder's, and each reserved word fails in one field. -/
theorem decodeReadsOpcodeMapWords : Obligations.DecodeReadsOpcodeMapWords :=
  ⟨decode_encode .nop, decode_encode .curSet, decode_encode .curWrBits, decode_encode .hufBuildFrom,
    decode_encode .hufDumpCodes, decode_encode .hufDecode, decode_encode .hufCompress, decode_encode .fcpParse,
    decode_of_no_row rfl rfl, decode_of_zeroField_ne (by decide)⟩

/-! ### The execution step of a reserved word (R143, 60_exceptions.md R371) -/

theorem State.executePending_of_reserved {s : State} {p : Pending} (hp : s.pending = some p)
    (h : ¬∃ i, decode p.word = .ok i) : s.executePending = .next (s.raise .unsupported p.word.toNat) := by
  obtain ⟨e, he⟩ := (exists_decode_eq_error_iff p.word).mpr h
  simp [State.executePending, hp, he]

/-- Raising an error is an all-or-nothing error completion (60_exceptions.md R372, R375). -/
theorem State.raise_failedCleanly (s : State) (code : ErrCode) (info : Nat) : s.failedCleanly (s.raise code info) code info :=
  ⟨⟨rfl, rfl, rfl, rfl, rfl, rfl, rfl, rfl, ⟨rfl, rfl, rfl, rfl⟩, s.hostSideKept_refl⟩, rfl, fun _ => rfl⟩

theorem State.executePending_reserved_failedCleanly {s : State} {p : Pending} (hp : s.pending = some p)
    (h : ¬∃ i, decode p.word = .ok i) :
    ∃ t, s.executePending = .next t ∧ s.failedCleanly t .unsupported p.word.toNat :=
  ⟨_, State.executePending_of_reserved hp h, s.raise_failedCleanly _ _⟩

/-- Settles O3: the defined words are those with a row's fields, acceptance looks at no field, and each of the three events
leads to the engine's step, which raises the error. -/
theorem reservedWordRaisesUnsupported : Obligations.ReservedWordRaisesUnsupported := by
  intro c
  refine ⟨?_, fun s rest hidle => ?_, fun s p hp hword hreserved => ?_⟩
  · rw [exists_decode_eq_ok_iff, exists_eq_opcode_iff]
    rfl
  · exact ⟨_, cmdWriteWhileIdleIsAccepted s c rest hidle, rfl, rfl⟩
  · subst hword
    refine ⟨State.executePending_reserved_failedCleanly hp hreserved, fun rest => ?_, fun a rest hbusy hwindow => ?_⟩
    · exact State.executePending_reserved_failedCleanly (s := { s with script := rest }) hp hreserved
    · have hheld : State.holds { s with script := .host a :: rest } a = true := (State.holds_iff _ a).mpr ⟨hbusy, hwindow⟩
      rw [step_host_of_held rfl hheld]
      exact State.executePending_reserved_failedCleanly hp hreserved

end Sys2Proof.Machine

namespace Sys2Proof.Machine

/-! ## The Font Model image (30_encoding.md R180 to R182) -/

/-! ### Memories that hold a list of bytes -/

/-- The bytes `bs` stand at `a`, `a + 1`, … of a memory. -/
def Mem.Holds (m : Mem) (a : Nat) (bs : List Byte) : Prop := m.bytes a bs.length = bs

theorem Mem.holds_cons_iff (m : Mem) (a : Nat) (b : Byte) (bs : List Byte) :
    m.Holds a (b :: bs) ↔ m.readByte a = b ∧ m.Holds (a + 1) bs := List.cons_eq_cons

theorem Mem.holds_append_iff (m : Mem) (a : Nat) (bs cs : List Byte) :
    m.Holds a (bs ++ cs) ↔ m.Holds a bs ∧ m.Holds (a + bs.length) cs := by
  induction bs generalizing a with
  | nil => simp [Mem.Holds, Mem.bytes]
  | cons b bs ih =>
    rw [List.cons_append, Mem.holds_cons_iff, Mem.holds_cons_iff, ih, and_assoc, List.length_cons, Nat.add_assoc,
      Nat.add_comm 1]

theorem Mem.Holds.getElem? {m : Mem} {a k : Nat} {bs : List Byte} (h : m.Holds a bs) (hk : k < bs.length) :
    bs[k]? = some (m.readByte (a + k)) := by
  have hbytes : k < (m.bytes a bs.length).length := by simpa using hk
  rw [← m.getElem_bytes a bs.length k hbytes, ← List.getElem?_eq_getElem hbytes, h]

theorem Mem.Holds.littleEndianAt_mod {m : Mem} {a n v : Nat} (h : m.Holds a (leBytes n v)) :
    littleEndianAt m a n = v % 256 ^ n := by
  rw [← m.readLE_eq_littleEndianAt]
  induction n generalizing a v with
  | zero => simp [Mem.readLE, Nat.mod_one]
  | succ n ih =>
    obtain ⟨hbyte, hrest⟩ := (m.holds_cons_iff a _ _).mp h
    rw [Mem.readLE, hbyte, ih hrest, Nat.pow_succ', Nat.mod_mul, BitVec.toNat_ofNat]

theorem Mem.Holds.littleEndianAt_eq {m : Mem} {a n v : Nat} (h : m.Holds a (leBytes n v)) (hv : v < 256 ^ n) :
    littleEndianAt m a n = v := by
  rw [h.littleEndianAt_mod, Nat.mod_eq_of_lt hv]

/-- Records of one length `w` stand one after the other, record `i` at `a + i w`. -/
theorem Mem.Holds.record {α : Type} {m : Mem} {g : α → List Byte} {w i a : Nat} {l : List α} (h : m.Holds a (l.flatMap g))
    (hw : ∀ x ∈ l, (g x).length = w) (hi : i < l.length) : m.Holds (a + i * w) (g l[i]) := by
  induction l generalizing i a with
  | nil => simp at hi
  | cons x l ih =>
    obtain ⟨hfirst, hrest⟩ := (m.holds_append_iff a _ _).mp h
    cases i with
    | zero => simpa using hfirst
    | succ i =>
      have hx : (g x).length = w := hw x List.mem_cons_self
      have haddr : a + (i + 1) * w = a + (g x).length + i * w := by rw [hx]; ring
      rw [haddr]
      exact ih hrest (fun y hy => hw y (List.mem_cons_of_mem x hy)) (Nat.lt_of_succ_lt_succ hi)

/-! ### The parts of the image -/

/-- Where each part of the image stands (R180). -/
theorem Mem.Holds.fontImage_parts {m : Mem} {d : Nat} {f : FontModel} (h : m.Holds d (fontImage f)) :
    (m.Holds d (leBytes 2 f.numGlyphs) ∧ m.Holds (d + 2) (leBytes 2 f.charWidth) ∧
      m.Holds (d + 4) (leBytes 2 f.charHeight) ∧ m.Holds (d + 6) (leBytes 2 f.images)) ∧
    m.Holds (d + 8) (f.palette.flatMap fun c => [c.1, c.2.1, c.2.2]) ∧
    m.Holds (d + 8 + 3 * f.palette.length) (f.metrics.flatMap metricsRecord) ∧
    m.Holds (d + 8 + 3 * f.palette.length + 8 * f.metrics.length) f.grids.flatten := by
  simp only [fontImage, Mem.holds_append_iff, List.length_append, length_leBytes, flatMap_palette_length,
    flatMap_metricsRecord_length] at h
  obtain ⟨⟨⟨⟨⟨⟨hglyphs, hwidth⟩, hheight⟩, himages⟩, hpalette⟩, hmetrics⟩, hgrids⟩ := h
  simp only [← Nat.add_assoc] at hheight himages hpalette hmetrics hgrids
  exact ⟨⟨hglyphs, hwidth, hheight, himages⟩, hpalette, hmetrics, hgrids⟩

/-- A metrics record reads back (R181) when its fields fit. -/
theorem Mem.Holds.metrics_eq {m : Mem} {a : Nat} {g : GlyphMetrics} (h : m.Holds a (metricsRecord g))
    (hcode : g.code < 2 ^ 32) (hbearing : g.bearingX < 256) (hadvance : g.advance < 256) (hlo : -256 < g.width)
    (hhi : g.width < 256) :
    g =
      { code := littleEndianAt m a 4
        bearingX := littleEndianAt m (a + 4) 1
        advance := littleEndianAt m (a + 5) 1
        width := (BitVec.ofNat 16 (littleEndianAt m (a + 6) 2)).toInt } := by
  simp only [metricsRecord, Mem.holds_append_iff, List.length_append, length_leBytes] at h
  obtain ⟨⟨⟨hcodeAt, hbearingAt⟩, hadvanceAt⟩, hwidthAt⟩ := h
  have hwidth : (BitVec.ofInt 16 g.width).toInt = g.width :=
    BitVec.toInt_ofInt_eq_self (by omega) (by omega) (by omega)
  rw [hcodeAt.littleEndianAt_eq hcode, hbearingAt.littleEndianAt_eq hbearing, hadvanceAt.littleEndianAt_eq hadvance,
    hwidthAt.littleEndianAt_eq (BitVec.isLt _), BitVec.ofNat_toNat, BitVec.setWidth_eq, hwidth]

/-- Settles O55: the image's parts stand one after the other, and so do the records of one length in each part. -/
theorem fontImageLayoutIsTheSpecs : Obligations.FontImageLayoutIsTheSpecs := by
  intro m d f hG hCW hCH hI hpaletteLen hmetricsLen hgridsLen hgridLen hfits himage
  have hsize : (fontImage f).length = 56 + 8 * f.numGlyphs + f.numGlyphs * f.charWidth * f.charHeight := by
    rw [← himage, Mem.length_bytes]
  obtain ⟨⟨hglyphs, hwidth, hheight, himages⟩, hpalette, hmetrics, hgrids⟩ :=
    Mem.Holds.fontImage_parts (show m.Holds d (fontImage f) by rw [Mem.Holds, hsize, himage])
  rw [hpaletteLen] at hmetrics hgrids
  rw [hmetricsLen] at hgrids
  refine ⟨hglyphs.littleEndianAt_eq hG, hwidth.littleEndianAt_eq hCW, hheight.littleEndianAt_eq hCH,
    himages.littleEndianAt_eq hI, fun k hk => ?_, fun i hi => ?_, fun i hi x hx y hy => ?_⟩
  · have hcolour := hpalette.record (w := 3) (fun _ _ => rfl) (hpaletteLen ▸ hk)
    simp only [Mem.holds_cons_iff] at hcolour
    obtain ⟨hred, hgreen, hblue, -⟩ := hcolour
    rw [List.getElem?_eq_getElem (hpaletteLen ▸ hk), Nat.mul_comm 3 k, hred, hgreen, hblue]
  · have hrecord := hmetrics.record (w := 8) (fun g _ => by simp [metricsRecord]) (hmetricsLen ▸ hi)
    obtain ⟨hcode, hbearing, hadvance, hlo, hhi⟩ := hfits _ (List.getElem_mem (hmetricsLen ▸ hi))
    have haddr : d + 56 + 8 * i = d + 8 + 3 * 16 + i * 8 := by omega
    rw [List.getElem?_eq_getElem (hmetricsLen ▸ hi), haddr]
    exact congrArg some (hrecord.metrics_eq hcode hbearing hadvance hlo hhi)
  · have hgridAt : i < f.grids.length := hgridsLen ▸ hi
    have hpixel : y * f.charWidth + x < (f.grids[i]).length := by
      have hrow : (y + 1) * f.charWidth ≤ f.charHeight * f.charWidth := Nat.mul_le_mul_right _ hy
      rw [hgridLen _ (List.getElem_mem hgridAt), Nat.mul_comm f.charWidth f.charHeight]
      rw [Nat.succ_mul] at hrow
      omega
    rw [← List.flatMap_id'] at hgrids
    have hgrid := hgrids.record hgridLen hgridAt
    rw [List.getElem?_eq_getElem hgridAt, Option.getD_some, hgrid.getElem? hpixel]

end Sys2Proof.Machine

namespace Sys2Proof.Machine

/-! ## The bits of BUF (40_cursor.md R200, R202; 00_scope.md R16) -/

/-! ### The cursor's and the codec's numbering -/

theorem Mem.toNat_bit (m : Mem) (base p : Nat) :
    (m.bit base p).toNat = (m.readByte (base + p / 8)).toNat / 2 ^ (p % 8) % 2 := by
  rw [Mem.bit, ← BitVec.testBit_toNat, Nat.toNat_testBit]

theorem State.cursorBit_eq_bit (s : State) (p : Nat) : s.cursorBit p = (s.buf.bit s.cur.base.toNat p).toNat :=
  (s.buf.toNat_bit s.cur.base.toNat p).symm

/-- The byte form is the bit of the 16-bit word: the word's low byte holds its bits 0 to 7, the high byte its bits 8 to 15. -/
theorem Mem.toNat_bit_eq_streamBit (m : Mem) (base p : Nat) : (m.bit base p).toNat = streamBit m base p := by
  have hword : m.readLE (base + 2 * (p / 16)) 2 =
      2 ^ 8 * (m.readByte (base + 2 * (p / 16) + 1)).toNat + (m.readByte (base + 2 * (p / 16))).toNat := by
    simp only [Mem.readLE]
    omega
  rw [streamBit, ← m.readLE_eq_littleEndianAt, hword, ← Nat.toNat_testBit, Mem.bit, ← BitVec.testBit_toNat,
    Nat.testBit_two_pow_mul_add _ (byte_lt_256 _)]
  split
  · rw [show p / 8 = 2 * (p / 16) by omega, show p % 8 = p % 16 by omega]
  · rw [show p / 8 = 2 * (p / 16) + 1 by omega, show p % 8 = p % 16 - 8 by omega, Nat.add_assoc]

theorem Mem.toNat_wordBit_eq_streamBit (m : Mem) (base p : Nat) : (m.wordBit base p).toNat = streamBit m base p := by
  rw [Mem.wordBit, ← Nat.testBit_eq_decide_div_mod_eq, Nat.toNat_testBit, m.readLE_eq_littleEndianAt, streamBit]

/-- Settles O41: CB is the byte form at CUR_BASE, and both forms are the stream bit. -/
theorem cursorAndCodecNumberBitsAlike : Obligations.CursorAndCodecNumberBitsAlike :=
  ⟨fun s p => (s.cursorBit_eq_bit p).trans (s.buf.toNat_bit_eq_streamBit _ p),
    fun m base p => ⟨m.toNat_bit_eq_streamBit base p, m.toNat_wordBit_eq_streamBit base p⟩⟩

/-! ### Bits and values (R211, R212) -/

/-- The first bit read is bit 0 of the value. -/
theorem Mem.bitsToNat_bits (m : Mem) (base q n : Nat) :
    bitsToNat (m.bits base q n) = ((List.range n).map fun j => (m.bit base (q + j)).toNat * 2 ^ j).sum := by
  induction n generalizing q with
  | zero => rfl
  | succ n ih =>
    have hshift : ∀ j, (m.bit base (q + (j + 1))).toNat * 2 ^ (j + 1) = 2 * ((m.bit base (q + 1 + j)).toNat * 2 ^ j) := by
      intro j
      rw [Nat.add_right_comm q 1 j, Nat.add_assoc q j 1]
      ring
    simp only [Mem.bits, bitsToNat, ih, List.range_succ_eq_map, List.map_cons, List.map_map, List.sum_cons,
      Function.comp_def, Nat.succ_eq_add_one, hshift, List.sum_map_mul_left]
    simp

theorem getElem_natToBits (n v k : Nat) (h : k < (natToBits n v).length) : (natToBits n v)[k] = v.testBit k := by
  induction n generalizing v k with
  | zero => simp [natToBits] at h
  | succ n ih =>
    cases k with
    | zero => simp [natToBits, Nat.testBit_zero]
    | succ k => simp [natToBits, ih, Nat.testBit_succ]

/-! ### What placed bits keep -/

/-- A bit of a byte at or above `base` is a bit of the range from `base` on. -/
theorem Mem.getLsbD_readByte (m : Mem) {base x k : Nat} (hx : base ≤ x) (hk : k < 8) :
    (m.readByte x).getLsbD k = m.bit base (8 * (x - base) + k) := by
  rw [Mem.bit, show base + (8 * (x - base) + k) / 8 = x by omega, show (8 * (x - base) + k) % 8 = k by omega]

/-- Placed bits change no bit of BUF but their own, below `base` neither. -/
theorem Mem.getLsbD_readByte_placeBits (m : Mem) (base q : Nat) (w : List Bool) {x k : Nat} (hk : k < 8)
    (h : x < base ∨ 8 * (x - base) + k < q ∨ q + w.length ≤ 8 * (x - base) + k) :
    ((m.placeBits base q w).readByte x).getLsbD k = (m.readByte x).getLsbD k := by
  obtain hbelow | hx := Nat.lt_or_ge x base
  · rw [m.readByte_placeBits base q w x (by omega)]
  · rw [Mem.getLsbD_readByte _ hx hk, Mem.getLsbD_readByte _ hx hk, Mem.bit_placeBits, dif_neg (by omega)]

end Sys2Proof.Machine

namespace Sys2Proof.Machine

/-! ## NOP and the cursor commands (40_cursor.md R201 to R212) -/

/-! ### The two checks, the engine access and the completion of a cursor command -/

section
variable (s : State) {c c₁ c₂ : Prop} [Decidable c] [Decidable c₁] [Decidable c₂] {code : ErrCode} {info : Nat}
  {o o₁ o₂ : Host.Outcome State Fault Refusal}

theorem State.firstCheck_fails (h : c) :
    ∃ t, (if c then .next (s.raise code info) else o) = .next t ∧ s.failedCleanly t code info :=
  ⟨_, if_pos h, s.raise_failedCleanly code info⟩

theorem State.secondCheck_fails (h₁ : ¬c₁) (h₂ : c₂) :
    ∃ t, (if c₁ then o₁ else if c₂ then .next (s.raise code info) else o) = .next t ∧ s.failedCleanly t code info := by
  rw [if_neg h₁]
  exact s.firstCheck_fails h₂

theorem bothChecks_pass (h₁ : ¬c₁) (h₂ : ¬c₂) : (if c₁ then o₁ else if c₂ then o₂ else o) = o := by
  rw [if_neg h₁, if_neg h₂]

end

/-- The bytes from the cursor's byte to the end of its region exist (10_state.md R45). -/
theorem State.accessing_cursorByte {s t : State} {n : Nat} (hcur : s.cursorOk)
    (hend : s.cur.bitPos.toNat / 8 + n ≤ s.cur.len.toNat) : s.accessing s.cursorByte n t = .next t := by
  obtain ⟨hregion, -⟩ := hcur
  exact State.accessing_of_le (by unfold State.cursorByte; omega)

/-- A completion reports its RES values, and keeps what the host owns. -/
theorem State.complete_completed (s : State) (r0 r1 r2 r3 : Nat) :
    s.completed (s.complete r0 r1 r2 r3) r0 r1 r2 r3 :=
  ⟨rfl, rfl, rfl, rfl, rfl, rfl, rfl, rfl, s.hostSideKept_refl⟩

/-- A completion after a move of the cursor changes CUR_BITPOS besides. -/
theorem State.moveCursor_complete (s : State) (q r0 r1 : Nat) :
    s.completed ((s.moveCursor q).complete r0 r1) r0 r1 0 0 ∧
    ((s.moveCursor q).complete r0 r1).cur = { s.cur with bitPos := BitVec.ofNat 32 q } ∧
    s.tablesKept ((s.moveCursor q).complete r0 r1) ∧ s.bufKept ((s.moveCursor q).complete r0 r1) :=
  ⟨(s.moveCursor q).complete_completed r0 r1 0 0, rfl, ⟨rfl, rfl, rfl, rfl⟩, fun _ => rfl⟩

/-! ### NOP (R201) -/

/-- The engine's event completes a pending NOP. -/
theorem step_engine_of_nop {s : State} {w : Word} {args : Vector Word 8} {rest : List Event}
    (hscript : s.script = .engine :: rest) (hp : s.pending = some { word := w, args := args })
    (hdecode : decode w = .ok .nop) : step s = .next s.dropEvent.complete := by
  simp only [step, State.advance, hscript]
  exact State.executePending_of_decoded (s := s.dropEvent) hp hdecode

/-- Settles O20: NOP's meaning is the completion; issued, the word is accepted, and the engine's event runs it. -/
theorem nopCompletesAndChangesNothingElse : Obligations.NopCompletesAndChangesNothingElse := by
  refine ⟨decode_encode .nop, fun s => ?_, fun s rest hidle hrejected => ?_⟩
  · exact ⟨_, rfl, s.complete_completed 0 0 0 0, rfl, ⟨rfl, rfl, rfl, rfl⟩, fun _ => rfl⟩
  · refine ⟨_, _, cmdWriteWhileIdleIsAccepted s 0 (.engine :: rest) hidle, rfl,
      step_engine_of_nop (w := 0) rfl rfl (decode_encode .nop), ?_⟩
    simp only [State.complete_status, State.dropEvent_status, hrejected]
    rfl

/-! ### CUR_SET (R203) -/

/-- Settles O21: the two checks in order, and the three registers take operands that fit them. -/
theorem curSetPlacesTheCursor : Obligations.CurSetPlacesTheCursor := by
  refine ⟨decode_encode .curSet, fun s => ⟨fun hpos hregion => ?_, fun hpos => s.firstCheck_fails hpos,
    fun hpos hregion => ?_⟩⟩
  · exact ⟨_, bothChecks_pass (by omega) (by simpa using hregion),
      (s.setCursor (s.arg 0) (s.arg 1) (s.arg 2)).complete_completed 0 0 0 0, toNat_ofNat_of_lt (s.arg_lt 0),
      toNat_ofNat_of_lt (s.arg_lt 1), toNat_ofNat_of_lt (s.arg_lt 2), ⟨rfl, rfl, rfl, rfl⟩, fun _ => rfl⟩
  · exact s.secondCheck_fails (by omega) (by simpa [State.regionValid] using hregion)

/-! ### CUR_SKIP (R210) -/

/-- Settles O24: the two checks in order, and a move of the cursor. -/
theorem curSkipMovesWithoutReading : Obligations.CurSkipMovesWithoutReading := by
  refine ⟨decode_encode .curSkip, fun s => ⟨fun halign hroom => ?_, fun halign => s.firstCheck_fails halign,
    fun halign hshort => s.secondCheck_fails (not_not.mpr halign) hshort⟩⟩
  exact ⟨_, bothChecks_pass (not_not.mpr halign) (by omega), s.moveCursor_complete _ 0 _⟩

/-! ### The typed reads and writes (R204 to R209) -/

theorem typedReadRule_of_exec {i : Instr} {n : Nat} (hexec : ∀ s, exec i s = s.cursorRead n) : typedReadRule i n := by
  intro s
  rw [hexec]
  refine ⟨fun hcur halign hroom => ?_, fun halign => s.firstCheck_fails halign,
    fun halign hshort => s.secondCheck_fails (not_not.mpr halign) hshort⟩
  rw [← Mem.readLE_eq_littleEndianAt]
  exact ⟨_, (bothChecks_pass (not_not.mpr halign) (by omega)).trans (State.accessing_cursorByte hcur hroom),
    s.moveCursor_complete _ _ _⟩

/-- Settles O22: the three commands are one typed read, at three widths. -/
theorem typedReadsReturnLittleEndianValues : Obligations.TypedReadsReturnLittleEndianValues :=
  ⟨⟨decode_encode .curRd8, typedReadRule_of_exec fun _ => rfl⟩, ⟨decode_encode .curRd16, typedReadRule_of_exec fun _ => rfl⟩,
    ⟨decode_encode .curRd32, typedReadRule_of_exec fun _ => rfl⟩⟩

theorem typedWriteRule_of_exec {i : Instr} {n : Nat} (hexec : ∀ s, exec i s = s.cursorWrite n) : typedWriteRule i n := by
  intro s
  rw [hexec]
  refine ⟨fun hcur halign hroom => ?_, fun halign => s.firstCheck_fails halign,
    fun halign hshort => s.secondCheck_fails (not_not.mpr halign) hshort⟩
  obtain ⟨hcompleted, hmoved, htables, -⟩ :=
    s.moveCursor_complete (s.cur.bitPos.toNat + 8 * n) 0 (s.cur.bitPos.toNat + 8 * n)
  exact ⟨_, (bothChecks_pass (not_not.mpr halign) (by omega)).trans (State.accessing_cursorByte hcur hroom), hcompleted,
    fun k hk => s.buf.readByte_writeLE s.cursorByte n (s.arg 0) hk,
    fun x hx => s.buf.readByte_writeLE_outside s.cursorByte n (s.arg 0) hx, hmoved, htables⟩

/-- Settles O23: the three commands are one typed write, at three widths. -/
theorem typedWritesStoreLittleEndianValues : Obligations.TypedWritesStoreLittleEndianValues :=
  ⟨⟨decode_encode .curWr8, typedWriteRule_of_exec fun _ => rfl⟩,
    ⟨decode_encode .curWr16, typedWriteRule_of_exec fun _ => rfl⟩,
    ⟨decode_encode .curWr32, typedWriteRule_of_exec fun _ => rfl⟩⟩

/-! ### The bit reads and writes (R211, R212) -/

/-- The bytes that hold `n` bits inside the cursor's region lie inside it. -/
theorem bytesSpanned_le {q n len : Nat} (h : q + n ≤ 8 * len) : q / 8 + bytesSpanned q n ≤ len := by
  unfold bytesSpanned
  omega

/-- Settles O25: the two checks in order, and the bits read as a sum. -/
theorem curRdBitsReadsLeastSignificantBitFirst : Obligations.CurRdBitsReadsLeastSignificantBitFirst := by
  refine ⟨decode_encode .curRdBits, fun s => ⟨fun hcur hmin hmax hroom => ?_, fun hcount => s.firstCheck_fails hcount,
    fun hmin hmax hshort => s.secondCheck_fails (by omega) hshort⟩⟩
  simp only [State.cursorBit_eq_bit, ← Mem.bitsToNat_bits]
  exact ⟨_, (bothChecks_pass (by omega) (by omega)).trans (State.accessing_cursorByte hcur (bytesSpanned_le hroom)),
    s.moveCursor_complete _ _ _⟩

/-- Settles O26: the two checks in order, and the low bits of ARG1 placed at the cursor. -/
theorem curWrBitsWritesOnlyItsBits : Obligations.CurWrBitsWritesOnlyItsBits := by
  refine ⟨decode_encode .curWrBits, fun s => ⟨fun hcur hmin hmax hroom => ?_, fun hcount => s.firstCheck_fails hcount,
    fun hmin hmax hshort => s.secondCheck_fails (by omega) hshort⟩⟩
  obtain ⟨hcompleted, hmoved, htables, -⟩ :=
    s.moveCursor_complete (s.cur.bitPos.toNat + s.arg 0) 0 (s.cur.bitPos.toNat + s.arg 0)
  refine ⟨_, (bothChecks_pass (by omega) (by omega)).trans (State.accessing_cursorByte hcur (bytesSpanned_le hroom)),
    hcompleted, fun j hj => ?_, fun x k hk hout => ?_, hmoved, htables⟩
  · rw [State.cursorBit_eq_bit]
    simp [Mem.bit_placeBits, hj, getElem_natToBits, Nat.toNat_testBit]
  · exact s.buf.getLsbD_readByte_placeBits _ _ _ hk (by simpa using hout)

end Sys2Proof.Machine

namespace Sys2Proof.Machine

/-! ## The codewords of a tree (41_huffman_build.md R241 to R243) -/

/-! ### The 256-entry tables, entry by entry -/

theorem mem_allBytes (v : Byte) : v ∈ allBytes := List.mem_map.mpr ⟨v.toNat, List.mem_range.mpr v.isLt, by simp⟩

theorem toList_eq_map_tableGet {α : Type} (t : Vector α 256) : t.toList = allBytes.map (tableGet t) := by
  refine List.ext_getElem (by simp [allBytes]) fun i hi _ => ?_
  simp [allBytes, tableGet_ofNat t (i := i) (by simpa using hi)]

/-! ### Paths (R241) -/

/-- The leaf symbols are the ends of the paths. -/
theorem mem_symbols_iff_treeFollow {t : Tree} {v : Byte} : v ∈ t.symbols ↔ ∃ p, treeFollow t p = some v := by
  induction t with
  | leaf s =>
    refine ⟨fun h => ⟨[], by simpa [treeFollow, Tree.symbols, eq_comm] using h⟩, ?_⟩
    rintro ⟨_ | ⟨b, p⟩, h⟩ <;> simp_all [treeFollow, Tree.symbols]
  | node l r ihl ihr =>
    rw [Tree.symbols, List.mem_append, ihl, ihr]
    constructor
    · rintro (⟨p, hp⟩ | ⟨p, hp⟩)
      · exact ⟨false :: p, hp⟩
      · exact ⟨true :: p, hp⟩
    · rintro ⟨_ | ⟨_ | _, p⟩, hp⟩
      · simp [treeFollow] at hp
      · exact .inl ⟨p, hp⟩
      · exact .inr ⟨p, hp⟩

theorem treeFollow_mem_symbols {t : Tree} {p : List Bool} {v : Byte} (h : treeFollow t p = some v) : v ∈ t.symbols :=
  mem_symbols_iff_treeFollow.mpr ⟨p, h⟩

/-- A path that leads to a leaf cannot be continued. -/
theorem treeFollow_append {t : Tree} {p q : List Bool} {u v : Byte} (hp : treeFollow t p = some u)
    (hpq : treeFollow t (p ++ q) = some v) : u = v := by
  induction t generalizing p with
  | leaf s =>
    cases p with
    | nil => cases q <;> simp_all [treeFollow]
    | cons b p => simp [treeFollow] at hp
  | node l r ihl ihr =>
    match p with
    | [] => simp [treeFollow] at hp
    | false :: p => exact ihl hp hpq
    | true :: p => exact ihr hp hpq

/-- A path is shorter than the number of leaves. -/
theorem length_lt_of_treeFollow {t : Tree} {p : List Bool} {v : Byte} (h : treeFollow t p = some v) :
    p.length < t.symbols.length := by
  induction t generalizing p with
  | leaf s => cases p <;> simp_all [treeFollow, Tree.symbols]
  | node l r ihl ihr =>
    have hl := treeSize_add_one l
    have hr := treeSize_add_one r
    simp only [Tree.symbols, List.length_append]
    match p with
    | [] => simp [treeFollow] at h
    | false :: p =>
      have := ihl h
      simp only [List.length_cons]
      omega
    | true :: p =>
      have := ihr h
      simp only [List.length_cons]
      omega

/-! ### The walk (R241) -/

theorem tableGet_walkCodes_of_notMem {t : Tree} {v : Byte} (h : v ∉ t.symbols) (p : List Bool)
    (c : Vector (List Bool) 256) : tableGet (walkCodes t p c) v = tableGet c v := by
  induction t generalizing p c with
  | leaf s => rw [walkCodes, tableGet_tableSet, if_neg (by simpa [Tree.symbols] using h)]
  | node l r ihl ihr =>
    rw [Tree.symbols, List.mem_append, not_or] at h
    obtain ⟨hl, hr⟩ := h
    rw [walkCodes, ihr hr, ihl hl]

theorem tableGet_walkCodes {t : Tree} (hnodup : t.symbols.Nodup) {q : List Bool} {v : Byte}
    (h : treeFollow t q = some v) (p : List Bool) (c : Vector (List Bool) 256) :
    tableGet (walkCodes t p c) v = p ++ q := by
  induction t generalizing p c q with
  | leaf s => cases q <;> simp_all [treeFollow, walkCodes, tableGet_tableSet]
  | node l r ihl ihr =>
    obtain ⟨hl, hr, hdisjoint⟩ := List.nodup_append'.mp hnodup
    match q with
    | [] => simp [treeFollow] at h
    | false :: q =>
      rw [walkCodes, tableGet_walkCodes_of_notMem (hdisjoint (treeFollow_mem_symbols h)), ihl hl h, List.append_assoc]
      rfl
    | true :: q =>
      rw [walkCodes, ihr hr h, List.append_assoc]
      rfl

/-! ### Derive (R241, R242) -/

theorem tableGet_deriveCodes_leaf (s v : Byte) : tableGet (deriveCodes (.leaf s)) v = if v = s then [false] else [] := by
  simp [deriveCodes, emptyCodes, tableGet_tableSet]

theorem tableGet_deriveCodes_of_notMem {t : Tree} {v : Byte} (h : v ∉ t.symbols) : tableGet (deriveCodes t) v = [] := by
  cases t with
  | leaf s => rw [tableGet_deriveCodes_leaf, if_neg (by simpa [Tree.symbols] using h)]
  | node l r => rw [deriveCodes, tableGet_walkCodes_of_notMem h, emptyCodes, tableGet_replicate]

/-- The codeword of a symbol of a tree with two or more leaves is the path to its leaf. -/
theorem tableGet_deriveCodes_node {l r : Tree} (hnodup : (Tree.node l r).symbols.Nodup) {p : List Bool} {v : Byte}
    (h : treeFollow (.node l r) p = some v) : tableGet (deriveCodes (.node l r)) v = p := by
  rw [deriveCodes, tableGet_walkCodes hnodup h, List.nil_append]

theorem tableGet_deriveCodes_eq_iff {l r : Tree} (hnodup : (Tree.node l r).symbols.Nodup) {v : Byte} {p : List Bool}
    (hp : p ≠ []) : tableGet (deriveCodes (.node l r)) v = p ↔ treeFollow (.node l r) p = some v := by
  refine ⟨fun h => ?_, tableGet_deriveCodes_node hnodup⟩
  have hmem : v ∈ (Tree.node l r).symbols := by
    by_contra hnot
    exact hp (h.symm.trans (tableGet_deriveCodes_of_notMem hnot))
  obtain ⟨q, hq⟩ := mem_symbols_iff_treeFollow.mp hmem
  rwa [← h, tableGet_deriveCodes_node hnodup hq]

/-- Settles O44: the walk from the root writes each path at its leaf. -/
theorem codewordsAreTreePaths : Obligations.CodewordsAreTreePaths :=
  ⟨tableGet_deriveCodes_leaf, fun _ _ hnodup _ _ hp => tableGet_deriveCodes_eq_iff hnodup hp⟩

/-! ### What the codewords are like (R243) -/

/-- Two codewords are paths to two leaves, and no path to a leaf can be continued. -/
theorem not_isPrefix_deriveCodes {t : Tree} (hnodup : t.symbols.Nodup) {u v : Byte} (huv : u ≠ v)
    (hu : tableGet (deriveCodes t) u ≠ []) : ¬tableGet (deriveCodes t) u <+: tableGet (deriveCodes t) v := by
  rintro ⟨q, hq⟩
  have hv : tableGet (deriveCodes t) v ≠ [] := by simp [← hq, hu]
  cases t with
  | leaf s =>
    rw [tableGet_deriveCodes_leaf] at hu hv
    have hus : u = s := by by_contra h; simp [h] at hu
    have hvs : v = s := by by_contra h; simp [h] at hv
    exact huv (hus.trans hvs.symm)
  | node l r =>
    have hpathu := (tableGet_deriveCodes_eq_iff hnodup hu).mp rfl
    have hpathv := (tableGet_deriveCodes_eq_iff hnodup hv).mp rfl
    exact huv (treeFollow_append hpathu (hq ▸ hpathv))

theorem one_le_length_deriveCodes_iff {t : Tree} (hnodup : t.symbols.Nodup) (v : Byte) :
    1 ≤ (tableGet (deriveCodes t) v).length ↔ v ∈ t.symbols := by
  refine ⟨fun h => by_contra fun hnot => ?_, fun h => ?_⟩
  · simp [tableGet_deriveCodes_of_notMem hnot] at h
  · cases t with
    | leaf s => simp_all [tableGet_deriveCodes_leaf, Tree.symbols]
    | node l r =>
      obtain ⟨p, hp⟩ := mem_symbols_iff_treeFollow.mp h
      rw [tableGet_deriveCodes_node hnodup hp]
      cases p with
      | nil => simp [treeFollow] at hp
      | cons b p => simp

theorem length_deriveCodes_le {t : Tree} (hnodup : t.symbols.Nodup) (v : Byte) :
    (tableGet (deriveCodes t) v).length ≤ 255 := by
  by_cases hv : v ∈ t.symbols
  · cases t with
    | leaf s => rw [tableGet_deriveCodes_leaf]; split <;> simp
    | node l r =>
      obtain ⟨p, hp⟩ := mem_symbols_iff_treeFollow.mp hv
      have := length_lt_of_treeFollow hp
      have := nodup_bytes_length_le hnodup
      rw [tableGet_deriveCodes_node hnodup hp]
      omega
  · simp [tableGet_deriveCodes_of_notMem hv]

/-- The share of the code space that a codeword takes. -/
def codeShare (w : List Bool) : ℚ := if w = [] then 0 else (1 / 2) ^ w.length

/-- The share that a table's codewords take together. -/
def codeSpace (c : Vector (List Bool) 256) : ℚ := (c.toList.map codeShare).sum

theorem codeSpace_emptyCodes : codeSpace emptyCodes = 0 := by
  rw [codeSpace, emptyCodes, Vector.toList_replicate, List.map_replicate, List.sum_replicate, codeShare, if_pos rfl,
    smul_zero]

theorem codeSpace_tableSet {c : Vector (List Bool) 256} {v : Byte} (hv : tableGet c v = []) {w : List Bool} (hw : w ≠ []) :
    codeSpace (tableSet c v w) = codeSpace c + (1 / 2) ^ w.length := by
  have hlt : v.toNat < (c.toList.map codeShare).length := by simpa using byte_lt_256 v
  have hold : codeShare (c.toList[v.toNat]'(by simpa using hlt)) = 0 := by
    have : c.toList[v.toNat]'(by simpa using hlt) = [] := by simpa [tableGet] using hv
    rw [codeShare, if_pos this]
  rw [codeSpace, tableSet, Vector.toList_set, List.map_set, List.sum_set', dif_pos hlt, List.getElem_map, hold, codeSpace,
    codeShare, if_neg hw, neg_zero, zero_add]

/-- The walk over a subtree takes the share of the path to it: half for each child. -/
theorem codeSpace_walkCodes {t : Tree} (hnodup : t.symbols.Nodup) {p : List Bool} (hp : p ≠ [] ∨ t.isLeaf = false)
    {c : Vector (List Bool) 256} (hc : ∀ v ∈ t.symbols, tableGet c v = []) :
    codeSpace (walkCodes t p c) = codeSpace c + (1 / 2) ^ p.length := by
  induction t generalizing p c with
  | leaf s => exact codeSpace_tableSet (hc s (by simp [Tree.symbols])) (by simpa [Tree.isLeaf] using hp)
  | node l r ihl ihr =>
    obtain ⟨hl, hr, hdisjoint⟩ := List.nodup_append'.mp hnodup
    have hcl : ∀ v ∈ l.symbols, tableGet c v = [] := fun v hv => hc v (List.mem_append_left _ hv)
    have hcr : ∀ v ∈ r.symbols, tableGet (walkCodes l (p ++ [false]) c) v = [] := fun v hv => by
      rw [tableGet_walkCodes_of_notMem fun hvl => hdisjoint hvl hv]
      exact hc v (List.mem_append_right _ hv)
    rw [walkCodes, ihr hr (.inl (by simp)) hcr, ihl hl (.inl (by simp)) hcl, List.length_append, List.length_append,
      List.length_singleton, List.length_singleton, pow_succ]
    ring

theorem codeSpace_deriveCodes {l r : Tree} (hnodup : (Tree.node l r).symbols.Nodup) :
    codeSpace (deriveCodes (.node l r)) = 1 := by
  rw [deriveCodes, codeSpace_walkCodes hnodup (.inr rfl) (by simp [emptyCodes]), codeSpace_emptyCodes, List.length_nil,
    pow_zero, zero_add]

end Sys2Proof.Machine

namespace Sys2Proof.Machine

/-! ## The built tree (41_huffman_build.md R233 to R237) -/

/-! ### The present symbols (R230) -/

/-- The present symbols as the rule's loop lists them, by their numbers. -/
theorem presentSymbols_eq_map (f : Vector Word 256) :
    presentSymbols f =
      ((List.range 256).filter fun v => decide (tableGet f (BitVec.ofNat 8 v) ≠ 0)).map (BitVec.ofNat 8) := by
  have hpos : ∀ x : Word, 0 < x.toNat ↔ x ≠ 0 := fun x => by
    rw [Nat.pos_iff_ne_zero, ne_eq, ne_eq, ← BitVec.toNat_inj, show (0 : Word).toNat = 0 from rfl]
  simp only [presentSymbols, allBytes, List.filter_map, Function.comp_def, hpos]

theorem length_presentSymbols (f : Vector Word 256) : (presentSymbols f).length = presentCount f := by
  rw [presentSymbols_eq_map, List.length_map, presentCount]

theorem mem_presentSymbols {f : Vector Word 256} {v : Byte} : v ∈ presentSymbols f ↔ 0 < (tableGet f v).toNat := by
  simp [presentSymbols, mem_allBytes]

/-! ### Leaves and nodes (R237) -/

theorem buildTree_of_no_symbols {f : Vector Word 256} (h : presentSymbols f = []) : buildTree f = .leaf 0 := by
  rw [buildTree, h]

/-- The leaves of a built tree are the present symbols. -/
theorem buildTree_symbols_perm {f : Vector Word 256} (h : presentSymbols f ≠ []) :
    (buildTree f).symbols.Perm (presentSymbols f) := by
  unfold buildTree
  split
  · rename_i hnil; exact absurd hnil h
  · rename_i hone; rw [hone]; exact .refl _
  · refine (mergeQueue_symbols _ _ _ (fun hnil => h ?_) (by rw [leafQueue_length]; omega)).trans (leafQueue_symbols f _)
    exact List.length_eq_zero_iff.mp (by rw [← leafQueue_length f, hnil]; rfl)

theorem mem_buildTree_symbols (f : Vector Word 256) (v : Byte) :
    v ∈ (buildTree f).symbols ↔ 0 < (tableGet f v).toNat ∨ (presentCount f = 0 ∧ v = 0) := by
  rw [← mem_presentSymbols, ← length_presentSymbols, List.length_eq_zero_iff]
  by_cases h : presentSymbols f = []
  · simp [buildTree_of_no_symbols h, h, Tree.symbols]
  · simp [(buildTree_symbols_perm h).mem_iff, h]

theorem buildTree_size_le (f : Vector Word 256) : (buildTree f).size ≤ 511 :=
  treeSize_le_of_nodup (buildTree_symbols_nodup f)

/-- Settles O43: the leaves are the present symbols, and every tree has one node less than twice its leaves. -/
theorem builtTreeHasTwoKMinusOneNodes : Obligations.BuiltTreeHasTwoKMinusOneNodes := by
  intro f
  have hsize := treeSize_add_one (buildTree f)
  refine ⟨fun hk => ?_, fun hk => ?_, buildTree_symbols_nodup f, by omega, buildTree_size_le f⟩
  · rw [← length_presentSymbols] at hk ⊢
    have hleaves := (buildTree_symbols_perm (List.ne_nil_of_length_pos hk)).length_eq
    exact ⟨hleaves, by omega⟩
  · rw [← length_presentSymbols, List.length_eq_zero_iff] at hk
    rw [buildTree_of_no_symbols hk, Tree.size]

/-- Settles O45: codewords are paths to leaves, no path to a leaf continues, and each node halves its share. -/
theorem codewordsArePrefixFreeAndComplete : Obligations.CodewordsArePrefixFreeAndComplete := by
  refine ⟨fun _ hnodup _ _ => not_isPrefix_deriveCodes hnodup, fun l r hnodup => ?_,
    fun T hnodup v => ⟨one_le_length_deriveCodes_iff hnodup v, length_deriveCodes_le hnodup v⟩, mem_buildTree_symbols⟩
  have hspace := codeSpace_deriveCodes hnodup
  rwa [codeSpace, toList_eq_map_tableGet, List.map_map] at hspace

/-! ### The order of the queue (R234) -/

theorem QueueItem.before_iff (a b : QueueItem) :
    a.before b = true ↔ a.freq < b.freq ∨ (a.freq = b.freq ∧ a.seq < b.seq) := by
  simp [QueueItem.before]

/-- The queue is sorted by the order of R234. -/
def QueueSorted (q : List QueueItem) : Prop := q.Pairwise fun a b => a.before b = true

theorem queueSorted_cons_iff {a : QueueItem} {q : List QueueItem} :
    QueueSorted (a :: q) ↔ (∀ x ∈ q, a.before x = true) ∧ QueueSorted q := List.pairwise_cons

/-- Putting an item in its place keeps the queue sorted, for its sequence number is its own. -/
theorem QueueSorted.insert {q : List QueueItem} (h : QueueSorted q) {x : QueueItem} (hx : ∀ y ∈ q, y.seq ≠ x.seq) :
    QueueSorted (queueInsert x q) := by
  induction q with
  | nil => exact List.pairwise_singleton _ _
  | cons y ys ih =>
    obtain ⟨hy, hys⟩ := queueSorted_cons_iff.mp h
    have hseq := hx y List.mem_cons_self
    rw [queueInsert]
    split
    · rename_i hxy
      refine queueSorted_cons_iff.mpr ⟨fun z hz => ?_, h⟩
      obtain rfl | hz := List.mem_cons.mp hz
      · exact hxy
      · have := hy z hz
        rw [QueueItem.before_iff] at *
        omega
    · rename_i hxy
      refine queueSorted_cons_iff.mpr ⟨fun z hz => ?_, ih hys fun z hz => hx z (List.mem_cons_of_mem y hz)⟩
      obtain rfl | hz := List.mem_cons.mp ((queueInsert_perm x ys).mem_iff.mp hz)
      · rw [QueueItem.before_iff] at *
        omega
      · exact hy z hz

/-- The parent of two items, with the next sequence number (R233, R235). -/
def QueueItem.parent (next : Nat) (a b : QueueItem) : QueueItem :=
  { freq := a.freq + b.freq, seq := next, tree := .node a.tree b.tree }

/-- A queue between two rounds of the merge loop: sorted, and the next sequence number is new. -/
structure QueueReady (next : Nat) (q : List QueueItem) : Prop where
  sorted : QueueSorted q
  seqs : ∀ x ∈ q, x.seq < next

theorem mergeQueue_singleton (fuel next : Nat) (a : QueueItem) : mergeQueue fuel next [a] = a.tree := by
  cases fuel <;> rfl

theorem mergeQueue_cons_cons (fuel next : Nat) (a b : QueueItem) (rest : List QueueItem) :
    mergeQueue (fuel + 1) next (a :: b :: rest) = mergeQueue fuel (next + 1) (queueInsert (a.parent next b) rest) := rfl

/-- A round of the loop leads to the next one. -/
theorem QueueReady.round {next : Nat} {a b : QueueItem} {rest : List QueueItem} (h : QueueReady next (a :: b :: rest)) :
    QueueReady (next + 1) (queueInsert (a.parent next b) rest) := by
  obtain ⟨hsorted, hseqs⟩ := h
  obtain ⟨-, hsorted⟩ := queueSorted_cons_iff.mp hsorted
  obtain ⟨-, hsorted⟩ := queueSorted_cons_iff.mp hsorted
  have hrest : ∀ x ∈ rest, x.seq < next := fun x hx => hseqs x (by simp [hx])
  refine ⟨hsorted.insert fun x hx => (hrest x hx).ne, fun x hx => ?_⟩
  obtain rfl | hx := List.mem_cons.mp ((queueInsert_perm _ rest).mem_iff.mp hx)
  · exact Nat.lt_succ_self next
  · exact Nat.lt_succ_of_lt (hrest x hx)

/-! ### The leaves in the queue (R233) -/

/-- The item of the present symbol `p.1`, the symbol number `p.2`. -/
def leafItem (f : Vector Word 256) (p : Byte × Nat) : QueueItem :=
  { freq := (tableGet f p.1).toNat, seq := p.2, tree := .leaf p.1 }

theorem leafQueue_eq (f : Vector Word 256) (symbols : List Byte) :
    leafQueue f symbols = (symbols.zipIdx.map (leafItem f)).foldr queueInsert [] := by
  rw [List.foldr_map]
  rfl

theorem foldr_queueInsert_perm (q : List QueueItem) : (q.foldr queueInsert []).Perm q := by
  induction q with
  | nil => exact .refl _
  | cons x q ih => exact (queueInsert_perm x _).trans (ih.cons x)

theorem foldr_queueInsert_sorted {q : List QueueItem} (h : (q.map QueueItem.seq).Nodup) :
    QueueSorted (q.foldr queueInsert []) := by
  induction q with
  | nil => exact .nil
  | cons x q ih =>
    obtain ⟨hx, hq⟩ := List.nodup_cons.mp h
    refine (ih hq).insert fun y hy hseq => hx ?_
    rw [← hseq]
    exact List.mem_map_of_mem ((foldr_queueInsert_perm q).mem_iff.mp hy)

theorem map_seq_leafItem (f : Vector Word 256) (symbols : List Byte) :
    (symbols.zipIdx.map (leafItem f)).map QueueItem.seq = List.range symbols.length := by
  rw [List.map_map, List.range_eq_range', ← List.zipIdx_map_snd 0 symbols]
  rfl

theorem leafQueue_perm (f : Vector Word 256) (symbols : List Byte) :
    (leafQueue f symbols).Perm (symbols.zipIdx.map (leafItem f)) := leafQueue_eq f symbols ▸ foldr_queueInsert_perm _

theorem leafQueue_ready (f : Vector Word 256) (symbols : List Byte) :
    QueueReady symbols.length (leafQueue f symbols) where
  sorted := by
    rw [leafQueue_eq]
    exact foldr_queueInsert_sorted (map_seq_leafItem f symbols ▸ List.nodup_range)
  seqs x hx := by
    have hseq := List.mem_map_of_mem (f := QueueItem.seq) ((leafQueue_perm f symbols).mem_iff.mp hx)
    rwa [map_seq_leafItem, List.mem_range] at hseq

/-! ### The loop of the rule (R233) -/

theorem exists_takeLeast {q : List QueueItem} (h : q ≠ []) : ∃ a o, takeLeast q = some (a, o) := by
  cases q with
  | nil => exact absurd rfl h
  | cons y q =>
    rw [takeLeast]
    split
    · exact ⟨_, _, rfl⟩
    · split <;> exact ⟨_, _, rfl⟩

/-- What is taken is an item no other item is before. -/
theorem takeLeast_spec {q o : List QueueItem} {a : QueueItem} (h : takeLeast q = some (a, o)) :
    (a :: o).Perm q ∧ ∀ x ∈ o, ¬x.before a = true := by
  induction q generalizing a o with
  | nil => simp [takeLeast] at h
  | cons y q ih =>
    rw [takeLeast] at h
    split at h
    · rename_i hnone
      have hq : q = [] := by
        by_contra hne
        obtain ⟨_, _, hsome⟩ := exists_takeLeast hne
        simp [hsome] at hnone
      cases h
      simp [hq]
    · rename_i b others hsome
      obtain ⟨hperm, hleast⟩ := ih hsome
      split at h
      · rename_i hby
        cases h
        refine ⟨(List.Perm.swap y a others).trans (hperm.cons y), fun x hx => ?_⟩
        obtain rfl | hx := List.mem_cons.mp hx
        · rw [QueueItem.before_iff] at *
          omega
        · exact hleast x hx
      · rename_i hby
        cases h
        refine ⟨.refl _, fun x hx => ?_⟩
        obtain rfl | hx := List.mem_cons.mp (hperm.mem_iff.mpr hx)
        · exact hby
        · have := hleast x hx
          rw [QueueItem.before_iff] at *
          omega

/-- From a queue in any order the least item is the head of the sorted one. -/
theorem takeLeast_of_perm {q rest : List QueueItem} {a : QueueItem} (hperm : q.Perm (a :: rest))
    (ha : ∀ x ∈ rest, a.before x = true) : ∃ o, takeLeast q = some (a, o) ∧ o.Perm rest := by
  obtain ⟨b, o, htake⟩ := exists_takeLeast (q := q) (fun h => by simp [h] at hperm)
  obtain ⟨hq, hleast⟩ := takeLeast_spec htake
  have hb := hq.trans hperm
  have hba : b = a := by
    by_contra hne
    have hbrest : b ∈ rest := List.mem_of_ne_of_mem hne (hb.mem_iff.mp List.mem_cons_self)
    have hao : a ∈ o := List.mem_of_ne_of_mem (Ne.symm hne) (hb.mem_iff.mpr List.mem_cons_self)
    exact hleast a hao (ha b hbrest)
  subst hba
  exact ⟨o, htake, hb.cons_inv⟩

theorem mergeAsWritten_singleton (fuel next : Nat) (a : QueueItem) : mergeAsWritten fuel next [a] = a.tree := by
  cases fuel <;> rfl

/-- Each round of the rule's loop takes the two items at the head of the sorted queue, and puts in the same parent. -/
theorem mergeAsWritten_eq_mergeQueue : ∀ (fuel next : Nat) {q sorted : List QueueItem}, q.Perm sorted →
    QueueReady next sorted → sorted ≠ [] → sorted.length ≤ fuel + 1 →
    mergeAsWritten fuel next q = mergeQueue fuel next sorted
  | _, _, _, [], _, _, hne, _ => absurd rfl hne
  | fuel, next, _, [a], hperm, _, _, _ => by
    rw [List.perm_singleton.mp hperm, mergeAsWritten_singleton, mergeQueue_singleton]
  | 0, _, _, _ :: _ :: _, _, _, _, hlen => by simp at hlen
  | fuel + 1, next, q, a :: b :: rest, hperm, hready, _, hlen => by
    obtain ⟨ha, hsorted⟩ := queueSorted_cons_iff.mp hready.sorted
    obtain ⟨hb, -⟩ := queueSorted_cons_iff.mp hsorted
    obtain ⟨q1, htake1, hperm1⟩ := takeLeast_of_perm hperm ha
    obtain ⟨q2, htake2, hperm2⟩ := takeLeast_of_perm hperm1 hb
    have hinsert : (a.parent next b :: q2).Perm (queueInsert (a.parent next b) rest) :=
      (hperm2.cons _).trans (queueInsert_perm _ _).symm
    have hround := mergeAsWritten_eq_mergeQueue fuel (next + 1) hinsert hready.round
      (List.ne_nil_of_length_pos (by simp [queueInsert_length])) (by simpa [queueInsert_length] using hlen)
    rw [mergeQueue_cons_cons, ← hround]
    simp only [mergeAsWritten, htake1, htake2]
    rfl

/-- Both loops start from the same leaves. -/
theorem mergeQueue_leafQueue (f : Vector Word 256) {numbers : List Nat} (hne : numbers ≠ []) :
    mergeQueue (numbers.map (BitVec.ofNat 8)).length (numbers.map (BitVec.ofNat 8)).length
        (leafQueue f (numbers.map (BitVec.ofNat 8))) =
      mergeAsWritten numbers.length numbers.length
        (numbers.zipIdx.map fun p => leafItem f (BitVec.ofNat 8 p.1, p.2)) := by
  have hleaves := leafQueue_perm f (numbers.map (BitVec.ofNat 8))
  have hready := leafQueue_ready f (numbers.map (BitVec.ofNat 8))
  rw [List.zipIdx_map, List.map_map] at hleaves
  rw [List.length_map] at hready ⊢
  have hpos := List.length_pos_iff.mpr hne
  exact (mergeAsWritten_eq_mergeQueue _ _ hleaves.symm hready
    (List.ne_nil_of_length_pos (by simpa [leafQueue_length] using hpos)) (by simp [leafQueue_length])).symm

/-- Settles O42: the queues hold the same leaves at the start, and the loops agree round by round. -/
theorem buildTreeIsTheLoopOfTheRule : Obligations.BuildTreeIsTheLoopOfTheRule := by
  intro f
  rw [buildTree, buildTreeAsWritten, presentSymbols_eq_map]
  match (List.range 256).filter fun v => decide (tableGet f (BitVec.ofNat 8 v) ≠ 0) with
  | [] => rfl
  | [v] => rfl
  | u :: v :: rest => exact mergeQueue_leafQueue f (List.cons_ne_nil u (v :: rest))

end Sys2Proof.Machine

namespace Sys2Proof.Machine

/-! ## Frequent symbols are not deeper (41_huffman_build.md R243 (5)) -/

/-! ### The depths of the queue's items in the tree that is merged from them -/

/-- The tree of each item of `q` stands in `t`, its root `depth` levels below the root of `t`. -/
def StandsIn (t : Tree) (depth : QueueItem → Nat) (q : List QueueItem) : Prop :=
  ∀ x ∈ q, ∀ p v, treeFollow x.tree p = some v → ∃ p', p'.length = depth x + p.length ∧ treeFollow t p' = some v

/-- Depths fall along the order of R234, and an item no more frequent than the two least together is at most one level above
the least. -/
structure DepthsFall (depth : QueueItem → Nat) (q : List QueueItem) : Prop where
  falls : ∀ x ∈ q, ∀ y ∈ q, x.before y = true → depth y ≤ depth x
  nearLeast : ∀ a b rest, q = a :: b :: rest → ∀ y ∈ q, y.freq ≤ a.freq + b.freq → depth a ≤ depth y + 1

/-- The depths before a round, from those after it: the two items taken out are the children of their parent `c`. -/
def depthsBefore (a b c : QueueItem) (depth : QueueItem → Nat) (x : QueueItem) : Nat :=
  if x = a ∨ x = b then depth c + 1 else depth x

theorem depthsBefore_child {a b c x : QueueItem} {depth : QueueItem → Nat} (h : x = a ∨ x = b) :
    depthsBefore a b c depth x = depth c + 1 := if_pos h

section
variable {next : Nat} {a b : QueueItem} {rest : List QueueItem} {depth : QueueItem → Nat}

theorem depthsBefore_rest (hready : QueueReady next (a :: b :: rest)) {x : QueueItem} (hx : x ∈ rest) (c : QueueItem) :
    depthsBefore a b c depth x = depth x := by
  obtain ⟨ha, hsorted⟩ := queueSorted_cons_iff.mp hready.sorted
  obtain ⟨hb, -⟩ := queueSorted_cons_iff.mp hsorted
  have hax := ha x (List.mem_cons_of_mem b hx)
  have hbx := hb x hx
  rw [QueueItem.before_iff] at hax hbx
  refine if_neg ?_
  rintro (rfl | rfl) <;> omega

theorem mem_round {x : QueueItem} :
    x ∈ queueInsert (a.parent next b) rest ↔ x = a.parent next b ∨ x ∈ rest :=
  (queueInsert_perm _ _).mem_iff.trans List.mem_cons

/-- After a round no item is more than one level below the new parent. -/
theorem DepthsFall.le_parent (hready : QueueReady next (a :: b :: rest))
    (h : DepthsFall depth (queueInsert (a.parent next b) rest)) {y : QueueItem} (hy : y ∈ rest) :
    depth y ≤ depth (a.parent next b) + 1 := by
  obtain ⟨ha, hsorted⟩ := queueSorted_cons_iff.mp hready.sorted
  obtain ⟨hb, -⟩ := queueSorted_cons_iff.mp hsorted
  have hround := hready.round.sorted
  have hmem : ∀ x, x ∈ queueInsert (a.parent next b) rest ↔ x = a.parent next b ∨ x ∈ rest := fun _ => mem_round
  have hparent := (hmem (a.parent next b)).mpr (.inl rfl)
  have hy' := (hmem y).mpr (.inr hy)
  generalize queueInsert (a.parent next b) rest = q at *
  match q with
  | [] => simp at hparent
  | [c] =>
    rw [List.mem_singleton] at hparent hy'
    rw [hparent, hy']
    omega
  | c :: d :: rest' =>
    obtain ⟨hc, -⟩ := queueSorted_cons_iff.mp hround
    have hyc : depth y ≤ depth c := by
      obtain rfl | hyrest := List.mem_cons.mp hy'
      · exact le_refl _
      · exact h.falls c List.mem_cons_self y hy' (hc y hyrest)
    obtain hcparent | hcrest := (hmem c).mp List.mem_cons_self
    · rw [← hcparent]
      omega
    · have hfreq : (a.parent next b).freq ≤ c.freq + d.freq := by
        obtain hdparent | hdrest := (hmem d).mp (by simp)
        · rw [hdparent]
          omega
        · have hac := ha c (List.mem_cons_of_mem b hcrest)
          have hbd := hb d hdrest
          rw [QueueItem.before_iff] at hac hbd
          simp only [QueueItem.parent]
          omega
      exact hyc.trans (h.nearLeast c d rest' rfl _ hparent hfreq)

theorem DepthsFall.before (hready : QueueReady next (a :: b :: rest))
    (h : DepthsFall depth (queueInsert (a.parent next b) rest)) :
    DepthsFall (depthsBefore a b (a.parent next b) depth) (a :: b :: rest) := by
  obtain ⟨ha, hsorted⟩ := queueSorted_cons_iff.mp hready.sorted
  obtain ⟨hb, -⟩ := queueSorted_cons_iff.mp hsorted
  have hmem : ∀ {x}, x ∈ a :: b :: rest → (x = a ∨ x = b) ∨ x ∈ rest := fun hx => by simpa [or_assoc] using hx
  refine ⟨fun x hx y hy hxy => ?_, fun a' b' rest' heq y hy hfreq => ?_⟩
  · obtain hx' | hx' := hmem hx <;> obtain hy' | hy' := hmem hy
    · rw [depthsBefore_child hx', depthsBefore_child hy']
    · rw [depthsBefore_child hx', depthsBefore_rest hready hy']
      exact h.le_parent hready hy'
    · have hyx : y.before x = true := by
        obtain rfl | rfl := hy'
        · exact ha x (List.mem_cons_of_mem b hx')
        · exact hb x hx'
      rw [QueueItem.before_iff] at hxy hyx
      omega
    · rw [depthsBefore_rest hready hx', depthsBefore_rest hready hy']
      exact h.falls x (mem_round.mpr (.inr hx')) y (mem_round.mpr (.inr hy')) hxy
  · obtain ⟨rfl, rfl, rfl⟩ : a = a' ∧ b = b' ∧ rest = rest' := by simpa using heq
    rw [depthsBefore_child (.inl rfl)]
    obtain hy | hy := hmem hy
    · rw [depthsBefore_child hy]
      omega
    · have hbefore : y.before (a.parent next b) = true :=
        (QueueItem.before_iff _ _).mpr (by
          have := hready.seqs y (by simp [hy])
          simp only [QueueItem.parent]
          omega)
      rw [depthsBefore_rest hready hy]
      exact Nat.succ_le_succ (h.falls y (mem_round.mpr (.inr hy)) _ (mem_round.mpr (.inl rfl)) hbefore)

theorem StandsIn.before {t : Tree} (hready : QueueReady next (a :: b :: rest))
    (h : StandsIn t depth (queueInsert (a.parent next b) rest)) :
    StandsIn t (depthsBefore a b (a.parent next b) depth) (a :: b :: rest) := by
  intro x hx p v hpath
  have hchild : ∀ bit, treeFollow (a.parent next b).tree (bit :: p) = some v →
      ∃ p', p'.length = depth (a.parent next b) + 1 + p.length ∧ treeFollow t p' = some v := by
    intro bit hbit
    obtain ⟨p', hlen, hp'⟩ := h _ (mem_round.mpr (.inl rfl)) _ _ hbit
    exact ⟨p', by simp only [hlen, List.length_cons]; omega, hp'⟩
  obtain rfl | rfl | hx := by simpa using hx
  · rw [depthsBefore_child (.inl rfl)]
    exact hchild false hpath
  · rw [depthsBefore_child (.inr rfl)]
    exact hchild true hpath
  · rw [depthsBefore_rest hready hx]
    exact h x (mem_round.mpr (.inr hx)) p v hpath

end

/-- The items of a sorted queue stand in the tree the merge loop makes of it, at depths that fall. -/
theorem exists_depths : ∀ (fuel next : Nat) {q : List QueueItem}, QueueReady next q → q.length ≤ fuel + 1 →
    ∃ depth, StandsIn (mergeQueue fuel next q) depth q ∧ DepthsFall depth q
  | _, _, [], _, _ => ⟨fun _ => 0, by simp [StandsIn], by simp, by simp⟩
  | fuel, next, [a], _, _ => by
    refine ⟨fun _ => 0, fun x hx p v hp => ⟨p, (Nat.zero_add _).symm, ?_⟩, fun _ _ _ _ _ => le_refl 0,
      fun _ _ _ h => by simp at h⟩
    rwa [mergeQueue_singleton, ← List.mem_singleton.mp hx]
  | 0, _, _ :: _ :: _, _, hlen => by simp at hlen
  | fuel + 1, next, a :: b :: rest, hready, hlen => by
    obtain ⟨depth, hstands, hfall⟩ := exists_depths fuel (next + 1) hready.round
      (by simpa [queueInsert_length] using hlen)
    exact ⟨_, mergeQueue_cons_cons fuel next a b rest ▸ hstands.before hready, hfall.before hready⟩

/-! ### The depths of the leaves -/

theorem buildTree_eq_mergeQueue {f : Vector Word 256} (h : presentSymbols f ≠ []) :
    buildTree f = mergeQueue (presentSymbols f).length (presentSymbols f).length (leafQueue f (presentSymbols f)) := by
  unfold buildTree
  match hsymbols : presentSymbols f with
  | [] => exact absurd hsymbols h
  | [v] => rfl
  | u :: v :: rest => rfl

/-- A more frequent symbol is not deeper. -/
theorem exists_paths_buildTree {f : Vector Word 256} {u v : Byte} (hu : 0 < (tableGet f u).toNat)
    (huv : (tableGet f u).toNat < (tableGet f v).toNat) :
    ∃ p q, treeFollow (buildTree f) p = some u ∧ treeFollow (buildTree f) q = some v ∧ q.length ≤ p.length := by
  have humem := mem_presentSymbols.mpr hu
  have hvmem := mem_presentSymbols.mpr (hu.trans huv)
  have hitem : ∀ {w}, w ∈ presentSymbols f → ∃ i, leafItem f (w, i) ∈ leafQueue f (presentSymbols f) := fun hw => by
    obtain ⟨i, hi, rfl⟩ := List.getElem_of_mem hw
    exact ⟨i, (leafQueue_perm f _).mem_iff.mpr
      (List.mem_map_of_mem (List.mk_mem_zipIdx_iff_getElem?.mpr (List.getElem?_eq_getElem hi)))⟩
  obtain ⟨depth, hstands, hfall⟩ := exists_depths (presentSymbols f).length (presentSymbols f).length
    (leafQueue_ready f (presentSymbols f)) (by rw [leafQueue_length]; omega)
  obtain ⟨i, hi⟩ := hitem humem
  obtain ⟨j, hj⟩ := hitem hvmem
  have hbefore : (leafItem f (u, i)).before (leafItem f (v, j)) = true := (QueueItem.before_iff _ _).mpr (.inl huv)
  obtain ⟨p, hplen, hp⟩ := hstands _ hi [] u rfl
  obtain ⟨q, hqlen, hq⟩ := hstands _ hj [] v rfl
  rw [← buildTree_eq_mergeQueue (List.ne_nil_of_mem humem)] at hp hq
  exact ⟨p, q, hp, hq, by rw [hplen, hqlen]; exact Nat.add_le_add_right (hfall.falls _ hi _ hj hbefore) _⟩

/-- Settles O46: codeword lengths are the depths of the leaves, for two present symbols make a tree with two leaves. -/
theorem frequentSymbolsHaveNoLongerCodewords : Obligations.FrequentSymbolsHaveNoLongerCodewords := by
  intro f u v hu huv
  obtain ⟨p, q, hp, hq, hle⟩ := exists_paths_buildTree hu huv
  have hnodup := buildTree_symbols_nodup f
  generalize buildTree f = t at *
  cases t with
  | leaf s =>
    have hus := treeFollow_mem_symbols hp
    have hvs := treeFollow_mem_symbols hq
    rw [Tree.symbols, List.mem_singleton] at hus hvs
    subst hus hvs
    omega
  | node l r => rwa [tableGet_deriveCodes_node hnodup hp, tableGet_deriveCodes_node hnodup hq]

end Sys2Proof.Machine

namespace Sys2Proof.Machine

/-! ## The serialized tree (41_huffman_build.md R245, R248) -/

/-! ### The records of `emit` (R245) -/

theorem emitAsWritten_index (t : Tree) (idx : Nat) : (emitAsWritten t idx).1 = idx := by
  cases t <;> rfl

theorem emitAsWritten_counter (t : Tree) (idx : Nat) : (emitAsWritten t idx).2.1 = idx + t.size := by
  induction t generalizing idx with
  | leaf s => rfl
  | node l r ihl ihr =>
    rw [emitAsWritten, Tree.size]
    simp only [ihl, ihr]
    omega

/-- The record of an internal node: its two child indices (30_encoding.md R166). -/
def nodeRecord (li ri : Nat) : List Byte := leBytes 2 li ++ leBytes 2 ri ++ [0, 0]

@[simp] theorem length_nodeRecord (li ri : Nat) : (nodeRecord li ri).length = 6 := by simp [nodeRecord]

theorem serializeFrom_node (i : Nat) (l r : Tree) :
    serializeFrom i (.node l r) =
      nodeRecord (i + 1) (i + 1 + l.size) ++ serializeFrom (i + 1) l ++ serializeFrom (i + 1 + l.size) r := rfl

/-- `emit` gives the left child the next index and the right child the first one after the left subtree (R246). -/
theorem emitAsWritten_records_node (l r : Tree) (idx : Nat) :
    (emitAsWritten (.node l r) idx).2.2 =
      (emitAsWritten l (idx + 1)).2.2 ++ (emitAsWritten r (idx + 1 + l.size)).2.2 ++
        [(idx, nodeRecord (idx + 1) (idx + 1 + l.size))] := by
  rw [emitAsWritten]
  simp only [emitAsWritten_index, emitAsWritten_counter]
  rfl

theorem emitAsWritten_indices (t : Tree) (idx : Nat) :
    ((emitAsWritten t idx).2.2.map Prod.fst).Perm (List.range' idx t.size) := by
  induction t generalizing idx with
  | leaf s => exact .refl _
  | node l r ihl ihr =>
    rw [emitAsWritten_records_node, List.map_append, List.map_append, Tree.size,
      show 1 + l.size + r.size = l.size + r.size + 1 by omega, List.range'_succ, ← List.range'_append_1]
    exact (((ihl _).append (ihr _)).append_right [idx]).trans (List.perm_append_singleton idx _)

/-- The bytes `rec` stand in the list `s` from offset `o` on. -/
def OccursAt (s rec : List Byte) (o : Nat) : Prop := ∃ before after, s = before ++ rec ++ after ∧ before.length = o

theorem OccursAt.take_drop {s rec : List Byte} {o : Nat} (h : OccursAt s rec o) : (s.drop o).take rec.length = rec := by
  obtain ⟨before, after, rfl, rfl⟩ := h
  simp

theorem OccursAt.append {s rec : List Byte} {o o' : Nat} (h : OccursAt s rec o) (left right : List Byte)
    (ho : left.length + o = o') : OccursAt (left ++ s ++ right) rec o' := by
  obtain ⟨before, after, rfl, rfl⟩ := h
  exact ⟨left ++ before, after ++ right, by simp, by simpa using ho⟩

/-- Each record `emit` writes has six bytes, and stands in the serialized subtree where its index says. -/
theorem emitAsWritten_record_occurs {t : Tree} {idx i : Nat} {rec : List Byte} (h : (i, rec) ∈ (emitAsWritten t idx).2.2) :
    rec.length = 6 ∧ ∃ k, i = idx + k ∧ OccursAt (serializeFrom idx t) rec (6 * k) := by
  induction t generalizing idx with
  | leaf s =>
    obtain ⟨rfl, rfl⟩ : i = idx ∧ rec = [0, 0, s, 0, 0, 0] := by simpa [emitAsWritten] using h
    exact ⟨rfl, 0, rfl, [], [], rfl, rfl⟩
  | node l r ihl ihr =>
    rw [emitAsWritten_records_node, List.append_assoc, List.mem_append, List.mem_append, List.mem_singleton] at h
    rw [serializeFrom_node]
    obtain h | h | h := h
    · obtain ⟨hlen, k, rfl, hoccurs⟩ := ihl h
      exact ⟨hlen, k + 1, by omega, hoccurs.append _ _ (by rw [length_nodeRecord]; omega)⟩
    · obtain ⟨hlen, k, rfl, hoccurs⟩ := ihr h
      have hright := hoccurs.append (nodeRecord (idx + 1) (idx + 1 + l.size) ++ serializeFrom (idx + 1) l) []
        (o' := 6 * (k + l.size + 1)) (by rw [List.length_append, length_nodeRecord, serializeFrom_length]; omega)
      rw [List.append_nil] at hright
      exact ⟨hlen, k + l.size + 1, by omega, hright⟩
    · obtain ⟨rfl, rfl⟩ := Prod.mk.inj h
      exact ⟨rfl, 0, rfl, [], _, by rw [List.append_assoc]; rfl, rfl⟩

/-- Settles O47: `emit` numbers the nodes in pre-order, and each record stands at six times its index. -/
theorem serializeIsEmitOfTheRule : Obligations.SerializeIsEmitOfTheRule := by
  refine fun T => ⟨emitAsWritten_index T 0, by rw [emitAsWritten_counter, Nat.zero_add], ?_, serializeFrom_length 0 T,
    fun i rec h => ?_⟩
  · rw [List.range_eq_range']
    exact emitAsWritten_indices T 0
  · obtain ⟨hlen, k, rfl, hoccurs⟩ := emitAsWritten_record_occurs h
    have hrec := hoccurs.take_drop
    rwa [hlen, ← Nat.zero_add k] at hrec

/-! ### The walk over the records (R246, R248; 42_huffman_decode.md R272) -/

/-- The subtree `t`, its root record number `k`, stands in the tree a decode reads. -/
structure RecordsAt (m : Mem) (d : DecodeSource) (k : Nat) (t : Tree) : Prop where
  holds : m.Holds (d.tree + 6 * k) (serializeFrom k t)
  inside : 6 * (k + t.size) ≤ d.treeLen
  fits : k + t.size ≤ 2 ^ 16

/-- The two bytes at offset `o` of the tree a decode reads name record `k`. -/
structure NamesRecord (m : Mem) (d : DecodeSource) (o k : Nat) : Prop where
  inside : o + 2 ≤ d.treeLen
  value : m.readLE (d.tree + o) 2 = k

/-- The bits `w` can be fetched from position `p` on. -/
def FetchesBits (m : Mem) (d : DecodeSource) (p : Nat) (w : List Bool) : Prop :=
  ∀ j < w.length, fetchBit m d (p + j) = .ok (w.getD j false)

section
variable {m : Mem} {d : DecodeSource}

theorem Mem.Holds.readLE_eq {a n v : Nat} (h : m.Holds a (leBytes n v)) (hv : v < 256 ^ n) : m.readLE a n = v := by
  rw [m.readLE_eq_littleEndianAt, h.littleEndianAt_eq hv]

theorem RecordsAt.leaf {k : Nat} {s : Byte} (h : RecordsAt m d k (.leaf s)) :
    NamesRecord m d (6 * k) 0 ∧ m.readByte (d.tree + 6 * k + 2) = s := by
  obtain ⟨hholds, hinside, -⟩ := h
  have hfield : m.Holds (d.tree + 6 * k) (leBytes 2 0) := ((m.holds_append_iff _ [0, 0] [s, 0, 0, 0]).mp hholds).1
  have hpayload := hholds.getElem? (k := 2) (by simp [serializeFrom])
  rw [Tree.size] at hinside
  exact ⟨⟨by omega, hfield.readLE_eq (by omega)⟩, (Option.some.inj hpayload).symm⟩

/-- What the record of an internal node names (R246). -/
theorem RecordsAt.node {k : Nat} {l r : Tree} (h : RecordsAt m d k (.node l r)) :
    (NamesRecord m d (6 * k) (k + 1) ∧ RecordsAt m d (k + 1) l) ∧
      NamesRecord m d (6 * k + 2) (k + 1 + l.size) ∧ RecordsAt m d (k + 1 + l.size) r := by
  obtain ⟨hholds, hinside, hfits⟩ := h
  simp only [serializeFrom_node, nodeRecord, Mem.holds_append_iff, List.length_append, length_leBytes, List.length_cons,
    List.length_nil, serializeFrom_length] at hholds
  obtain ⟨⟨⟨⟨hleft, hright⟩, -⟩, hl⟩, hr⟩ := hholds
  have hrsize := treeSize_add_one r
  rw [Tree.size] at hinside hfits
  refine ⟨⟨⟨by omega, hleft.readLE_eq (by omega)⟩, ?_, by omega, by omega⟩,
    ⟨by omega, hright.readLE_eq (by omega)⟩, ?_, by omega, by omega⟩
  · rwa [show d.tree + 6 * (k + 1) = d.tree + 6 * k + (2 + 2 + (0 + 1 + 1)) by omega]
  · rwa [show d.tree + 6 * (k + 1 + l.size) = d.tree + 6 * k + (2 + 2 + (0 + 1 + 1) + 6 * l.size) by omega]

/-- A fetched bit that leads to a leaf ends the walk. -/
theorem descend_of_leaf {fuel p tp k : Nat} {b : Bool} {s : Byte} (hfetch : fetchBit m d p = .ok b)
    (hchild : NamesRecord m d (tp + 2 * b.toNat) k) (hrecords : RecordsAt m d k (.leaf s)) :
    descend m d (fuel + 1) p tp = .ok (s, p + 1) := by
  obtain ⟨⟨htest, hzero⟩, hpayload⟩ := hrecords.leaf
  have hinside := hrecords.inside
  rw [Tree.size] at hinside
  have h1 : ¬d.treeLen < tp + 2 * b.toNat + 2 := not_lt.mpr hchild.inside
  simp only [descend, hfetch, h1, if_false, hchild.value, not_lt.mpr htest, hzero, if_true,
    show ¬d.treeLen < 6 * k + 3 by omega, hpayload]

/-- A fetched bit that leads to an internal node goes on from its record. -/
theorem descend_of_node {fuel p tp k : Nat} {b : Bool} {l r : Tree} (hfetch : fetchBit m d p = .ok b)
    (hchild : NamesRecord m d (tp + 2 * b.toNat) k) (hrecords : RecordsAt m d k (.node l r)) :
    descend m d (fuel + 1) p tp = descend m d fuel (p + 1) (6 * k) := by
  obtain ⟨⟨⟨htest, hfield⟩, -⟩, -⟩ := hrecords.node
  have h1 : ¬d.treeLen < tp + 2 * b.toNat + 2 := not_lt.mpr hchild.inside
  simp only [descend, hfetch, h1, if_false, hchild.value, not_lt.mpr htest, hfield, Nat.succ_ne_zero]

theorem fetchesBits_cons_iff {p : Nat} {b : Bool} {w : List Bool} :
    FetchesBits m d p (b :: w) ↔ fetchBit m d p = .ok b ∧ FetchesBits m d (p + 1) w := by
  constructor
  · intro h
    refine ⟨h 0 (by simp), fun j hj => ?_⟩
    have := h (j + 1) (by simpa using hj)
    rwa [Nat.add_comm j 1, ← Nat.add_assoc, Nat.add_comm 1 j] at this
  · rintro ⟨hb, hw⟩ (_ | j) hj
    · exact hb
    · have := hw j (by simpa using hj)
      rwa [Nat.add_assoc, Nat.add_comm 1 j] at this

/-- A blob holds every bit fetched from it (42_huffman_decode.md R276). -/
theorem FetchesBits.length_le {p : Nat} {w : List Bool} (h : FetchesBits m d p w) : w.length ≤ 8 * d.blobLen + 1 - p := by
  obtain hw | hw := Nat.eq_zero_or_pos w.length
  · omega
  · obtain ⟨hlast, -⟩ := fetchBit_ok (h (w.length - 1) (by omega))
    omega

/-- A fetched bit leads to the root of `t`, and the bits after it follow a path of `t` to its leaf. -/
theorem descend_of_path {t : Tree} {fuel p tp k : Nat} {b : Bool} {w : List Bool} {v : Byte}
    (hrecords : RecordsAt m d k t) (hchild : NamesRecord m d (tp + 2 * b.toNat) k) (hpath : treeFollow t w = some v)
    (hfetch : FetchesBits m d p (b :: w)) (hfuel : (b :: w).length ≤ fuel) :
    descend m d fuel p tp = .ok (v, p + (b :: w).length) := by
  induction t generalizing fuel p tp k b w with
  | leaf s =>
    obtain ⟨hb, -⟩ := fetchesBits_cons_iff.mp hfetch
    match fuel, w with
    | 0, _ => simp at hfuel
    | _, _ :: _ => simp [treeFollow] at hpath
    | fuel + 1, [] => rw [descend_of_leaf hb hchild hrecords, Option.some.inj hpath]; rfl
  | node l r ihl ihr =>
    obtain ⟨hb, hw⟩ := fetchesBits_cons_iff.mp hfetch
    obtain ⟨⟨hleft, hl⟩, hright, hr⟩ := hrecords.node
    match fuel, w with
    | 0, _ => simp at hfuel
    | _, [] => simp [treeFollow] at hpath
    | fuel + 1, c :: w =>
      rw [descend_of_node hb hchild hrecords, List.length_cons, Nat.add_comm (c :: w).length, ← Nat.add_assoc]
      cases c with
      | false => exact ihl hl hleft hpath hw (Nat.le_of_succ_le_succ hfuel)
      | true => exact ihr hr hright hpath hw (Nat.le_of_succ_le_succ hfuel)

/-- The walk over a serialized tree ends at the leaf of the codeword it is given. -/
theorem decodeSymbol_of_codeword {t : Tree} (hnodup : t.symbols.Nodup) {v : Byte} {p : Nat}
    (hcode : tableGet (deriveCodes t) v ≠ []) (hrecords : RecordsAt m d 0 t)
    (hfetch : FetchesBits m d p (tableGet (deriveCodes t) v)) :
    decodeSymbol m d p = .ok (v, p + (tableGet (deriveCodes t) v).length) := by
  have hfuel := hfetch.length_le
  cases t with
  | leaf s =>
    rw [tableGet_deriveCodes_leaf] at hcode hfetch hfuel ⊢
    have hv : v = s := by
      by_contra hne
      exact hcode (if_neg hne)
    rw [if_pos hv] at hfetch hfuel ⊢
    exact descend_of_path (b := false) (w := []) hrecords hrecords.leaf.1 (congrArg some hv.symm) hfetch hfuel
  | node l r =>
    obtain ⟨⟨hleft, hl⟩, hright, hr⟩ := hrecords.node
    have hpath := (tableGet_deriveCodes_eq_iff hnodup hcode).mp rfl
    generalize tableGet (deriveCodes (.node l r)) v = w at *
    match w with
    | [] => exact absurd rfl hcode
    | false :: w => exact descend_of_path hl hleft hpath hfetch hfuel
    | true :: w => exact descend_of_path hr hright hpath hfetch hfuel

end

/-- Settles O49: a built tree has few enough nodes for 16-bit indices, so each bit of a codeword leads to the record its path
goes on from. -/
theorem serializedTreeDecodesEveryCodeword : Obligations.SerializedTreeDecodesEveryCodeword := by
  intro f v m d p T w hw hlen hbytes hfetch
  have hsize : T.size ≤ 511 := buildTree_size_le f
  have hholds : m.Holds d.tree (serializeTree T) := by rwa [Mem.Holds, serializeTree, serializeFrom_length, ← hlen]
  have hrecords : RecordsAt m d 0 T := ⟨hholds, by omega, by omega⟩
  exact decodeSymbol_of_codeword (buildTree_symbols_nodup f) hw hrecords hfetch

end Sys2Proof.Machine

namespace Sys2Proof.Machine

/-! ## The tree builder's commands (41_huffman_build.md R231 to R250) -/

/-! ### The lists of three checks -/

section
variable (s : State) {c₁ c₂ c₃ : Prop} [Decidable c₁] [Decidable c₂] [Decidable c₃] {code : ErrCode} {info : Nat}
  {o o₁ o₂ o₃ : Host.Outcome State Fault Refusal}

theorem State.thirdCheck_fails (h₁ : ¬c₁) (h₂ : ¬c₂) (h₃ : c₃) :
    ∃ t, (if c₁ then o₁ else if c₂ then o₂ else if c₃ then .next (s.raise code info) else o) = .next t ∧
      s.failedCleanly t code info := by
  rw [if_neg h₁]
  exact s.secondCheck_fails h₂ h₃

theorem threeChecks_pass (h₁ : ¬c₁) (h₂ : ¬c₂) (h₃ : ¬c₃) :
    (if c₁ then o₁ else if c₂ then o₂ else if c₃ then o₃ else o) = o := by
  rw [if_neg h₁, bothChecks_pass h₂ h₃]

end

theorem State.not_regionValid_iff (s : State) (b n : Nat) : (!s.regionValid b n) = true ↔ s.params.bufSize < b + n := by
  simp [State.regionValid]

/-! ### Counting (R231, R232) -/

/-- Counting adds to each entry the occurrences of its symbol, modulo the width of an entry. -/
theorem tableGet_countSymbols (f : Vector Word 256) (bs : List Byte) (v : Byte) :
    tableGet (countSymbols f bs) v = tableGet f v + BitVec.ofNat 32 (bs.count v) := by
  induction bs generalizing f with
  | nil => simp [countSymbols]
  | cons b bs ih =>
    rw [countSymbols, ih, tableGet_tableSet]
    by_cases h : v = b
    · subst h
      rw [if_pos rfl, List.count_cons_self, BitVec.ofNat_add, BitVec.add_assoc, BitVec.add_comm (BitVec.ofNat 32 _)]
      rfl
    · rw [if_neg h, List.count_cons_of_ne (Ne.symm h)]

theorem Mem.bytes_eq_map (m : Mem) (a n : Nat) : m.bytes a n = (List.range n).map fun j => m.readByte (a + j) :=
  List.ext_getElem (by simp) fun i hi _ => by simp [m.getElem_bytes a n i hi]

theorem count_bytes (m : Mem) (a n : Nat) (v : Byte) : (m.bytes a n).count v = occurrences m a n v := by
  rw [Mem.bytes_eq_map, List.count, List.countP_map, List.countP_eq_length_filter, occurrences]
  rfl

theorem occurrences_le (m : Mem) (a n : Nat) (v : Byte) : occurrences m a n v ≤ n := by
  simpa [count_bytes] using List.count_le_length (l := m.bytes a n) (a := v)

/-- Settles O27: the command replaces FREQ and TOTAL, then completes. -/
theorem freqClearZeroesTheTable : Obligations.FreqClearZeroesTheTable :=
  ⟨decode_encode .hufFreqClear, fun s => ⟨_, rfl, (s.setFreq (Vector.replicate 256 0) 0).complete_completed 0 0 0 0,
    tableGet_replicate 0, rfl, rfl, rfl, rfl, fun _ => rfl⟩⟩

/-- Settles O28: the two checks in order, and the counts of the source's bytes. -/
theorem freqAddCountsTheSource : Obligations.FreqAddCountsTheSource := by
  refine ⟨decode_encode .hufFreqAdd, fun s => ⟨fun hregion htotal => ?_,
    fun hregion => s.firstCheck_fails ((s.not_regionValid_iff _ _).mpr hregion),
    fun hregion htotal => s.secondCheck_fails (by rw [s.not_regionValid_iff]; omega) htotal⟩⟩
  refine ⟨_, bothChecks_pass (by rw [s.not_regionValid_iff]; omega) (by omega), State.complete_completed _ _ _ _ _,
    fun v => ?_, rfl, rfl, rfl, rfl, fun _ => rfl⟩
  rw [← count_bytes]
  exact tableGet_countSymbols _ _ v

/-! ### Building (R238, R239) -/

theorem buildTree_nodeCount (f : Vector Word 256) : (BitVec.ofNat 9 (buildTree f).size).toNat = (buildTree f).size := by
  rw [BitVec.toNat_ofNat, Nat.mod_eq_of_lt (Nat.lt_succ_of_le (buildTree_size_le f))]

theorem State.buildFromFreq_completed (s : State) :
    s.completed s.buildFromFreq (buildTree s.freq).size (presentCount s.freq) 0 0 := by
  rw [← length_presentSymbols]
  exact State.complete_completed _ _ _ _ _

/-- Settles O29: the tree is installed, and its node count fits its field. -/
theorem hufBuildInstallsTheTree : Obligations.HufBuildInstallsTheTree :=
  ⟨decode_encode .hufBuild, fun s => ⟨_, rfl, s.buildFromFreq_completed, rfl, rfl, buildTree_nodeCount s.freq, rfl, rfl,
    fun _ => rfl⟩⟩

/-- Settles O30: from a cleared table no count wraps, and the build is HUF_BUILD's. -/
theorem hufBuildFromCountsAndBuilds : Obligations.HufBuildFromCountsAndBuilds := by
  refine ⟨decode_encode .hufBuildFrom, fun s => ⟨fun hregion => ?_,
    fun hregion => s.firstCheck_fails ((s.not_regionValid_iff _ _).mpr hregion)⟩⟩
  refine ⟨_, if_neg (by rw [s.not_regionValid_iff]; omega), State.buildFromFreq_completed _, fun v => ?_, rfl, rfl, rfl,
    fun _ => rfl⟩
  have hlt := Nat.lt_of_le_of_lt (occurrences_le s.buf (s.arg 0) (s.arg 1) v) (s.arg_lt 1)
  have hcount := tableGet_countSymbols (Vector.replicate 256 0) (s.buf.bytes (s.arg 0) (s.arg 1)) v
  rw [tableGet_replicate, zero_add, count_bytes] at hcount
  exact (congrArg BitVec.toNat hcount).trans (toNat_ofNat_of_lt hlt)

/-! ### Deriving (R244) -/

theorem codeCount_eq (c : Vector (List Bool) 256) :
    codeCount c =
      ((List.range 256).filter fun v => decide (1 ≤ (tableGet c (BitVec.ofNat 8 v)).length)).length := by
  rw [codeCount, toList_eq_map_tableGet, allBytes, List.map_map, List.filter_map, List.length_map]
  rfl

/-- The largest length is the length of a codeword, and no codeword is longer. -/
theorem foldr_max_length_spec (l : List (List Bool)) :
    (∀ w ∈ l, w.length ≤ l.foldr (fun w m => max w.length m) 0) ∧
      (l ≠ [] → ∃ w ∈ l, w.length = l.foldr (fun w m => max w.length m) 0) := by
  induction l with
  | nil => simp
  | cons w l ih =>
    obtain ⟨hle, hex⟩ := ih
    refine ⟨fun w' hw' => ?_, fun _ => ?_⟩
    · obtain rfl | hw' := List.mem_cons.mp hw'
      · exact Nat.le_max_left _ _
      · exact (hle w' hw').trans (Nat.le_max_right _ _)
    · obtain h | h := Nat.le_total (l.foldr (fun w m => max w.length m) 0) w.length
      · exact ⟨w, List.mem_cons_self, (Nat.max_eq_left h).symm⟩
      · by_cases hl : l = []
        · exact ⟨w, List.mem_cons_self, by simp [hl]⟩
        · obtain ⟨w', hw', hlen⟩ := hex hl
          exact ⟨w', List.mem_cons_of_mem w hw', hlen.trans (Nat.max_eq_right h).symm⟩

theorem length_le_maxCodeLength (c : Vector (List Bool) 256) (v : Byte) :
    (tableGet c v).length ≤ maxCodeLength c :=
  (foldr_max_length_spec c.toList).1 _ (Vector.mem_toList_iff.mpr (Vector.getElem_mem (byte_lt_256 v)))

theorem exists_length_eq_maxCodeLength (c : Vector (List Bool) 256) :
    ∃ v, (tableGet c v).length = maxCodeLength c := by
  obtain ⟨w, hw, hlen⟩ := (foldr_max_length_spec c.toList).2 (List.ne_nil_of_length_pos (by simp))
  rw [toList_eq_map_tableGet] at hw
  obtain ⟨v, -, rfl⟩ := List.mem_map.mp hw
  exact ⟨v, hlen⟩

/-- Settles O31: the lengths of Derive's codewords are at most 255, so the largest fits HUF_MAXLEN. -/
theorem hufDeriveInstallsTheCodewords : Obligations.HufDeriveInstallsTheCodewords := by
  refine ⟨decode_encode .hufDerive, fun s => ⟨fun hvalid hnodup => ?_,
    fun hvalid => s.firstCheck_fails (by simp [hvalid])⟩⟩
  have hlongest := maxCodeLength_le (length_deriveCodes_le hnodup)
  refine ⟨_, maxCodeLength (deriveCodes s.tree), if_neg (by simp [hvalid]), ?_, rfl, length_le_maxCodeLength _,
    exists_length_eq_maxCodeLength _, rfl, toNat_ofNat_of_lt (by omega), rfl, rfl, rfl, fun _ => rfl⟩
  rw [← codeCount_eq]
  exact State.complete_completed _ _ _ _ _

/-! ### Serializing (R247) -/

theorem Mem.holds_store (m : Mem) (a : Nat) (bs : List Byte) : (m.store a bs).Holds a bs := by
  refine List.ext_getElem (Mem.length_bytes _ _ _) fun i hi _ => ?_
  rw [Mem.getElem_bytes _ _ _ _ hi, Mem.readByte_store_of_mem _ _ _ _ (by omega) (by simpa using hi)]
  simp

/-- Settles O32: the three checks in order, and one store of the records. -/
theorem hufSerializeWritesTheRecords : Obligations.HufSerializeWritesTheRecords := by
  refine ⟨decode_encode .hufSerialize, fun s => ⟨fun hvalid hcount hregion hneed => ?_,
    fun hvalid => s.firstCheck_fails (by simp [hvalid]),
    fun hvalid hregion => s.secondCheck_fails (by simp [hvalid]) ((s.not_regionValid_iff _ _).mpr hregion),
    fun hvalid hregion hneed =>
      s.thirdCheck_fails (by simp [hvalid]) (by rw [s.not_regionValid_iff]; omega) hneed⟩⟩
  have hlen : (serializeTree s.tree).length = 6 * s.huf.nodeCount.toNat := by
    rw [serializeTree, serializeFrom_length, hcount]
  refine ⟨_, threeChecks_pass (by simp [hvalid]) (by rw [s.not_regionValid_iff]; omega) (by omega),
    State.complete_completed _ _ _ _ _, ?_, fun x hx => ?_, rfl, rfl, rfl, rfl, rfl⟩
  · rw [← hlen]
    exact s.buf.holds_store _ _
  · exact s.buf.readByte_store_of_not_mem _ _ x (by rwa [hlen])

/-! ### Dumping the codewords (R250, 30_encoding.md R183) -/

theorem testBit_bitsToNat (w : List Bool) (k : Nat) : (bitsToNat w).testBit k = w.getD k false := by
  induction w generalizing k with
  | nil => simp [bitsToNat]
  | cons b w ih =>
    cases k with
    | zero => cases b <;> simp [bitsToNat, Nat.testBit_zero]
    | succ k =>
      have hdiv : (b.toNat + 2 * bitsToNat w) / 2 = bitsToNat w := by cases b <;> simp; omega
      rw [bitsToNat, Nat.testBit_succ, hdiv, ih]
      rfl

/-- What an entry says of its codeword (30_encoding.md R183). -/
theorem Mem.Holds.dumpEntry_parts {m : Mem} {a : Nat} {c : List Bool} (h : m.Holds a (dumpEntry c)) (hc : c.length ≤ 255) :
    littleEndianAt m a 2 = c.length ∧ littleEndianAt m (a + 2) 2 = 0 ∧
      ∀ j < 256, (m.readByte (a + 4 + j / 8)).getLsbD (j % 8) = c.getD j false := by
  simp only [dumpEntry, Mem.holds_append_iff, List.length_append, length_leBytes] at h
  obtain ⟨⟨hlen, hzero⟩, hbits⟩ := h
  refine ⟨hlen.littleEndianAt_eq (by omega), hzero.littleEndianAt_eq (by omega), fun j hj => ?_⟩
  have hbyte := hbits.getElem? (k := j / 8) (by simp; omega)
  rw [List.getElem?_map, List.getElem?_range (by omega), Option.map_some, Option.some.injEq] at hbyte
  rw [← hbyte, BitVec.getLsbD_ofNat, testBit_bitsToNat]
  simp [List.getD_eq_getElem?_getD, Nat.mod_lt, Nat.div_add_mod]

/-- Settles O33: the three checks in order, and one store of 256 entries of 36 bytes. -/
theorem hufDumpCodesWritesEveryEntry : Obligations.HufDumpCodesWritesEveryEntry := by
  refine ⟨decode_encode .hufDumpCodes, fun s => ⟨fun hvalid hlen hregion hneed => ?_,
    fun hvalid => s.firstCheck_fails (by simp [hvalid]),
    fun hvalid hregion => s.secondCheck_fails (by simp [hvalid]) ((s.not_regionValid_iff _ _).mpr hregion),
    fun hvalid hregion hneed =>
      s.thirdCheck_fails (by simp [hvalid]) (by rw [s.not_regionValid_iff]; omega) hneed⟩⟩
  refine ⟨_, threeChecks_pass (by simp [hvalid]) (by rw [s.not_regionValid_iff]; omega) (by omega),
    State.complete_completed _ _ _ _ _, fun v => ?_, fun x hx => ?_, rfl, rfl, rfl, rfl, rfl⟩
  · have hentry := (s.buf.holds_store (s.arg 0) (dumpCodes s.code)).record (w := 36) (i := v.toNat)
      (fun c _ => dumpEntry_length c) (by simpa using v.isLt)
    have hv : (tableGet s.code v).length ≤ 255 := by simpa using hlen v.toNat v.isLt
    rw [Nat.mul_comm 36]
    exact Mem.Holds.dumpEntry_parts hentry hv
  · exact s.buf.readByte_store_of_not_mem _ _ x (by rwa [dumpCodes_length])

end Sys2Proof.Machine

namespace Sys2Proof.Machine

/-! ## The decoder (42_huffman_decode.md R271 to R281) -/

section
variable {ε α β : Type}

@[simp] theorem except_ok_bind (a : α) (f : α → Except ε β) : (Except.ok a >>= f) = f a := rfl

@[simp] theorem except_error_bind (e : ε) (f : α → Except ε β) : (Except.error e >>= f) = .error e := rfl

end

/-! ### One bit of the walk (R271, R272) -/

/-- The record that the field at offset `o` of the tree names, after the walk's checks in their order: a leaf's payload, or the
offset of an internal node. -/
def namedRecord (m : Mem) (d : DecodeSource) (o : Nat) : Except CmdError (Byte ⊕ Nat) :=
  if d.treeLen < o + 2 then .error { code := .fmtTreeIndex, info := o }
  else
    let child := 6 * littleEndianAt m (d.tree + o) 2
    if d.treeLen < child + 2 then .error { code := .fmtTreeIndex, info := child }
    else if littleEndianAt m (d.tree + child) 2 = 0 then
      if d.treeLen < child + 3 then .error { code := .fmtTreeIndex, info := child + 2 }
      else .ok (.inl (m.readByte (d.tree + child + 2)))
    else .ok (.inr child)

/-- One bit of the walk: it is fetched, and picks one of the two fields of the record at `tp`. -/
def walkStep (m : Mem) (d : DecodeSource) (p tp : Nat) : Except CmdError (Byte ⊕ Nat) :=
  fetchBit m d p >>= fun b => namedRecord m d (tp + 2 * b.toNat)

/-- The walk goes on bit by bit until a leaf is named. -/
theorem descend_succ (m : Mem) (d : DecodeSource) (fuel p tp : Nat) :
    descend m d (fuel + 1) p tp =
      walkStep m d p tp >>= Sum.elim (fun v => .ok (v, p + 1)) (descend m d fuel (p + 1)) := by
  rw [descend, walkStep]
  cases fetchBit m d p with
  | error e => rfl
  | ok b =>
    simp only [except_ok_bind, namedRecord, Mem.readLE_eq_littleEndianAt]
    split_ifs <;> rfl

/-- A decode goes on symbol by symbol. -/
theorem decodeCore_succ (m : Mem) (d : DecodeSource) (nsym p : Nat) :
    decodeCore m d (nsym + 1) p =
      decodeSymbol m d p >>= fun x =>
        decodeCore m d nsym x.2 >>= fun y => .ok (nibbles x.1 ++ y.1, y.2) := by
  rw [decodeCore]
  cases decodeSymbol m d p with
  | error e => rfl
  | ok x =>
    rw [except_ok_bind]
    dsimp only
    cases decodeCore m d nsym x.2 <;> rfl

theorem fetchBit_of_lt {m : Mem} {d : DecodeSource} {p : Nat} (h : d.blobLen < 2 * (p / 16) + 2) :
    fetchBit m d p = .error { code := .fmtBitstreamEnd, info := p } := if_pos h

theorem walkStep_of_le {m : Mem} {d : DecodeSource} {p : Nat} (h : 2 * (p / 16) + 2 ≤ d.blobLen) (tp : Nat) :
    walkStep m d p tp = namedRecord m d (tp + 2 * streamBit m d.blob p) := by
  rw [walkStep, fetchBit_of_le h, except_ok_bind, Mem.toNat_wordBit_eq_streamBit]

theorem walkStep_of_lt {m : Mem} {d : DecodeSource} {p : Nat} (h : d.blobLen < 2 * (p / 16) + 2) (tp : Nat) :
    walkStep m d p tp = .error { code := .fmtBitstreamEnd, info := p } := by
  rw [walkStep, fetchBit_of_lt h, except_error_bind]

/-! ### The walk of the rule (R272, R276) -/

/-- The walk of the rule ends at its first bit, or goes on from an internal node. -/
theorem walksAsWritten_iff {m : Mem} {d : DecodeSource} {p tp : Nat} {r : Except CmdError (Byte × Nat)} :
    WalksAsWritten m d p tp r ↔
      (∃ e, walkStep m d p tp = .error e ∧ r = .error e) ∨
      (∃ v, walkStep m d p tp = .ok (.inl v) ∧ r = .ok (v, p + 1)) ∨
      ∃ child, walkStep m d p tp = .ok (.inr child) ∧ WalksAsWritten m d (p + 1) child r := by
  constructor
  · intro h
    cases h with
    | blobEnds h => exact .inl ⟨_, walkStep_of_lt h tp, rfl⟩
    | noChildIndex h ho h1 => exact .inl ⟨_, by simp [walkStep_of_le h, namedRecord, ← ho, h1], rfl⟩
    | noLeafTest h ho h1 hc h2 =>
      exact .inl ⟨_, by simp [walkStep_of_le h, namedRecord, ← ho, not_lt.mpr h1, ← hc, h2], rfl⟩
    | noPayload h ho h1 hc h2 hl h3 =>
      exact .inl ⟨_, by simp [walkStep_of_le h, namedRecord, ← ho, not_lt.mpr h1, ← hc, not_lt.mpr h2, hl, h3], rfl⟩
    | leaf h ho h1 hc h2 hl h3 =>
      exact .inr (.inl ⟨_, by
        simp [walkStep_of_le h, namedRecord, ← ho, not_lt.mpr h1, ← hc, not_lt.mpr h2, hl, not_lt.mpr h3], rfl⟩)
    | descends h ho h1 hc h2 hl next =>
      exact .inr (.inr ⟨_, by simp [walkStep_of_le h, namedRecord, ← ho, not_lt.mpr h1, ← hc, not_lt.mpr h2, hl], next⟩)
  · obtain h | h := Nat.lt_or_ge d.blobLen (2 * (p / 16) + 2)
    · simpa [walkStep_of_lt h] using fun hr => hr ▸ .blobEnds h
    · rw [walkStep_of_le h, namedRecord]
      dsimp only
      split_ifs with h1 h2 hl h3
      · simpa using fun hr => hr ▸ .noChildIndex h rfl h1
      · simpa using fun hr => hr ▸ .noLeafTest h rfl (not_lt.mp h1) rfl h2
      · simpa using fun hr => hr ▸ .noPayload h rfl (not_lt.mp h1) rfl (not_lt.mp h2) hl h3
      · simpa using fun hr => hr ▸ .leaf h rfl (not_lt.mp h1) rfl (not_lt.mp h2) hl (not_lt.mp h3)
      · simpa using .descends h rfl (not_lt.mp h1) rfl (not_lt.mp h2) hl

/-- With the fuel of the model, the model's walk is the rule's: each bit it fetches lies below bit `8 · B` (R276). -/
theorem descend_eq_iff {m : Mem} {d : DecodeSource} {fuel p tp : Nat} (hfuel : 8 * d.blobLen + 1 - p ≤ fuel)
    {r : Except CmdError (Byte × Nat)} : descend m d fuel p tp = r ↔ WalksAsWritten m d p tp r := by
  induction fuel generalizing p tp with
  | zero =>
    rw [walksAsWritten_iff, walkStep_of_lt (by omega), descend]
    simp [eq_comm]
  | succ fuel ih =>
    rw [walksAsWritten_iff, descend_succ]
    rcases walkStep m d p tp with e | v | child
    · simp [eq_comm]
    · simp [eq_comm]
    · simpa using ih (by omega)

theorem decodeSymbol_eq_iff {m : Mem} {d : DecodeSource} {p : Nat} {r : Except CmdError (Byte × Nat)} :
    decodeSymbol m d p = r ↔ WalksAsWritten m d p 0 r := descend_eq_iff le_rfl

/-- Settles O48: bit by bit the walks agree, so symbol by symbol the decodes do. -/
theorem decodeCoreIsTheWalkOfTheRule : Obligations.DecodeCoreIsTheWalkOfTheRule := by
  intro m d nsym p r
  constructor
  · rintro rfl
    induction nsym generalizing p with
    | zero => exact .done
    | succ nsym ih =>
      rw [decodeCore_succ]
      cases hsymbol : decodeSymbol m d p with
      | error e => exact .symbolError (decodeSymbol_eq_iff.mp hsymbol)
      | ok x =>
        have hrest := ih x.2
        rw [except_ok_bind]
        cases hcore : decodeCore m d nsym x.2 with
        | error e => exact .laterError (decodeSymbol_eq_iff.mp hsymbol) (hcore ▸ hrest)
        | ok y => exact .symbol (decodeSymbol_eq_iff.mp hsymbol) (hcore ▸ hrest)
  · intro h
    induction h with
    | done => rfl
    | symbolError h => rw [decodeCore_succ, decodeSymbol_eq_iff.mpr h, except_error_bind]
    | laterError h _ ih => rw [decodeCore_succ, decodeSymbol_eq_iff.mpr h, except_ok_bind, ih, except_error_bind]
    | symbol h _ ih =>
      rw [decodeCore_succ, decodeSymbol_eq_iff.mpr h, except_ok_bind, ih, except_ok_bind]
      rfl

/-! ### What a decode reads (R278, R279) -/

theorem boolToNat_injective : Function.Injective Bool.toNat := by decide

section
variable {m n : Mem} {d : DecodeSource}

theorem namedRecord_congr (htree : ∀ j < d.treeLen, n.readByte (d.tree + j) = m.readByte (d.tree + j)) (o : Nat) :
    namedRecord n d o = namedRecord m d o := by
  have hfield : ∀ {x}, x + 2 ≤ d.treeLen → littleEndianAt n (d.tree + x) 2 = littleEndianAt m (d.tree + x) 2 := by
    intro x hx
    rw [← Mem.readLE_eq_littleEndianAt, ← Mem.readLE_eq_littleEndianAt]
    exact Mem.readLE_congr fun k hk => by rw [Nat.add_assoc, htree _ (by omega)]
  by_cases ho : d.treeLen < o + 2
  · simp only [namedRecord, if_pos ho]
  · have hindex := hfield (not_lt.mp ho)
    by_cases hchild : d.treeLen < 6 * littleEndianAt m (d.tree + o) 2 + 2
    · simp only [namedRecord, hindex, if_neg ho, if_pos hchild]
    · simp only [namedRecord, hindex, hfield (not_lt.mp hchild), if_neg ho, if_neg hchild]
      split_ifs with hleaf hpayload
      · rfl
      · rw [Nat.add_assoc, htree _ (by omega)]
      · rfl

/-- A fetch at or after position `p` reads one stream bit at or after `p`. -/
theorem fetchBit_congr {p q : Nat}
    (hstream : ∀ q, p ≤ q → q < 8 * d.blobLen → streamBit n d.blob q = streamBit m d.blob q) (hq : p ≤ q) :
    fetchBit n d q = fetchBit m d q := by
  obtain h | h := Nat.lt_or_ge d.blobLen (2 * (q / 16) + 2)
  · rw [fetchBit_of_lt h, fetchBit_of_lt h]
  · have hbit := hstream q hq (by omega)
    rw [← Mem.toNat_wordBit_eq_streamBit, ← Mem.toNat_wordBit_eq_streamBit] at hbit
    rw [fetchBit_of_le h, fetchBit_of_le h, boolToNat_injective hbit]

theorem descend_congr {p q : Nat} (htree : ∀ j < d.treeLen, n.readByte (d.tree + j) = m.readByte (d.tree + j))
    (hstream : ∀ q, p ≤ q → q < 8 * d.blobLen → streamBit n d.blob q = streamBit m d.blob q) (hq : p ≤ q)
    (fuel tp : Nat) : descend n d fuel q tp = descend m d fuel q tp := by
  induction fuel generalizing q tp with
  | zero => rfl
  | succ fuel ih =>
    have hstep : walkStep n d q tp = walkStep m d q tp := by
      simp only [walkStep, fetchBit_congr hstream hq, namedRecord_congr htree]
    rw [descend_succ, descend_succ, hstep, funext (ih (Nat.le_succ_of_le hq))]

/-- The walk of a symbol ends after its start (R276). -/
theorem lt_of_descend_eq_ok {fuel p tp p' : Nat} {v : Byte} (h : descend m d fuel p tp = .ok (v, p')) : p < p' := by
  induction fuel generalizing p tp with
  | zero => simp [descend] at h
  | succ fuel ih =>
    rw [descend_succ, except_bind_eq_ok] at h
    obtain ⟨_ | child, -, h⟩ := h
    · simp at h
      omega
    · exact Nat.lt_of_succ_lt (ih h)

end

/-- Settles O51: every walk starts at or after `p`, and reads the tree and later bits only. -/
theorem decodeReadsNoBitBeforeTheStart : Obligations.DecodeReadsNoBitBeforeTheStart := by
  intro m n d nsym p htree hstream
  suffices h : ∀ q, p ≤ q → decodeCore n d nsym q = decodeCore m d nsym q from h p le_rfl
  induction nsym with
  | zero => exact fun q _ => rfl
  | succ nsym ih =>
    intro q hq
    have hsymbol : decodeSymbol n d q = decodeSymbol m d q := descend_congr htree hstream hq _ 0
    rw [decodeCore_succ, decodeCore_succ, hsymbol]
    cases hx : decodeSymbol m d q with
    | error e => rfl
    | ok x => rw [except_ok_bind, except_ok_bind, ih x.2 (hq.trans (lt_of_descend_eq_ok hx).le)]

/-! ### One word later (R280) -/

/-- An error with a reported bit position larger by 16. -/
def CmdError.laterByOneWord (e : CmdError) : CmdError :=
  if e.code = .fmtBitstreamEnd then { e with info := e.info + 16 } else e

/-- A walk's result with every reported bit position larger by 16. -/
def endsOneWordLater {α : Type} : Except CmdError (α × Nat) → Except CmdError (α × Nat)
  | .ok (a, p) => .ok (a, p + 16)
  | .error e => .error e.laterByOneWord

theorem endsOneWordLater_eq_laterByOneWord (r : Except CmdError (List Byte × Nat)) :
    endsOneWordLater r = laterByOneWord r := by
  cases r <;> rfl

/-- The source whose blob lacks the first word. -/
def DecodeSource.dropWord (d : DecodeSource) : DecodeSource := { d with blob := d.blob + 2, blobLen := d.blobLen - 2 }

@[simp] theorem DecodeSource.dropWord_blobLen (d : DecodeSource) : d.dropWord.blobLen = d.blobLen - 2 := rfl

section
variable (m : Mem) {d : DecodeSource}

theorem Mem.wordBit_add_word (base p : Nat) : m.wordBit base (p + 16) = m.wordBit (base + 2) p := by
  rw [Mem.wordBit, Mem.wordBit, Nat.add_div_right p (by decide), Nat.add_mod_right, Nat.mul_succ, Nat.add_assoc,
    Nat.add_comm 2]

theorem fetchBit_add_word (hd : 2 ≤ d.blobLen) (p : Nat) :
    fetchBit m d (p + 16) = (fetchBit m d.dropWord p).mapError CmdError.laterByOneWord := by
  obtain h | h := Nat.lt_or_ge d.dropWord.blobLen (2 * (p / 16) + 2)
  · rw [fetchBit_of_lt h, fetchBit_of_lt (by rw [d.dropWord_blobLen] at h; omega)]
    rfl
  · rw [fetchBit_of_le h, fetchBit_of_le (by rw [d.dropWord_blobLen] at h; omega), Mem.wordBit_add_word]
    rfl

/-- The tree's checks report no bit position. -/
theorem mapError_namedRecord (o : Nat) :
    (namedRecord m d o).mapError CmdError.laterByOneWord = namedRecord m d o := by
  rw [namedRecord]
  dsimp only
  split_ifs <;> rfl

theorem walkStep_add_word (hd : 2 ≤ d.blobLen) (p tp : Nat) :
    walkStep m d (p + 16) tp = (walkStep m d.dropWord p tp).mapError CmdError.laterByOneWord := by
  rw [walkStep, walkStep, fetchBit_add_word m hd]
  cases fetchBit m d.dropWord p with
  | error e => rfl
  | ok b => exact (mapError_namedRecord m _).symm

theorem descend_add_word (hd : 2 ≤ d.blobLen) (fuel p tp : Nat) :
    descend m d fuel (p + 16) tp = endsOneWordLater (descend m d.dropWord fuel p tp) := by
  induction fuel generalizing p tp with
  | zero => rfl
  | succ fuel ih =>
    rw [descend_succ, descend_succ, walkStep_add_word m hd, Nat.add_right_comm p 16 1]
    rcases walkStep m d.dropWord p tp with e | v | child
    · rfl
    · rfl
    · exact ih (p + 1) child

theorem decodeSymbol_add_word (hd : 2 ≤ d.blobLen) (p : Nat) :
    decodeSymbol m d (p + 16) = endsOneWordLater (decodeSymbol m d.dropWord p) := by
  have hfuel : 8 * d.blobLen + 1 - (p + 16) = 8 * d.dropWord.blobLen + 1 - p := by
    rw [d.dropWord_blobLen]
    omega
  rw [decodeSymbol, hfuel, descend_add_word m hd, decodeSymbol]

end

/-- Settles O52: each walk of a symbol starts, ends and fails one word later. -/
theorem decodeShiftsByAWholeWord : Obligations.DecodeShiftsByAWholeWord := by
  intro m d nsym p hd
  change _ = laterByOneWord (decodeCore m d.dropWord nsym p)
  rw [← endsOneWordLater_eq_laterByOneWord]
  induction nsym generalizing p with
  | zero => rfl
  | succ nsym ih =>
    rw [decodeCore_succ, decodeCore_succ, decodeSymbol_add_word m hd]
    cases decodeSymbol m d.dropWord p with
    | error e => rfl
    | ok x =>
      simp only [endsOneWordLater, except_ok_bind, ih]
      cases decodeCore m d.dropWord nsym x.2 <;> rfl

end Sys2Proof.Machine

namespace Sys2Proof.Machine

/-! ## HUF_DECODE (42_huffman_decode.md R277, R278) -/

/-! ### The checks and the walk -/

section
variable (s : State) {c₁ c₂ c₃ c₄ : Prop} [Decidable c₁] [Decidable c₂] [Decidable c₃] [Decidable c₄] {code : ErrCode}
  {info : Nat} {o o₁ o₂ o₃ o₄ : Host.Outcome State Fault Refusal}

theorem State.fourthCheck_fails (h₁ : ¬c₁) (h₂ : ¬c₂) (h₃ : ¬c₃) (h₄ : c₄) :
    ∃ t, (if c₁ then o₁ else if c₂ then o₂ else if c₃ then o₃ else if c₄ then .next (s.raise code info) else o) = .next t ∧
      s.failedCleanly t code info := by
  rw [if_neg h₁]
  exact s.thirdCheck_fails h₂ h₃ h₄

theorem fourChecks_pass (h₁ : ¬c₁) (h₂ : ¬c₂) (h₃ : ¬c₃) (h₄ : ¬c₄) :
    (if c₁ then o₁ else if c₂ then o₂ else if c₃ then o₃ else if c₄ then o₄ else o) = o := by
  rw [if_neg h₁, threeChecks_pass h₂ h₃ h₄]

end

theorem State.regionCheck_passes (s : State) {b n : Nat} (h : b + n ≤ s.params.bufSize) : ¬(!s.regionValid b n) = true := by
  rwa [s.not_regionValid_iff, not_lt]

/-- The operands that HUF_DECODE's four checks let pass (R277). -/
structure State.HufDecodeReady (s : State) : Prop where
  tree : s.arg 0 + s.arg 1 ≤ s.params.bufSize
  blob : s.arg 2 + s.arg 3 ≤ s.params.bufSize
  dest : s.arg 6 + 2 * s.arg 5 ≤ s.params.bufSize
  apartFromTree : regionsOverlap (s.arg 6) (2 * s.arg 5) (s.arg 0) (s.arg 1) = false
  apartFromBlob : regionsOverlap (s.arg 6) (2 * s.arg 5) (s.arg 2) (s.arg 3) = false

section
variable {s : State}

theorem State.HufDecodeReady.checks_pass (h : s.HufDecodeReady) (o₁ o₂ o₃ o₄ o : Host.Outcome State Fault Refusal) :
    (if !s.regionValid (s.arg 0) (s.arg 1) then o₁
      else if !s.regionValid (s.arg 2) (s.arg 3) then o₂
      else if !s.regionValid (s.arg 6) (2 * s.arg 5) then o₃
      else if regionsOverlap (s.arg 6) (2 * s.arg 5) (s.arg 0) (s.arg 1) ||
        regionsOverlap (s.arg 6) (2 * s.arg 5) (s.arg 2) (s.arg 3) then o₄
      else o) = o := by
  obtain ⟨htree, hblob, hdest, h6t, h6b⟩ := h
  exact fourChecks_pass (s.regionCheck_passes htree) (s.regionCheck_passes hblob) (s.regionCheck_passes hdest)
    (by simp [h6t, h6b])

theorem State.HufDecodeReady.exec_ok (h : s.HufDecodeReady) {out : List Byte} {e : Nat}
    (hcore : decodeCore s.buf s.decodeSource (s.arg 5) (s.arg 4) = .ok (out, e)) :
    exec .hufDecode s = .next ((s.withBuf (s.buf.store (s.arg 6) out)).complete e (2 * s.arg 5)) := by
  refine (h.checks_pass _ _ _ _ _).trans ?_
  rw [hcore]

theorem State.HufDecodeReady.exec_error (h : s.HufDecodeReady) {e : CmdError}
    (hcore : decodeCore s.buf s.decodeSource (s.arg 5) (s.arg 4) = .error e) :
    exec .hufDecode s = .next ((s.havoc (s.arg 6) (2 * s.arg 5)).raise e.code e.info) := by
  refine (h.checks_pass _ _ _ _ _).trans ?_
  rw [hcore]

/-- The bytes a decode stores are those of the destination. -/
theorem bytes_store_decodeCore (m : Mem) {d : DecodeSource} {a nsym p e : Nat} {out : List Byte}
    (h : decodeCore m d nsym p = .ok (out, e)) : (m.store a out).bytes a (2 * nsym) = out := by
  rw [← decodeCore_length h]
  exact m.holds_store a out

end

/-- Settles O34: the four checks in order, then the walk, which the rule's relation describes. -/
theorem hufDecodeWritesThePixels : Obligations.HufDecodeWritesThePixels := by
  refine ⟨decode_encode .hufDecode, fun s => ⟨fun out e htree hblob hdest h6t h6b hwalk => ?_,
    fun htree => s.firstCheck_fails ((s.not_regionValid_iff _ _).mpr htree),
    fun htree hblob => s.secondCheck_fails (s.regionCheck_passes htree) ((s.not_regionValid_iff _ _).mpr hblob),
    fun htree hblob hdest => s.thirdCheck_fails (s.regionCheck_passes htree) (s.regionCheck_passes hblob)
      ((s.not_regionValid_iff _ _).mpr hdest),
    fun htree hblob hdest hoverlap => s.fourthCheck_fails (s.regionCheck_passes htree) (s.regionCheck_passes hblob)
      (s.regionCheck_passes hdest) ((Bool.or_eq_true _ _).mpr hoverlap),
    fun err htree hblob hdest h6t h6b hwalk => ?_⟩⟩
  · have hcore := (decodeCoreIsTheWalkOfTheRule _ _ _ _ _).mpr hwalk
    refine ⟨_, State.HufDecodeReady.exec_ok ⟨htree, hblob, hdest, h6t, h6b⟩ hcore, State.complete_completed _ _ _ _ _,
      bytes_store_decodeCore s.buf hcore, fun x hx => ?_, rfl, rfl, rfl, rfl, rfl⟩
    exact s.buf.readByte_store_of_not_mem _ _ x (by rwa [decodeCore_length hcore])
  · have hcore := (decodeCoreIsTheWalkOfTheRule _ _ _ _ _).mpr hwalk
    obtain ⟨hfailed, -⟩ := (s.havoc (s.arg 6) (2 * s.arg 5)).raise_failedCleanly err.code err.info
    refine ⟨_, State.HufDecodeReady.exec_error ⟨htree, hblob, hdest, h6t, h6b⟩ hcore, hfailed, fun x hx => ?_⟩
    exact s.buf.readByte_store_of_not_mem _ _ x (by rwa [length_freeBytes])

/-! ### What a HUF_DECODE reports -/

/-- What HUF_DECODE reports: the error of the first check that fails, or what the walk gives (R277). -/
def State.hufDecodeResult (s : State) : Except CmdError (List Byte × Nat) :=
  if !s.regionValid (s.arg 0) (s.arg 1) then .error { code := .bounds, info := 0 }
  else if !s.regionValid (s.arg 2) (s.arg 3) then .error { code := .bounds, info := 2 }
  else if !s.regionValid (s.arg 6) (2 * s.arg 5) then .error { code := .bounds, info := 6 }
  else if regionsOverlap (s.arg 6) (2 * s.arg 5) (s.arg 0) (s.arg 1) ||
      regionsOverlap (s.arg 6) (2 * s.arg 5) (s.arg 2) (s.arg 3) then .error { code := .overlap, info := 0 }
  else decodeCore s.buf s.decodeSource (s.arg 5) (s.arg 4)

/-- A command of `s` reports a decode's result: it raises the error, or stores the `n` pixel values at `a` and completes with the
end position. -/
inductive State.ReportsDecode (s : State) (a n : Nat) :
    Except CmdError (List Byte × Nat) → Host.Outcome State Fault Refusal → Prop
  | error {t : State} (e : CmdError) (h : s.failed t e.code e.info) : s.ReportsDecode a n (.error e) (.next t)
  | ok {m : Mem} {out : List Byte} (e : Nat) (h : m.bytes a n = out) :
      s.ReportsDecode a n (.ok (out, e)) (.next ((s.withBuf m).complete e n))

section
variable {s : State} {a n : Nat}

theorem State.ReportsDecode.check {c : Prop} [Decidable c] {code : ErrCode} {info : Nat}
    {r : Except CmdError (List Byte × Nat)} {o : Host.Outcome State Fault Refusal} (h : s.ReportsDecode a n r o) :
    s.ReportsDecode a n (if c then .error { code := code, info := info } else r)
      (if c then .next (s.raise code info) else o) := by
  split
  · exact .error { code := code, info := info } (s.raise_failedCleanly code info).1
  · exact h

theorem hufDecode_reports (s : State) :
    s.ReportsDecode (s.arg 6) (2 * s.arg 5) s.hufDecodeResult (exec .hufDecode s) := by
  refine .check (.check (.check (.check ?_)))
  cases hcore : decodeCore s.buf s.decodeSource (s.arg 5) (s.arg 4) with
  | error e => exact .error e ((s.havoc (s.arg 6) (2 * s.arg 5)).raise_failedCleanly e.code e.info).1
  | ok x => exact .ok x.2 (bytes_store_decodeCore s.buf hcore)

/-- A raised error is known by its code's byte and its information word. -/
theorem State.failed_iff {t : State} {e : CmdError} (h : s.failed t e.code e.info) (code : ErrCode) (info : Nat) :
    s.failed t code info ↔ e.code.byte = code.byte ∧ saturate32 e.info = saturate32 info := by
  obtain ⟨herr, hcode, hinfo, hrest⟩ := h
  constructor
  · rintro ⟨-, hcode', hinfo', -⟩
    exact ⟨hcode.symm.trans hcode', hinfo.symm.trans hinfo'⟩
  · rintro ⟨hbyte, hword⟩
    exact ⟨herr, hcode.trans hbyte, hinfo.trans hword, hrest⟩

theorem State.completed_complete_iff (m : Mem) (e e' n : Nat) :
    s.completed ((s.withBuf m).complete e' n) e n 0 0 ↔ BitVec.ofNat 32 e' = BitVec.ofNat 32 e := by
  constructor
  · rintro ⟨hres, -⟩
    exact congrArg (fun v : Vector Word 4 => v[0]) hres
  · intro h
    obtain ⟨-, hrest⟩ := (s.withBuf m).complete_completed e' n 0 0
    exact ⟨by rw [State.complete_res, h], hrest⟩

/-- The completions of a command that reports a decode's result. -/
theorem State.ReportsDecode.completes_iff {r : Except CmdError (List Byte × Nat)} {o : Host.Outcome State Fault Refusal}
    (h : s.ReportsDecode a n r o) (hdone : s.status.done = false) (e : Nat) (out : List Byte) :
    (∃ t, o = .next t ∧ s.completed t e n 0 0 ∧ t.buf.bytes a n = out) ↔
      ∃ e', r = .ok (out, e') ∧ BitVec.ofNat 32 e' = BitVec.ofNat 32 e := by
  cases h with
  | error x hfailed =>
    obtain ⟨-, -, -, -, hkept, -⟩ := hfailed
    simp [State.completed, hkept, hdone]
  | ok e' hout =>
    subst hout
    simpa [State.completed_complete_iff] using and_comm

/-- The errors of a command that reports a decode's result. -/
theorem State.ReportsDecode.fails_iff {r : Except CmdError (List Byte × Nat)} {o : Host.Outcome State Fault Refusal}
    (h : s.ReportsDecode a n r o) (herr : s.status.err = false) (code : ErrCode) (info : Nat) :
    (∃ t, o = .next t ∧ s.failed t code info) ↔
      ∃ e, r = .error e ∧ e.code.byte = code.byte ∧ saturate32 e.info = saturate32 info := by
  cases h with
  | error x hfailed => simp [State.failed_iff hfailed]
  | ok e' hout => simp [State.failed, herr, State.withBuf]

end

/-- Settles O50: the checks depend on the operands and BUF_SIZE, the walk on the bytes of the two regions, and the result says
how the command ends. -/
theorem hufDecodeDependsOnItsInputsOnly : Obligations.HufDecodeDependsOnItsInputsOnly := by
  intro s u hargs hsize htree hblob hsdone hserr hudone huerr
  have hstream : ∀ q, s.arg 4 ≤ q → q < 8 * s.arg 3 → streamBit u.buf (s.arg 2) q = streamBit s.buf (s.arg 2) q := by
    intro q _ hq
    rw [← Mem.toNat_bit_eq_streamBit, ← Mem.toNat_bit_eq_streamBit, Mem.bit, Mem.bit, hblob _ (by omega)]
  have hcore : decodeCore u.buf s.decodeSource (s.arg 5) (s.arg 4) = decodeCore s.buf s.decodeSource (s.arg 5) (s.arg 4) :=
    decodeReadsNoBitBeforeTheStart s.buf u.buf s.decodeSource _ _ htree hstream
  have hvalid : ∀ b n, u.regionValid b n = s.regionValid b n := fun b n => by
    rw [State.regionValid, State.regionValid, hsize]
  have hresult : u.hufDecodeResult = s.hufDecodeResult := by
    rw [State.hufDecodeResult, State.hufDecodeResult, ← hcore, State.decodeSource, State.decodeSource]
    simp (disch := decide) only [hvalid, hargs]
  have hs := hufDecode_reports s
  have hu := hufDecode_reports u
  rw [hresult, hargs 5 (by decide), hargs 6 (by decide)] at hu
  exact ⟨fun e out => (hs.completes_iff hsdone e out).trans (hu.completes_iff hudone e out).symm,
    fun code info => (hs.fails_iff hserr code info).trans (hu.fails_iff huerr code info).symm⟩

end Sys2Proof.Machine

namespace Sys2Proof.Machine

/-! ## Decoding what an encode wrote (42_huffman_decode.md R281) -/

theorem firstNoCode_eq_none_iff {c : Vector (List Bool) 256} {l : List Byte} :
    firstNoCode c l = none ↔ ∀ v ∈ l, tableGet c v ≠ [] := by
  induction l with
  | nil => simp [firstNoCode]
  | cons v l ih => by_cases h : tableGet c v = [] <;> simp [firstNoCode, h, ih]

section
variable {m : Mem} {d : DecodeSource}

theorem FetchesBits.append {p : Nat} {w w' : List Bool} (h : FetchesBits m d p (w ++ w')) :
    FetchesBits m d p w ∧ FetchesBits m d (p + w.length) w' := by
  constructor
  · intro j hj
    have hbit := h j (by rw [List.length_append]; omega)
    rwa [List.getD_append _ _ _ _ hj] at hbit
  · intro j hj
    have hbit := h (w.length + j) (by rw [List.length_append]; omega)
    rwa [List.getD_append_right _ _ _ _ (Nat.le_add_right _ _), Nat.add_sub_cancel_left, ← Nat.add_assoc] at hbit

/-- A decode over a serialized tree gives back the symbols whose codewords it is given. -/
theorem decodeCore_of_codeBits {t : Tree} (hnodup : t.symbols.Nodup) (hrecords : RecordsAt m d 0 t) {l : List Byte}
    (hcoded : ∀ v ∈ l, tableGet (deriveCodes t) v ≠ []) {p : Nat}
    (hfetch : FetchesBits m d p (codeBits (deriveCodes t) l)) :
    decodeCore m d l.length p = .ok (l.flatMap nibbles, p + (codeBits (deriveCodes t) l).length) := by
  induction l generalizing p with
  | nil => rfl
  | cons v l ih =>
    obtain ⟨hv, hl⟩ := List.forall_mem_cons.mp hcoded
    rw [codeBits, List.flatMap_cons] at hfetch ⊢
    obtain ⟨hword, hrest⟩ := hfetch.append
    rw [List.length_cons, decodeCore_succ, decodeSymbol_of_codeword hnodup hv hrecords hword, except_ok_bind, ih hl hrest,
      except_ok_bind, List.flatMap_cons, List.length_append, Nat.add_assoc]
    rfl

end

theorem Mem.wordBit_eq_bit (m : Mem) (base p : Nat) : m.wordBit base p = m.bit base p :=
  boolToNat_injective (by rw [m.toNat_wordBit_eq_streamBit, m.toNat_bit_eq_streamBit])

/-- The bits an encode places can be fetched from its blob: the blob ends with a whole word after them, and the padding begins
after them (43_huffman_encode.md R293, R294). -/
theorem fetchesBits_padBlob_placeBits (m : Mem) {d : DecodeSource} {q : Nat} {w : List Bool}
    (hlen : d.blobLen = blobBytesFor (q + w.length)) :
    FetchesBits (padBlob (m.placeBits d.blob q w) d.blob (q + w.length)) d q w := by
  intro j hj
  rw [fetchBit_of_le (by rw [hlen, blobBytesFor]; omega), Mem.wordBit_eq_bit, padBlob, Mem.bit_placeBits,
    dif_neg (by omega), Mem.bit_placeBits, dif_pos (by omega)]
  simp [hj]

/-- A decode over a serialized tree, wherever it lies, gives back the symbols of the blob an encode wrote. -/
theorem decodeCore_padBlob_placeBits {t : Tree} (hnodup : t.symbols.Nodup) {l : List Byte}
    (hcoded : ∀ v ∈ l, tableGet (deriveCodes t) v ≠ []) {m m' : Mem} {tree base q e : Nat}
    (he : e = q + (codeBits (deriveCodes t) l).length)
    (hm : m' = padBlob (m.placeBits base q (codeBits (deriveCodes t) l)) base e)
    (hbytes : m'.bytes tree (6 * t.size) = serializeTree t) :
    decodeCore m' { tree := tree, treeLen := 6 * t.size, blob := base, blobLen := blobBytesFor e } l.length q =
      .ok (l.flatMap nibbles, e) := by
  have hnodes := treeSize_le_of_nodup hnodup
  have hholds : m'.Holds tree (serializeTree t) := by rwa [Mem.Holds, serializeTree, serializeFrom_length]
  have hrecords : RecordsAt m' ⟨tree, 6 * t.size, base, blobBytesFor e⟩ 0 t := ⟨hholds, by simp, by omega⟩
  subst hm he
  exact decodeCore_of_codeBits hnodup hrecords hcoded (fetchesBits_padBlob_placeBits m rfl)

/-- A command that ends with DONE raised no error at a check. -/
theorem State.checkPassed_of_done {s t : State} (hs : s.status.done = false) (ht : t.status.done = true) {c : Prop}
    [Decidable c] {code : ErrCode} {info : Nat} {o : Host.Outcome State Fault Refusal}
    (h : (if c then .next (s.raise code info) else o) = .next t) : ¬c ∧ o = .next t := by
  split at h
  · cases h
    exact absurd (hs.symm.trans ht) Bool.false_ne_true
  · exact ⟨‹_›, h⟩

/-- Everything a HUF_ENCODE that ends with DONE has done (43_huffman_encode.md R297). -/
theorem hufEncode_done {s t : State} (h : exec .hufEncode s = .next t) (hs : s.status.done = false)
    (ht : t.status.done = true) {l : List Byte} (hl : l = s.buf.bytes (s.arg 0) (s.arg 1)) {e : Nat}
    (he : e = s.arg 4 + (codeBits s.code l).length) :
    s.arg 2 + s.arg 3 ≤ s.params.bufSize ∧ (∀ v ∈ l, tableGet s.code v ≠ []) ∧ blobBytesFor e ≤ s.arg 3 ∧
      t = (s.withBuf (padBlob (s.buf.placeBits (s.arg 2) (s.arg 4) (codeBits s.code l)) (s.arg 2) e)).complete e
        (blobBytesFor e) (codeBits s.code l).length := by
  subst he hl
  obtain ⟨-, h⟩ := State.checkPassed_of_done hs ht h
  obtain ⟨-, h⟩ := State.checkPassed_of_done hs ht h
  obtain ⟨hblob, h⟩ := State.checkPassed_of_done hs ht h
  obtain ⟨-, h⟩ := State.checkPassed_of_done hs ht h
  split at h
  · cases h
    exact absurd (hs.symm.trans ht) Bool.false_ne_true
  · rename_i hcoded
    obtain ⟨hneed, h⟩ := State.checkPassed_of_done hs ht h
    cases h
    exact ⟨by rw [s.not_regionValid_iff] at hblob; omega, firstNoCode_eq_none_iff.mp hcoded, not_lt.mp hneed, rfl⟩

/-- Settles O53: the blob holds the codewords of the source's bytes, and the walk over the serialized tree ends each at its
symbol. -/
theorem encodedSymbolsDecodeToThemselves : Obligations.EncodedSymbolsDecodeToThemselves := by
  intro s t tree hparams _ hnodup hcode hsdone hexec htdone hbytes
  obtain ⟨e, he⟩ : ∃ e, e = s.arg 4 + (codeBits s.code (s.buf.bytes (s.arg 0) (s.arg 1))).length := ⟨_, rfl⟩
  obtain ⟨hblob, hcoded, hneed, rfl⟩ := hufEncode_done hexec hsdone htdone rfl he
  have hsize : s.params.bufSize ≤ 2 ^ 24 := by
    simp only [Params.wf, Bool.and_eq_true, decide_eq_true_eq] at hparams
    exact hparams.2
  have hres0 : (BitVec.ofNat 32 e).toNat = e := toNat_ofNat_of_lt (by rw [blobBytesFor] at hneed; omega)
  have hres1 : (BitVec.ofNat 32 (blobBytesFor e)).toNat = blobBytesFor e := toNat_ofNat_of_lt (by omega)
  rw [hcode] at hcoded he hbytes
  have hdecode := decodeCore_padBlob_placeBits hnodup hcoded he rfl hbytes
  rw [Mem.length_bytes] at hdecode
  simpa [hcode, hres0, hres1] using hdecode

end Sys2Proof.Machine

namespace Sys2Proof.Machine

/-! ## The encoder's commands (43_huffman_encode.md R296 to R299) -/

/-! ### The first symbol without a codeword, and the bits of the symbols (R292) -/

theorem firstNoCode_eq_find? (c : Vector (List Bool) 256) (l : List Byte) :
    firstNoCode c l = l.find? fun v => decide ((tableGet c v).length = 0) := by
  induction l with
  | nil => rfl
  | cons v l ih =>
    by_cases h : (tableGet c v).length = 0
    · rw [firstNoCode, if_pos h]
      exact (List.find?_cons_of_pos (by rwa [decide_eq_true_eq])).symm
    · rw [firstNoCode, if_neg h, ih]
      exact (List.find?_cons_of_neg (by rwa [decide_eq_true_eq])).symm

section
variable {s : State} {a n : Nat}

theorem State.allCoded.firstNoCode_eq (h : s.allCoded a n) : firstNoCode s.code (s.buf.bytes a n) = none := by
  rw [firstNoCode_eq_none_iff, Mem.bytes_eq_map, List.forall_mem_map]
  exact fun j hj => List.length_eq_zero_iff.not.mp (h j (List.mem_range.mp hj))

theorem State.firstUncoded.firstNoCode_eq {j : Nat} (h : s.firstUncoded a n j) :
    firstNoCode s.code (s.buf.bytes a n) = some (s.buf.readByte (a + j)) := by
  obtain ⟨hj, huncoded, hbefore⟩ := h
  have hfirst : (List.range n).find? (fun j => decide ((tableGet s.code (s.buf.readByte (a + j))).length = 0)) = some j :=
    List.find?_range_eq_some.mpr
      ⟨decide_eq_true huncoded, List.mem_range.mpr hj, fun i hi => by simpa using hbefore i hi⟩
  rw [firstNoCode_eq_find?, Mem.bytes_eq_map, List.find?_map]
  exact congrArg (Option.map _) hfirst

end

theorem codeBits_bytes (s : State) (a n : Nat) : codeBits s.code (s.buf.bytes a n) = s.symbolBits a n := by
  rw [codeBits, Mem.bytes_eq_map, List.flatMap_map, State.symbolBits]

@[simp] theorem State.symbolBits_zero (s : State) (a : Nat) : s.symbolBits a 0 = [] := rfl

theorem State.symbolBits_add (s : State) (a k n : Nat) :
    s.symbolBits a (k + n) = s.symbolBits a k ++ s.symbolBits (a + k) n := by
  simp only [State.symbolBits, List.range_add, List.flatMap_append, List.flatMap_map, Nat.add_assoc]

theorem State.length_symbolBits_le (s : State) (a : Nat) {k n : Nat} (h : k ≤ n) :
    (s.symbolBits a k).length ≤ (s.symbolBits a n).length := by
  obtain ⟨d, rfl⟩ := Nat.exists_eq_add_of_le h
  rw [s.symbolBits_add, List.length_append]
  exact Nat.le_add_right _ _

/-! ### A placed bit sequence and its end padding (R293 to R295) -/

theorem Mem.placeBits_append (m : Mem) (base q : Nat) (w w' : List Bool) :
    m.placeBits base q (w ++ w') = (m.placeBits base q w).placeBits base (q + w.length) w' := by
  induction w generalizing m q with
  | nil => rfl
  | cons b w ih => rw [List.cons_append, Mem.placeBits, ih, List.length_cons, Nat.add_assoc, Nat.add_comm 1]; rfl

/-- The bits `w` placed at `q`, followed by the zeros that end the stream on a word boundary (R294). -/
def paddedBits (q : Nat) (w : List Bool) : List Bool :=
  w ++ List.replicate (ceil16 (q + w.length) - (q + w.length)) false

/-- Placing and padding is one placement. -/
theorem padBlob_placeBits (m : Mem) (base q : Nat) (w : List Bool) :
    padBlob (m.placeBits base q w) base (q + w.length) = m.placeBits base q (paddedBits q w) :=
  (m.placeBits_append base q w _).symm

theorem add_length_paddedBits (q : Nat) (w : List Bool) : q + (paddedBits q w).length = ceil16 (q + w.length) := by
  simp only [paddedBits, List.length_append, List.length_replicate, ceil16]
  omega

theorem getD_paddedBits (q : Nat) (w : List Bool) (k : Nat) : (paddedBits q w).getD k false = w.getD k false := by
  simp only [paddedBits, List.getD_eq_getElem?_getD, List.getElem?_append]
  split
  · rfl
  · rename_i h
    rw [List.getElem?_eq_none (Nat.not_lt.mp h), List.getElem?_replicate]
    split <;> rfl

theorem ceil16_eq_mul_blobBytesFor (e : Nat) : ceil16 e = 8 * blobBytesFor e := by
  rw [ceil16, blobBytesFor, ← Nat.mul_assoc]

/-- The blob at `base` holds the bits `w` from position `q` on, and then 0 up to the end of the last word (R293, R294). -/
def Mem.HoldsStream (m : Mem) (base q : Nat) (w : List Bool) : Prop :=
  ∀ k, q + k < ceil16 (q + w.length) → m.bit base (q + k) = w.getD k false

theorem Mem.holdsStream_placeBits (m : Mem) (base q : Nat) (w : List Bool) :
    (m.placeBits base q (paddedBits q w)).HoldsStream base q w := by
  intro k hk
  have hlen : k < (paddedBits q w).length := by have := add_length_paddedBits q w; omega
  rw [Mem.bit_placeBits, dif_pos (by omega), ← getD_paddedBits q, List.getD_eq_getElem _ _ hlen]
  simp

section
variable {m : Mem} {base q k : Nat} {w : List Bool}

theorem Mem.HoldsStream.streamBit_eq (h : m.HoldsStream base q w) (hk : k < w.length) :
    streamBit m base (q + k) = (w.getD k false).toNat := by
  rw [← m.toNat_bit_eq_streamBit, h k (by unfold ceil16; omega)]

theorem Mem.HoldsStream.streamBit_padding (h : m.HoldsStream base q w) (hlow : q + w.length ≤ k)
    (hhigh : k < ceil16 (q + w.length)) : streamBit m base k = 0 := by
  obtain ⟨d, rfl⟩ := Nat.exists_eq_add_of_le (Nat.le_of_add_right_le hlow)
  rw [← m.toNat_bit_eq_streamBit, h d hhigh, List.getD_eq_default _ _ (by omega)]
  rfl

/-- A store that leaves the blob's bytes alone leaves the stream. -/
theorem Mem.HoldsStream.store (h : m.HoldsStream base q w) {a : Nat} {bs : List Byte}
    (hapart : ∀ x, base ≤ x → x < base + blobBytesFor (q + w.length) → x < a ∨ a + bs.length ≤ x) :
    (m.store a bs).HoldsStream base q w := by
  intro k hk
  rw [← h k hk, Mem.bit, Mem.bit, m.readByte_store_of_not_mem]
  rw [ceil16_eq_mul_blobBytesFor] at hk
  exact hapart _ (by omega) (by omega)

end

theorem Mem.readByte_placeBits_paddedBits (m : Mem) (base : Nat) (w : List Bool) {x : Nat}
    (hx : x < base ∨ base + blobBytesFor w.length ≤ x) :
    (m.placeBits base 0 (paddedBits 0 w)).readByte x = m.readByte x := by
  refine m.readByte_placeBits base 0 _ x ?_
  rw [add_length_paddedBits, Nat.zero_add, ceil16_eq_mul_blobBytesFor]
  omega

/-! ### The glyphs' streams and start positions (R298, R299) -/

theorem placeStreams_eq_placeBits (m : Mem) (base q : Nat) (streams : List (List Bool)) :
    placeStreams m base q streams = m.placeBits base q streams.flatten := by
  induction streams generalizing m q with
  | nil => rfl
  | cons w rest ih => rw [placeStreams, ih, List.flatten_cons, Mem.placeBits_append]

section
variable (s : State)

theorem State.flatten_glyphStreams (a gs n : Nat) :
    (glyphStreams s.buf s.code a gs n).flatten = s.symbolBits a (n * gs) := by
  induction n generalizing a with
  | zero => simp [glyphStreams]
  | succ n ih =>
    rw [glyphStreams, List.flatten_cons, ih, codeBits_bytes, Nat.succ_mul, Nat.add_comm (n * gs), s.symbolBits_add]

/-- Each glyph starts after the codeword bits of the glyphs before it. -/
theorem State.glyphStarts_glyphStreams (q a gs n : Nat) :
    glyphStarts q (glyphStreams s.buf s.code a gs n) =
      (List.range n).map fun i => q + (s.symbolBits a (i * gs)).length := by
  induction n generalizing q a with
  | zero => rfl
  | succ n ih =>
    have hnext : ∀ i, (s.symbolBits a ((i + 1) * gs)).length =
        (s.symbolBits a gs).length + (s.symbolBits (a + gs) (i * gs)).length := by
      intro i
      rw [Nat.succ_mul, Nat.add_comm (i * gs), s.symbolBits_add, List.length_append]
    rw [glyphStreams, glyphStarts, ih, codeBits_bytes, List.range_succ_eq_map, List.map_cons, List.map_map]
    simp [Function.comp_def, hnext, Nat.add_assoc]

end

/-! ### HUF_PACK (R291, R296) -/

theorem firstBadPixel_eq_findIdx? (i : Nat) (l : List Byte) :
    firstBadPixel i l = (l.findIdx? fun x => decide (15 < x.toNat)).map (i + ·) := by
  induction l generalizing i with
  | nil => rfl
  | cons x l ih =>
    by_cases h : 15 < x.toNat
    · simp [firstBadPixel, List.findIdx?_cons, h]
    · simp [firstBadPixel, List.findIdx?_cons, h, ih, Function.comp_def, Nat.add_assoc, Nat.add_comm 1]

theorem firstBadPixel_bytes_eq_none (m : Mem) (a n : Nat) (h : ∀ i < n, (m.readByte (a + i)).toNat ≤ 15) :
    firstBadPixel 0 (m.bytes a n) = none := by
  rw [firstBadPixel_eq_findIdx?, Mem.bytes_eq_map, Option.map_eq_none_iff, List.findIdx?_eq_none_iff, List.forall_mem_map]
  exact fun i hi => decide_eq_false (Nat.not_lt.mpr (h i (List.mem_range.mp hi)))

theorem firstBadPixel_bytes_eq_some (m : Mem) (a n : Nat) {i : Nat} (hi : i < n) (hbad : 15 < (m.readByte (a + i)).toNat)
    (hbefore : ∀ j < i, (m.readByte (a + j)).toNat ≤ 15) : firstBadPixel 0 (m.bytes a n) = some i := by
  have hfirst : (m.bytes a n).findIdx? (fun x => decide (15 < x.toNat)) = some i := by
    rw [List.findIdx?_eq_some_iff_getElem]
    simpa [Mem.getElem_bytes, hi, hbad] using hbefore
  simp [firstBadPixel_eq_findIdx?, hfirst]

/-- Byte `j` of a packed list joins pixels `2 j` and `2 j + 1` (R291). -/
theorem getElem?_packPixels : ∀ (l : List Byte) (j : Nat) {x y : Byte}, l[2 * j]? = some x → l[2 * j + 1]? = some y →
    (packPixels l)[j]? = some (BitVec.ofNat 8 (x.toNat + 16 * y.toNat))
  | [], _, _, _, hx, _ => by simp at hx
  | [_], _, _, _, _, hy => by simp at hy
  | _ :: _ :: _, 0, _, _, hx, hy => by
    obtain rfl := Option.some.inj hx
    obtain rfl := Option.some.inj hy
    rfl
  | _ :: _ :: rest, j + 1, _, _, hx, hy => getElem?_packPixels rest j hx hy

/-- The packed bytes stand at the destination, a pair of pixels in each (R296). -/
theorem readByte_store_packPixels (m : Mem) (a n d : Nat) {j : Nat} (hj : j < n / 2)
    (h : ∀ i < n, (m.readByte (a + i)).toNat ≤ 15) :
    ((m.store d (packPixels (m.bytes a n))).readByte (d + j)).toNat =
      (m.readByte (a + 2 * j)).toNat + 16 * (m.readByte (a + 2 * j + 1)).toNat := by
  have hpixel : ∀ i < n, (m.bytes a n)[i]? = some (m.readByte (a + i)) := fun i hi => by
    simp [Mem.bytes_eq_map, hi]
  have hjoined := getElem?_packPixels _ j (hpixel _ (by omega)) (hpixel _ (by omega))
  have hstored := (m.holds_store d (packPixels (m.bytes a n))).getElem? (k := j)
    (by rw [packPixels_length, Mem.length_bytes]; exact hj)
  have hlow := h (2 * j) (by omega)
  have hhigh := h (2 * j + 1) (by omega)
  rw [hjoined, Option.some.injEq] at hstored
  rw [← hstored, BitVec.toNat_ofNat, Nat.mod_eq_of_lt (by omega), Nat.add_assoc a]

/-- The operands that HUF_PACK's four checks let pass (R296). -/
structure State.HufPackReady (s : State) : Prop where
  even : s.arg 1 % 2 = 0
  source : s.arg 0 + s.arg 1 ≤ s.params.bufSize
  dest : s.arg 2 + s.arg 1 / 2 ≤ s.params.bufSize
  apart : regionsOverlap (s.arg 0) (s.arg 1) (s.arg 2) (s.arg 1 / 2) = false

section
variable {s : State}

theorem State.HufPackReady.checks_pass (h : s.HufPackReady) (o₁ o₂ o₃ o₄ o : Host.Outcome State Fault Refusal) :
    (if s.arg 1 % 2 ≠ 0 then o₁
      else if !s.regionValid (s.arg 0) (s.arg 1) then o₂
      else if !s.regionValid (s.arg 2) (s.arg 1 / 2) then o₃
      else if regionsOverlap (s.arg 0) (s.arg 1) (s.arg 2) (s.arg 1 / 2) then o₄
      else o) = o := by
  obtain ⟨heven, hsource, hdest, hapart⟩ := h
  exact fourChecks_pass (not_not.mpr heven) (s.regionCheck_passes hsource) (s.regionCheck_passes hdest) (by simp [hapart])

theorem State.HufPackReady.exec_ok (h : s.HufPackReady)
    (hpixels : firstBadPixel 0 (s.buf.bytes (s.arg 0) (s.arg 1)) = none) :
    exec .hufPack s =
      .next ((s.withBuf (s.buf.store (s.arg 2) (packPixels (s.buf.bytes (s.arg 0) (s.arg 1))))).complete
        (s.arg 1 / 2)) := by
  refine (h.checks_pass _ _ _ _ _).trans ?_
  rw [hpixels]

theorem State.HufPackReady.exec_badPixel (h : s.HufPackReady) {i : Nat}
    (hbad : firstBadPixel 0 (s.buf.bytes (s.arg 0) (s.arg 1)) = some i) :
    exec .hufPack s = .next (s.raise .fmtPixelRange i) := by
  refine (h.checks_pass _ _ _ _ _).trans ?_
  rw [hbad]

end

/-- Settles O35: the four checks in order, then the search for a pixel out of range, and one store of the packed bytes. -/
theorem hufPackJoinsPixelPairs : Obligations.HufPackJoinsPixelPairs := by
  refine ⟨decode_encode .hufPack, fun s => ⟨fun heven hsource hdest hapart hpixels => ?_,
    fun hodd => s.firstCheck_fails hodd,
    fun heven hsource => s.secondCheck_fails (not_not.mpr heven) ((s.not_regionValid_iff _ _).mpr hsource),
    fun heven hsource hdest => s.thirdCheck_fails (not_not.mpr heven) (s.regionCheck_passes hsource)
      ((s.not_regionValid_iff _ _).mpr hdest),
    fun heven hsource hdest hoverlap => s.fourthCheck_fails (not_not.mpr heven) (s.regionCheck_passes hsource)
      (s.regionCheck_passes hdest) hoverlap,
    fun i hi heven hsource hdest hapart hbad hbefore => ?_⟩⟩
  · refine ⟨_, State.HufPackReady.exec_ok ⟨heven, hsource, hdest, hapart⟩ (firstBadPixel_bytes_eq_none _ _ _ hpixels),
      State.complete_completed _ _ _ _ _, fun j hj => readByte_store_packPixels s.buf _ _ _ hj hpixels, fun x hx => ?_,
      rfl, rfl, rfl, rfl, rfl⟩
    exact s.buf.readByte_store_of_not_mem _ _ x (by rwa [packPixels_length, Mem.length_bytes])
  · exact ⟨_, State.HufPackReady.exec_badPixel ⟨heven, hsource, hdest, hapart⟩
      (firstBadPixel_bytes_eq_some _ _ _ hi hbad hbefore), s.raise_failedCleanly _ _⟩

/-! ### HUF_ENCODE (R297) -/

/-- The operands that HUF_ENCODE's four checks let pass (R297). -/
structure State.HufEncodeReady (s : State) : Prop where
  codes : s.huf.codesValid = true
  source : s.arg 0 + s.arg 1 ≤ s.params.bufSize
  blob : s.arg 2 + s.arg 3 ≤ s.params.bufSize
  apart : regionsOverlap (s.arg 0) (s.arg 1) (s.arg 2) (s.arg 3) = false

theorem State.codesCheck_passes {s : State} (h : s.huf.codesValid = true) : ¬(!s.huf.codesValid) = true := by simp [h]

section
variable {s : State}

theorem State.HufEncodeReady.checks_pass (h : s.HufEncodeReady) (o₁ o₂ o₃ o₄ o : Host.Outcome State Fault Refusal) :
    (if !s.huf.codesValid then o₁
      else if !s.regionValid (s.arg 0) (s.arg 1) then o₂
      else if !s.regionValid (s.arg 2) (s.arg 3) then o₃
      else if regionsOverlap (s.arg 0) (s.arg 1) (s.arg 2) (s.arg 3) then o₄
      else o) = o := by
  obtain ⟨hcodes, hsource, hblob, hapart⟩ := h
  exact fourChecks_pass (State.codesCheck_passes hcodes) (s.regionCheck_passes hsource) (s.regionCheck_passes hblob)
    (by simp [hapart])

theorem State.HufEncodeReady.exec_uncoded (h : s.HufEncodeReady) {v : Byte}
    (hfirst : firstNoCode s.code (s.buf.bytes (s.arg 0) (s.arg 1)) = some v) :
    exec .hufEncode s = .next (s.raise .noCode v.toNat) := by
  refine (h.checks_pass _ _ _ _ _).trans ?_
  rw [hfirst]

/-- With every symbol coded there is the capacity check, then one placement of the padded stream. -/
theorem State.HufEncodeReady.exec_coded (h : s.HufEncodeReady) (hcoded : s.allCoded (s.arg 0) (s.arg 1)) {w : List Bool}
    (hw : w = s.symbolBits (s.arg 0) (s.arg 1)) {e : Nat} (he : e = s.arg 4 + w.length) :
    exec .hufEncode s =
      if s.arg 3 < blobBytesFor e then .next (s.raise .capacity (blobBytesFor e))
      else .next ((s.withBuf (s.buf.placeBits (s.arg 2) (s.arg 4) (paddedBits (s.arg 4) w))).complete e (blobBytesFor e)
        w.length) := by
  refine (h.checks_pass _ _ _ _ _).trans ?_
  rw [hcoded.firstNoCode_eq]
  dsimp only
  rw [codeBits_bytes, padBlob_placeBits, ← hw, ← he]

end

/-- Settles O36: the four checks in order, then the search for a symbol without a codeword and the capacity check, and one
placement of the padded stream. -/
theorem hufEncodePlacesTheCodewords : Obligations.HufEncodePlacesTheCodewords := by
  refine ⟨decode_encode .hufEncode, fun s => ⟨fun hcodes hsource hblob hapart hcoded hneed => ?_,
    fun hcodes => s.firstCheck_fails (by simp [hcodes]),
    fun hcodes hsource => s.secondCheck_fails (State.codesCheck_passes hcodes) ((s.not_regionValid_iff _ _).mpr hsource),
    fun hcodes hsource hblob => s.thirdCheck_fails (State.codesCheck_passes hcodes) (s.regionCheck_passes hsource)
      ((s.not_regionValid_iff _ _).mpr hblob),
    fun hcodes hsource hblob hoverlap => s.fourthCheck_fails (State.codesCheck_passes hcodes)
      (s.regionCheck_passes hsource) (s.regionCheck_passes hblob) hoverlap,
    fun j hcodes hsource hblob hapart hfirst => ?_,
    fun hcodes hsource hblob hapart hcoded hneed => ?_⟩⟩
  · have hstream := s.buf.holdsStream_placeBits (s.arg 2) (s.arg 4) (s.symbolBits (s.arg 0) (s.arg 1))
    refine ⟨_, (State.HufEncodeReady.exec_coded ⟨hcodes, hsource, hblob, hapart⟩ hcoded rfl rfl).trans
      (if_neg (Nat.not_lt.mpr hneed)), State.complete_completed _ _ _ _ _, fun k hk => hstream.streamBit_eq hk,
      fun k hlow hhigh => hstream.streamBit_padding hlow hhigh, fun x k hk hout => ?_, rfl, rfl, rfl, rfl, rfl⟩
    exact s.buf.getLsbD_readByte_placeBits _ _ _ hk (by rwa [add_length_paddedBits])
  · exact ⟨_, State.HufEncodeReady.exec_uncoded ⟨hcodes, hsource, hblob, hapart⟩ hfirst.firstNoCode_eq,
      s.raise_failedCleanly _ _⟩
  · exact ⟨_, (State.HufEncodeReady.exec_coded ⟨hcodes, hsource, hblob, hapart⟩ hcoded rfl rfl).trans (if_pos hneed),
      s.raise_failedCleanly _ _⟩

/-! ### HUF_COMPRESS (R298, R299) -/

/-- BUF_SIZE is at most 2^24 (00_scope.md R9). -/
theorem Params.bufSize_le {p : Params} (h : p.wf = true) : p.bufSize ≤ 2 ^ 24 := by
  simp only [Params.wf, Bool.and_eq_true, decide_eq_true_eq] at h
  exact h.2

/-- A byte of one of two regions that do not overlap is outside the other (20_memory.md R115). -/
theorem outside_of_apart {b₁ n₁ b₂ n₂ x : Nat} (h : regionsOverlap b₁ n₁ b₂ n₂ = false) (hlow : b₁ ≤ x)
    (hhigh : x < b₁ + n₁) : x < b₂ ∨ b₂ + n₂ ≤ x := by
  simp only [regionsOverlap, Bool.and_eq_false_iff, decide_eq_false_iff_not] at h
  omega

/-- A stored position table holds each start at its entry, when the starts fit their entries (R299). -/
theorem littleEndianAt_store_positionTable (m : Mem) (a : Nat) {starts : List Nat} {i : Nat} (hi : i < starts.length)
    (hfits : starts[i] < 256 ^ 4) : littleEndianAt (m.store a (positionTable starts)) (a + 4 * i) 4 = starts[i] := by
  have hentry := (m.holds_store a (positionTable starts)).record (w := 4) (fun st _ => length_leBytes 4 st) hi
  rw [Nat.mul_comm] at hentry
  exact hentry.littleEndianAt_eq hfits

section
variable (s : State) {c₁ c₂ c₃ c₄ c₅ : Prop} [Decidable c₁] [Decidable c₂] [Decidable c₃] [Decidable c₄] [Decidable c₅]
  {code : ErrCode} {info : Nat} {o o₁ o₂ o₃ o₄ o₅ : Host.Outcome State Fault Refusal}

theorem State.fifthCheck_fails (h₁ : ¬c₁) (h₂ : ¬c₂) (h₃ : ¬c₃) (h₄ : ¬c₄) (h₅ : c₅) :
    ∃ t, (if c₁ then o₁ else if c₂ then o₂ else if c₃ then o₃ else if c₄ then o₄
      else if c₅ then .next (s.raise code info) else o) = .next t ∧ s.failedCleanly t code info := by
  rw [if_neg h₁]
  exact s.fourthCheck_fails h₂ h₃ h₄ h₅

theorem fiveChecks_pass (h₁ : ¬c₁) (h₂ : ¬c₂) (h₃ : ¬c₃) (h₄ : ¬c₄) (h₅ : ¬c₅) :
    (if c₁ then o₁ else if c₂ then o₂ else if c₃ then o₃ else if c₄ then o₄ else if c₅ then o₅ else o) = o := by
  rw [if_neg h₁, fourChecks_pass h₂ h₃ h₄ h₅]

end

/-- Two of HUF_COMPRESS's three regions overlap (R298). -/
def State.compressOverlap (s : State) : Bool :=
  regionsOverlap (s.arg 0) (s.arg 1 * s.arg 2) (s.arg 3) (s.arg 4) ||
    regionsOverlap (s.arg 0) (s.arg 1 * s.arg 2) (s.arg 5) (4 * s.arg 1) ||
    regionsOverlap (s.arg 3) (s.arg 4) (s.arg 5) (4 * s.arg 1)

/-- The operands that HUF_COMPRESS's five checks let pass (R298). -/
structure State.HufCompressReady (s : State) : Prop where
  codes : s.huf.codesValid = true
  source : s.arg 0 + s.arg 1 * s.arg 2 ≤ s.params.bufSize
  blob : s.arg 3 + s.arg 4 ≤ s.params.bufSize
  table : s.arg 5 + 4 * s.arg 1 ≤ s.params.bufSize
  apart : s.compressOverlap = false

/-- The positions HUF_COMPRESS writes: where each glyph starts in the blob (R298, R299). -/
def State.positions (s : State) : List Nat :=
  (List.range (s.arg 1)).map fun i => (s.symbolBits (s.arg 0) (i * s.arg 2)).length

/-- BUF with the padded stream `w` in the blob of a HUF_COMPRESS and the position table after it. -/
def State.compressedBuf (s : State) (w : List Bool) : Mem :=
  (s.buf.placeBits (s.arg 3) 0 (paddedBits 0 w)).store (s.arg 5) (positionTable s.positions)

section
variable {s : State}

theorem State.length_positionTable_positions : (positionTable s.positions).length = 4 * s.arg 1 := by
  simp [positionTable_length, State.positions]

/-- The table lies apart from the blob, so its store leaves the stream. -/
theorem State.HufCompressReady.compressedBuf_holdsStream (h : s.HufCompressReady) {w : List Bool}
    (hneed : blobBytesFor w.length ≤ s.arg 4) : (s.compressedBuf w).HoldsStream (s.arg 3) 0 w := by
  refine (s.buf.holdsStream_placeBits (s.arg 3) 0 w).store fun x hlow hhigh => ?_
  rw [Nat.zero_add] at hhigh
  rw [State.length_positionTable_positions]
  exact outside_of_apart (Bool.or_eq_false_iff.mp h.apart).2 hlow (by omega)

theorem State.readByte_compressedBuf {w : List Bool} {x : Nat}
    (hblob : x < s.arg 3 ∨ s.arg 3 + blobBytesFor w.length ≤ x) (htable : x < s.arg 5 ∨ s.arg 5 + 4 * s.arg 1 ≤ x) :
    (s.compressedBuf w).readByte x = s.buf.readByte x := by
  rw [State.compressedBuf, Mem.readByte_store_of_not_mem _ _ _ _ (by rwa [State.length_positionTable_positions]),
    Mem.readByte_placeBits_paddedBits _ _ _ hblob]

/-- Entry `i` is the start of glyph `i`: no start is beyond the blob's last bit, so each fits its entry. -/
theorem State.littleEndianAt_compressedBuf {w : List Bool} (hw : w = s.symbolBits (s.arg 0) (s.arg 1 * s.arg 2))
    (hfits : w.length < 256 ^ 4) {i : Nat} (hi : i < s.arg 1) :
    littleEndianAt (s.compressedBuf w) (s.arg 5 + 4 * i) 4 = (s.symbolBits (s.arg 0) (i * s.arg 2)).length := by
  have hlen : i < s.positions.length := by simpa [State.positions] using hi
  have hstart : s.positions[i] = (s.symbolBits (s.arg 0) (i * s.arg 2)).length := by simp [State.positions]
  have hle := s.length_symbolBits_le (s.arg 0) (Nat.mul_le_mul_right (s.arg 2) hi.le)
  rw [← hw] at hle
  rw [State.compressedBuf, littleEndianAt_store_positionTable _ _ hlen (by omega), hstart]

theorem State.HufCompressReady.checks_pass (h : s.HufCompressReady) (o₁ o₂ o₃ o₄ o₅ o : Host.Outcome State Fault Refusal) :
    (if !s.huf.codesValid then o₁
      else if !s.regionValid (s.arg 0) (s.arg 1 * s.arg 2) then o₂
      else if !s.regionValid (s.arg 3) (s.arg 4) then o₃
      else if !s.regionValid (s.arg 5) (4 * s.arg 1) then o₄
      else if s.compressOverlap then o₅
      else o) = o := by
  obtain ⟨hcodes, hsource, hblob, htable, hapart⟩ := h
  exact fiveChecks_pass (State.codesCheck_passes hcodes) (s.regionCheck_passes hsource) (s.regionCheck_passes hblob)
    (s.regionCheck_passes htable) (by simp [hapart])

theorem State.HufCompressReady.exec_uncoded (h : s.HufCompressReady) {v : Byte}
    (hfirst : firstNoCode s.code (s.buf.bytes (s.arg 0) (s.arg 1 * s.arg 2)) = some v) :
    exec .hufCompress s = .next (s.raise .noCode v.toNat) := by
  refine (h.checks_pass _ _ _ _ _ _).trans ?_
  rw [hfirst]

/-- With every symbol coded there is the capacity check, then one placement of the padded stream and the position table. -/
theorem State.HufCompressReady.exec_coded (h : s.HufCompressReady) (hcoded : s.allCoded (s.arg 0) (s.arg 1 * s.arg 2))
    {w : List Bool} (hw : w = s.symbolBits (s.arg 0) (s.arg 1 * s.arg 2)) :
    exec .hufCompress s =
      if s.arg 4 < blobBytesFor w.length then .next (s.raise .capacity (blobBytesFor w.length))
      else .next ((s.withBuf (s.compressedBuf w)).complete w.length (blobBytesFor w.length) (4 * s.arg 1)) := by
  have hplaced := padBlob_placeBits s.buf (s.arg 3) 0 w
  refine (h.checks_pass _ _ _ _ _ _).trans ?_
  rw [hcoded.firstNoCode_eq]
  dsimp only
  rw [placeStreams_eq_placeBits, s.flatten_glyphStreams, s.glyphStarts_glyphStreams, ← hw]
  simp only [Nat.zero_add] at hplaced ⊢
  rw [hplaced]
  rfl

end

/-- Settles O37: the five checks in order, then the search for a symbol without a codeword and the capacity check; the blob
is one placement of the padded stream, and the table lies apart from it. -/
theorem hufCompressWritesBlobAndPositions : Obligations.HufCompressWritesBlobAndPositions := by
  refine ⟨decode_encode .hufCompress, fun s =>
    ⟨fun hparams hcodes hsource hblob htable hapart hcoded hneed => ?_,
    fun hcodes => s.firstCheck_fails (by simp [hcodes]),
    fun hcodes hsource => s.secondCheck_fails (State.codesCheck_passes hcodes) ((s.not_regionValid_iff _ _).mpr hsource),
    fun hcodes hsource hblob => s.thirdCheck_fails (State.codesCheck_passes hcodes) (s.regionCheck_passes hsource)
      ((s.not_regionValid_iff _ _).mpr hblob),
    fun hcodes hsource hblob htable => s.fourthCheck_fails (State.codesCheck_passes hcodes)
      (s.regionCheck_passes hsource) (s.regionCheck_passes hblob) ((s.not_regionValid_iff _ _).mpr htable),
    fun hcodes hsource hblob htable hoverlap => s.fifthCheck_fails (State.codesCheck_passes hcodes)
      (s.regionCheck_passes hsource) (s.regionCheck_passes hblob) (s.regionCheck_passes htable) hoverlap,
    fun j hcodes hsource hblob htable hapart hfirst => ?_,
    fun hcodes hsource hblob htable hapart hcoded hneed => ?_⟩⟩
  · obtain ⟨w, hw⟩ : ∃ w, w = s.symbolBits (s.arg 0) (s.arg 1 * s.arg 2) := ⟨_, rfl⟩
    rw [← hw] at hneed ⊢
    have hready : s.HufCompressReady := ⟨hcodes, hsource, hblob, htable, hapart⟩
    have hstream := hready.compressedBuf_holdsStream hneed
    have htotal : w.length < 256 ^ 4 := by
      have hsize := Params.bufSize_le hparams
      omega
    refine ⟨_, (hready.exec_coded hcoded hw).trans (if_neg (Nat.not_lt.mpr hneed)), State.complete_completed _ _ _ _ _,
      fun k hk => ?_, fun k hlow hhigh => ?_, fun i hi => State.littleEndianAt_compressedBuf hw htotal hi,
      fun x hx hx' => State.readByte_compressedBuf hx hx', rfl, rfl, rfl, rfl, rfl⟩
    · simpa using hstream.streamBit_eq hk
    · exact hstream.streamBit_padding (by omega) (by rwa [Nat.zero_add])
  · exact ⟨_, State.HufCompressReady.exec_uncoded ⟨hcodes, hsource, hblob, htable, hapart⟩ hfirst.firstNoCode_eq,
      s.raise_failedCleanly _ _⟩
  · exact ⟨_, (State.HufCompressReady.exec_coded ⟨hcodes, hsource, hblob, htable, hapart⟩ hcoded rfl).trans (if_pos hneed),
      s.raise_failedCleanly _ _⟩

end Sys2Proof.Machine

namespace Sys2Proof.Machine

/-! ## The container parse (44_container.md R321 to R343) -/

/-! ### Checks in order (60_exceptions.md R373) -/

theorem firstFailure_cons (c : Bool × CmdError) (cs : List (Bool × CmdError)) :
    firstFailure (c :: cs) = if c.1 then some c.2 else firstFailure cs := by
  rw [firstFailure, List.find?_cons]
  cases c.1 <;> rfl

theorem firstFailure_eq_none_iff {cs : List (Bool × CmdError)} : firstFailure cs = none ↔ ∀ c ∈ cs, c.1 = false := by
  simp [firstFailure]

section
variable {α β : Type}

/-- The error of the first check that fails, or `r` when every check passes. -/
def afterChecks (cs : List (Bool × CmdError)) (r : Except CmdError α) : Except CmdError α :=
  (firstFailure cs).elim r .error

@[simp] theorem afterChecks_nil (r : Except CmdError α) : afterChecks [] r = r := rfl

theorem afterChecks_cons (c : Bool × CmdError) (cs : List (Bool × CmdError)) (r : Except CmdError α) :
    afterChecks (c :: cs) r = if c.1 then .error c.2 else afterChecks cs r := by
  rw [afterChecks, firstFailure_cons]
  cases c.1 <;> rfl

theorem afterChecks_append (cs ds : List (Bool × CmdError)) (r : Except CmdError α) :
    afterChecks (cs ++ ds) r = afterChecks cs (afterChecks ds r) := by
  induction cs with
  | nil => rfl
  | cons c cs ih => rw [List.cons_append, afterChecks_cons, afterChecks_cons, ih]

/-- One check before a list of checks. -/
theorem afterChecks_singleton (c : Bool × CmdError) (cs : List (Bool × CmdError)) (r : Except CmdError α) :
    afterChecks [c] (afterChecks cs r) = afterChecks (c :: cs) r := (afterChecks_append [c] cs r).symm

theorem afterChecks_bind (cs : List (Bool × CmdError)) (r : Except CmdError α) (f : α → Except CmdError β) :
    (afterChecks cs r >>= f) = afterChecks cs (r >>= f) := by
  simp only [afterChecks]
  cases firstFailure cs <;> rfl

theorem afterChecks_ok_bind (cs : List (Bool × CmdError)) (a : α) (f : α → Except CmdError β) :
    (afterChecks cs (.ok a) >>= f) = afterChecks cs (f a) := by
  rw [afterChecks_bind, except_ok_bind]

/-- A check written as a branch. -/
theorem ite_error_eq_afterChecks (c : Prop) [Decidable c] (e : CmdError) (r : Except CmdError α) :
    (if c then .error e else r) = afterChecks [(decide c, e)] r := by
  simp only [afterChecks_cons, afterChecks_nil, decide_eq_true_eq]

theorem afterChecks_of_none {cs : List (Bool × CmdError)} (h : firstFailure cs = none) (r : Except CmdError α) :
    afterChecks cs r = r := by rw [afterChecks, h]; rfl

theorem afterChecks_of_some {cs : List (Bool × CmdError)} {e : CmdError} (h : firstFailure cs = some e)
    (r : Except CmdError α) : afterChecks cs r = .error e := by rw [afterChecks, h]; rfl

/-- What follows a list of checks matters only when they pass. -/
theorem afterChecks_congr {cs : List (Bool × CmdError)} {r r' : Except CmdError α}
    (h : (∀ c ∈ cs, c.1 = false) → r = r') : afterChecks cs r = afterChecks cs r' := by
  cases hcs : firstFailure cs with
  | none => rw [h (firstFailure_eq_none_iff.mp hcs)]
  | some e => rw [afterChecks_of_some hcs, afterChecks_of_some hcs]

end

/-! ### Reads of the source (R321) -/

section
variable (m : Mem) (src : Source)

theorem Source.rd_eq (n o : Nat) : src.rd m n o = afterChecks [src.needs n o] (.ok (src.field m o n, o + n)) := by
  rw [Source.rd, Mem.readLE_eq_littleEndianAt, afterChecks_cons]
  simp [Source.needs, Source.field]

theorem Source.skip_eq (n o : Nat) : src.skip n o = afterChecks [src.needs n o] (.ok (o + n)) := by
  rw [Source.skip, afterChecks_cons]
  simp [Source.needs]

/-- A parse step that begins with a read, as one list of checks. -/
theorem Source.rd_bind {α : Type} (n o : Nat) (f : Nat × Nat → Except CmdError α) :
    (src.rd m n o >>= f) = afterChecks [src.needs n o] (f (src.field m o n, o + n)) := by
  rw [Source.rd_eq, afterChecks_ok_bind]

theorem Source.skip_bind {α : Type} (n o : Nat) (f : Nat → Except CmdError α) :
    (src.skip n o >>= f) = afterChecks [src.needs n o] (f (o + n)) := by
  rw [Source.skip_eq, afterChecks_ok_bind]

theorem Source.field_lt (o n : Nat) : src.field m o n < 256 ^ n := by
  rw [Source.field, ← Mem.readLE_eq_littleEndianAt]
  exact m.readLE_lt _ n

theorem Source.ofNat_field_one (o : Nat) : BitVec.ofNat 8 (src.field m o 1) = m.readByte (src.base + o) := by
  simp [Source.field, ← Mem.readLE_eq_littleEndianAt, Mem.readLE]

/-! ### The loops of the parse -/

/-- The three colour bytes at offset `o` (R326). -/
def Source.colour (o : Nat) : Byte × Byte × Byte :=
  (m.readByte (src.base + o), m.readByte (src.base + (o + 1)), m.readByte (src.base + (o + 2)))

/-- The palette loop reads byte by byte (R326). -/
theorem parsePalette_eq (n o : Nat) :
    parsePalette m src n o =
      afterChecks ((List.range (4 * n)).map fun j => src.needs 1 (o + j))
        (.ok ((List.range n).map fun c => src.colour m (o + 4 * c), o + 4 * n)) := by
  induction n generalizing o with
  | zero => rfl
  | succ n ih =>
    have hchecks : ((List.range (4 * (n + 1))).map fun j => src.needs 1 (o + j)) =
        [src.needs 1 o, src.needs 1 (o + 1), src.needs 1 (o + 2), src.needs 1 (o + 3)] ++
          (List.range (4 * n)).map fun j => src.needs 1 (o + 4 + j) := by
      rw [Nat.mul_succ, Nat.add_comm, List.range_add, List.map_append, List.map_map]
      simp [Function.comp_def, Nat.add_assoc, List.range_succ]
    have hcolours : ((List.range (n + 1)).map fun c => src.colour m (o + 4 * c)) =
        src.colour m o :: (List.range n).map fun c => src.colour m (o + 4 + 4 * c) := by
      rw [List.range_succ_eq_map, List.map_cons, List.map_map]
      simp [Function.comp_def, Nat.mul_succ, Nat.add_assoc, Nat.add_comm 4]
    rw [hchecks, hcolours, show o + 4 * (n + 1) = o + 4 + 4 * n by omega]
    simp only [parsePalette, Source.rd_bind, ih, afterChecks_ok_bind, Source.ofNat_field_one,
      afterChecks_singleton]
    rfl

/-- The metrics of glyph `i` in a container with `ngi` entries in its width table (R328 to R331). -/
def Source.glyphMetrics (ngi i : Nat) : GlyphMetrics :=
  if i < ngi then
    { code := 0x20 + i
      bearingX := src.field m (100 + 2 * i) 1
      advance := src.field m (101 + 2 * i) 1
      width := (src.field m (101 + 2 * i) 1 : Int) - src.field m (100 + 2 * i) 1 }
  else { code := 0x20 + i, bearingX := 0, advance := 0, width := 0 }

/-- The two reads of entry `i` of the width table (R328). -/
def Source.entryChecks (i : Nat) : List (Bool × CmdError) := [src.needs 1 (100 + 2 * i), src.needs 1 (101 + 2 * i)]

/-- The width table's loop reads an entry for each glyph that has one (R327 to R331). -/
theorem parseMetrics_eq (ngi n i : Nat) :
    parseMetrics m src ngi n i (100 + 2 * min i ngi) =
      afterChecks (((List.range' i n).filter fun i => i < ngi).flatMap src.entryChecks)
        (.ok ((List.range' i n).map (src.glyphMetrics m ngi), 100 + 2 * min (i + n) ngi)) := by
  induction n generalizing i with
  | zero => rfl
  | succ n ih =>
    have hrest := ih (i + 1)
    rw [Nat.add_right_comm, Nat.add_assoc i n 1] at hrest
    rw [parseMetrics, List.range'_succ, List.map_cons, Source.glyphMetrics]
    split_ifs with hi
    · have hadvance : 101 + 2 * i = 100 + 2 * i + 1 := by omega
      rw [show 100 + 2 * min (i + 1) ngi = 100 + 2 * i + 1 + 1 by omega] at hrest
      rw [show min i ngi = i by omega]
      simp only [Source.rd_bind, hrest, afterChecks_ok_bind, afterChecks_singleton, hi, decide_true,
        List.filter_cons_of_pos, List.flatMap_cons, Source.entryChecks, List.cons_append, List.nil_append, hadvance]
      rfl
    · rw [show min (i + 1) ngi = min i ngi by omega] at hrest
      simp only [hrest, afterChecks_ok_bind, hi, decide_false, Bool.false_eq_true, not_false_eq_true,
        List.filter_cons_of_neg]
      rfl

/-- The position table's loop (R336). -/
theorem parsePositions_eq (n o : Nat) :
    parsePositions m src n o =
      afterChecks ((List.range n).map fun i => src.needs 4 (o + 4 * i))
        (.ok ((List.range n).map fun i => sext32 (src.field m (o + 4 * i) 4), o + 4 * n)) := by
  induction n generalizing o with
  | zero => rfl
  | succ n ih =>
    simp only [parsePositions, Source.rd_bind, afterChecks_ok_bind, ih, List.range_succ_eq_map,
      List.map_cons, List.map_map, Function.comp_def, afterChecks_singleton, Nat.succ_eq_add_one, Nat.mul_succ,
      Nat.add_assoc, Nat.add_comm 4, Nat.mul_zero, Nat.add_zero]
    rfl

end

/-! ### The steps of the parse (R322) -/

section
variable (m : Mem) (src : Source)

/-- The checks of the header (R323, R324). -/
def Source.headerChecks (ok : Word → Bool) : List (Bool × CmdError) :=
  [src.needs 4 0, (!ok (BitVec.ofNat 32 (src.field m 0 4)), { code := .fmtBadSize, info := 0 }), src.needs 4 4,
    src.needs 6 8, src.needs 2 14, src.needs 2 16, src.needs 2 18, src.needs 2 20, src.needs 2 22, src.needs 8 24]

theorem parseHeader_eq (ok : Word → Bool) :
    parseHeader m ok src =
      afterChecks (src.headerChecks m ok) (.ok (src.field m 14 2, src.field m 16 2, src.field m 18 2, 32)) := by
  simp only [parseHeader, Source.rd_bind, Source.skip_bind, ite_error_eq_afterChecks,
    afterChecks_singleton, Bool.decide_eq_true]
  rfl

/-- The length check of the width table (R327). -/
def widthCheck (g v : Nat) : Bool × CmdError := (decide (v % 2 ≠ 0 ∨ v / 2 > g), { code := .fmtBadSize, info := 96 })

theorem filter_lt_range {g n : Nat} (h : n ≤ g) : (List.range g).filter (fun i => i < n) = List.range n := by
  obtain ⟨d, rfl⟩ := Nat.exists_eq_add_of_le h
  rw [List.range_add, List.filter_append, List.filter_eq_self.mpr (by simp), List.filter_eq_nil_iff.mpr (by simp),
    List.append_nil]

theorem parseWidthTable_eq (g : Nat) :
    parseWidthTable m src g 96 =
      afterChecks
        ([src.needs 4 96, widthCheck g (src.field m 96 4)] ++
          (List.range (src.field m 96 4 / 2)).flatMap src.entryChecks)
        (.ok ((List.range g).map (src.glyphMetrics m (src.field m 96 4 / 2)), 100 + src.field m 96 4)) := by
  rw [parseWidthTable, Source.rd_bind]
  generalize src.field m 96 4 = v
  have hloop : v / 2 ≤ g → v % 2 = 0 → parseMetrics m src (v / 2) g 0 100 =
      afterChecks ((List.range (v / 2)).flatMap src.entryChecks)
        (.ok ((List.range g).map (src.glyphMetrics m (v / 2)), 100 + v)) := fun hle heven => by
    have hall := parseMetrics_eq m src (v / 2) g 0
    rwa [← List.range_eq_range', filter_lt_range hle, Nat.zero_min, Nat.zero_add, Nat.min_eq_right hle,
      Nat.mul_div_cancel' (Nat.dvd_of_mod_eq_zero heven)] at hall
  have hcheck : (if v % 2 ≠ 0 ∨ g < v / 2 then .error { code := .fmtBadSize, info := 96 }
      else parseMetrics m src (v / 2) g 0 100) =
      afterChecks (widthCheck g v :: (List.range (v / 2)).flatMap src.entryChecks)
        (.ok ((List.range g).map (src.glyphMetrics m (v / 2)), 100 + v)) := by
    rw [← afterChecks_singleton, widthCheck, ← ite_error_eq_afterChecks]
    split_ifs with h
    · rfl
    · exact hloop (by omega) (by omega)
  exact (congrArg _ hcheck).trans (afterChecks_singleton _ _ _)

/-- The checks of the section header at `o` (R333, R334). -/
def Source.sectionChecks (o : Nat) : List (Bool × CmdError) :=
  (List.range 8).map (fun j => src.needs 4 (o + 4 * j)) ++
    [(decide (src.field m (o + 4) 4 < 2 ∨ 2 ^ 31 ≤ src.field m (o + 4) 4), { code := .fmtBadSize, info := o + 4 }),
      (decide (2 ^ 31 ≤ src.field m (o + 8) 4), { code := .fmtBadSize, info := o + 8 })]

theorem sext32_of_lt {v : Nat} (h : v < 2 ^ 31) : sext32 v = v := by
  rw [sext32, BitVec.toInt_eq_toNat_of_lt] <;> rw [BitVec.toNat_ofNat, Nat.mod_eq_of_lt (by omega)]
  omega

theorem sext32_of_ge {v : Nat} (h : 2 ^ 31 ≤ v) (h' : v < 2 ^ 32) : sext32 v = v - 2 ^ 32 := by
  rw [sext32, BitVec.toInt_eq_toNat_cond, BitVec.toNat_ofNat, Nat.mod_eq_of_lt h', if_neg (by omega)]
  norm_num

theorem sext32_lt_two_iff {v : Nat} (h : v < 2 ^ 32) : sext32 v < 2 ↔ v < 2 ∨ 2 ^ 31 ≤ v := by
  obtain hv | hv := Nat.lt_or_ge v (2 ^ 31)
  · rw [sext32_of_lt hv]; omega
  · rw [sext32_of_ge hv h]; omega

theorem sext32_neg_iff {v : Nat} (h : v < 2 ^ 32) : sext32 v < 0 ↔ 2 ^ 31 ≤ v := by
  obtain hv | hv := Nat.lt_or_ge v (2 ^ 31)
  · rw [sext32_of_lt hv]; omega
  · rw [sext32_of_ge hv h]; omega

theorem parseSectionHeader_eq (o : Nat) :
    parseSectionHeader m src o =
      afterChecks (src.sectionChecks m o)
        (.ok ({ treeSize := src.field m (o + 4) 4
                dataSize := src.field m (o + 8) 4
                glyphSize := src.field m (o + 16) 4
                numImages := src.field m (o + 20) 4 }, o + 32)) := by
  have hhts := src.field_lt m (o + 4) 4
  have hcds := src.field_lt m (o + 8) 4
  simp only [parseSectionHeader, Source.rd_bind, afterChecks_singleton, Source.sectionChecks, afterChecks_append,
    Nat.add_assoc, Nat.reduceAdd]
  congr 1
  rw [afterChecks_cons, afterChecks_cons, afterChecks_nil]
  simp only [sext32_lt_two_iff hhts, sext32_neg_iff hcds, decide_eq_true_eq]
  split_ifs with h h'
  · rfl
  · rfl
  · rw [sext32_of_lt (by omega), sext32_of_lt (by omega)]
    rfl

/-! ### The images (R339) -/

/-- What image `i` of the container decodes to, or the error it raises (R339). -/
def imageResult (i : Nat) : Except CmdError (List Byte) :=
  if 2 ^ 31 ≤ imagePosition m src i then .error { code := .fmtBadOffset, info := i }
  else
    (decodeCore m ((containerFields m src).decodeSource src) (containerFields m src).glyphSize
      (imagePosition m src i)).map Prod.fst

theorem imageDecodes_iff (i : Nat) (px : List Byte) : imageDecodes m src i px ↔ imageResult m src i = .ok px := by
  simp only [imageDecodes, ← decodeCoreIsTheWalkOfTheRule _ _ _ _ _, imageResult]
  split_ifs with h
  · exact ⟨fun ⟨hlt, _⟩ => absurd hlt (Nat.not_lt.mpr h), nofun⟩
  · rw [and_iff_right (Nat.not_le.mp h)]
    generalize decodeCore m _ _ _ = walk
    cases walk <;> simp [Except.map, Prod.ext_iff]

theorem imageFails_iff (i : Nat) (err : CmdError) : imageFails m src i err ↔ imageResult m src i = .error err := by
  simp only [imageFails, ← decodeCoreIsTheWalkOfTheRule _ _ _ _ _, imageResult, ← Nat.not_le]
  split_ifs with h
  · simp only [h, true_and, not_true_eq_false, false_and, or_false, Except.error.injEq, eq_comm]
  · simp only [h, false_and, not_false_eq_true, true_and, false_or]
    generalize decodeCore m _ _ _ = walk
    cases walk <;> simp [Except.map]

/-- The images are decoded one after another, up to the first that fails. -/
theorem decodeImages_eq_mapM (i n : Nat) :
    decodeImages m ((containerFields m src).decodeSource src) (containerFields m src).glyphSize i
        ((List.range' i n).map fun j => sext32 (imagePosition m src j)) =
      (List.range' i n).mapM (imageResult m src) := by
  induction n generalizing i with
  | zero => rfl
  | succ n ih =>
    have hpos : imagePosition m src i < 2 ^ 32 := src.field_lt m _ 4
    rw [List.range'_succ, List.map_cons, decodeImages, List.mapM_cons, imageResult, ih]
    simp only [sext32_neg_iff hpos]
    split_ifs with h
    · rfl
    · rw [sext32_of_lt (Nat.not_le.mp h), Int.toNat_natCast]
      generalize decodeCore m _ _ _ = walk
      rcases walk with e | x
      · rfl
      · rcases (List.range' (i + 1) n).mapM (imageResult m src) with e | grids <;> rfl

end

section
variable {ε α : Type} {g : Nat → Except ε α}

theorem mapM_range_succ (n : Nat) :
    (List.range (n + 1)).mapM g = (List.range n).mapM g >>= fun l => g n >>= fun x => .ok (l ++ [x]) := by
  rw [List.range_succ, List.mapM_append, List.mapM_cons]
  simp only [List.mapM_nil, bind_assoc, pure_bind]
  rfl

/-- A run over the first `n` indices succeeds exactly when each index does. -/
theorem mapM_range_eq_ok_iff {n : Nat} {l : List α} :
    (List.range n).mapM g = .ok l ↔ l.length = n ∧ ∀ i < n, ∃ x, l[i]? = some x ∧ g i = .ok x := by
  induction n generalizing l with
  | zero => simp [pure, Except.pure, eq_comm]
  | succ n ih =>
    simp only [mapM_range_succ, except_bind_eq_ok, ih, Except.ok.injEq]
    constructor
    · rintro ⟨l, ⟨rfl, hl⟩, x, hx, rfl⟩
      refine ⟨by simp, fun i hi => ?_⟩
      obtain hi | rfl := Nat.lt_succ_iff_lt_or_eq.mp hi
      · rw [List.getElem?_append_left hi]
        exact hl i hi
      · exact ⟨x, by simp, hx⟩
    · rintro ⟨hlen, hl⟩
      obtain ⟨x, hxl, hx⟩ := hl n (Nat.lt_succ_self n)
      refine ⟨l.take n, ⟨by simp [hlen], fun i hi => ?_⟩, x, hx, ?_⟩
      · rw [List.getElem?_take_of_lt hi]
        exact hl i (Nat.lt_succ_of_lt hi)
      · rw [← Option.toList_some, ← hxl, ← List.take_add_one, List.take_of_length_le hlen.le]

/-- A run over the first `n` indices fails exactly with the error of the first index that fails. -/
theorem mapM_range_eq_error_iff {n : Nat} {e : ε} :
    (List.range n).mapM g = .error e ↔ ∃ i < n, (∀ j < i, ∃ x, g j = .ok x) ∧ g i = .error e := by
  induction n generalizing e with
  | zero => simp [pure, Except.pure]
  | succ n ih =>
    rw [mapM_range_succ]
    cases hrun : (List.range n).mapM g with
    | error e' =>
      rw [hrun] at ih
      rw [except_error_bind, ih]
      constructor
      · exact fun ⟨i, hi, h⟩ => ⟨i, Nat.lt_succ_of_lt hi, h⟩
      · rintro ⟨i, hi, hbefore, herr⟩
        obtain ⟨i', hi', -, herr'⟩ := ih.mp rfl
        obtain hi | rfl := Nat.lt_succ_iff_lt_or_eq.mp hi
        · exact ⟨i, hi, hbefore, herr⟩
        · obtain ⟨x, hx⟩ := hbefore i' hi'
          exact absurd (hx.symm.trans herr') nofun
    | ok l =>
      obtain ⟨-, hl⟩ := mapM_range_eq_ok_iff.mp hrun
      have hok : ∀ j < n, ∃ x, g j = .ok x := fun j hj => (hl j hj).imp fun _ h => h.2
      rw [except_ok_bind]
      constructor
      · intro h
        refine ⟨n, Nat.lt_succ_self n, hok, ?_⟩
        cases hn : g n with
        | error e' =>
          rw [hn, except_error_bind] at h
          rw [Except.error.inj h]
        | ok x => rw [hn] at h; exact absurd h nofun
      · rintro ⟨i, hi, -, herr⟩
        obtain hi | rfl := Nat.lt_succ_iff_lt_or_eq.mp hi
        · obtain ⟨x, hx⟩ := hok i hi
          exact absurd (hx.symm.trans herr) nofun
        · rw [herr, except_error_bind]

end

/-! ### The declared font and the whole parse -/

section
variable (m : Mem) (src : Source)

/-- The font the container at `src` declares, with these decoded images (R323 to R341). -/
def declaredFont (grids : List (List Byte)) : FontModel :=
  let k := containerFields m src
  { numGlyphs := k.glyphs
    charWidth := k.charWidth
    charHeight := k.charHeight
    images := k.images
    palette := (List.range 16).map fun c => src.colour m (32 + 4 * c)
    metrics := (List.range k.glyphs).map (src.glyphMetrics m (k.widthBytes / 2))
    grids := grids ++ List.replicate (k.glyphs - k.images) (List.replicate (k.charWidth * k.charHeight) 0) }

/-- The check of the destination's capacity (R325). -/
def ContainerFields.capacityCheck (k : ContainerFields) (cap : Nat) : Bool × CmdError :=
  (decide (fontImageSize k.glyphs k.charWidth k.charHeight > cap),
    { code := .capacity, info := fontImageSize k.glyphs k.charWidth k.charHeight })

/-- The check of the images' size (R338). -/
def ContainerFields.imageSizeCheck (k : ContainerFields) : Bool × CmdError :=
  (decide (0 < k.images ∧ 2 * k.glyphSize ≠ k.charWidth * k.charHeight),
    { code := .fmtDimension, info := k.glyphSize })

/-- The checks of the parse, grouped by the model's steps. -/
theorem containerChecks_eq (ok : Word → Bool) (cap : Nat) {k : ContainerFields} (hk : k = containerFields m src) :
    containerChecks m ok src cap =
      src.headerChecks m ok ++ ([k.capacityCheck cap] ++ ((List.range 64).map (fun j => src.needs 1 (32 + j)) ++
        (([src.needs 4 96, widthCheck k.glyphs k.widthBytes] ++
            (List.range (k.widthBytes / 2)).flatMap src.entryChecks) ++
          ([src.needs (4 + 4 * k.glyphs) (100 + k.widthBytes)] ++ (src.sectionChecks m k.sectionAt ++
            ([src.needs 2 (k.sectionAt + 32)] ++ ([src.needs (k.treeSize - 2) (k.sectionAt + 34)] ++
              ((List.range k.numImages).map (fun i => src.needs 4 (k.tableAt + 4 * i)) ++
                ([src.needs k.dataSize k.blobAt] ++ [k.imageSizeCheck]))))))))) := by
  have htree : src.field m (k.sectionAt + 4) 4 = k.treeSize := hk ▸ rfl
  have hdata : src.field m (k.sectionAt + 8) 4 = k.dataSize := hk ▸ rfl
  have hentry : src.entryChecks = fun i => [src.needs 1 (100 + 2 * i), src.needs 1 (101 + 2 * i)] := rfl
  simp only [containerChecks, ← hk, Source.headerChecks, ContainerFields.capacityCheck, fontImageSize, widthCheck,
    hentry, Source.sectionChecks, htree, hdata, ContainerFields.imageSizeCheck, List.append_assoc, List.cons_append,
    List.nil_append]
  rfl

/-- The parse is its checks in order, then its images in order (R322). -/
theorem parseContainer_eq (ok : Word → Bool) (cap : Nat) {k : ContainerFields} (hk : k = containerFields m src) :
    parseContainer m ok src cap =
      afterChecks (containerChecks m ok src cap)
        ((List.range k.images).mapM (imageResult m src) >>= fun grids =>
          .ok (declaredFont m src grids, k.blobAt + k.dataSize)) := by
  have hglyphs : src.field m 14 2 = k.glyphs := hk ▸ rfl
  have hwidth : src.field m 16 2 = k.charWidth := hk ▸ rfl
  have hheight : src.field m 18 2 = k.charHeight := hk ▸ rfl
  have hwidthBytes : src.field m 96 4 = k.widthBytes := hk ▸ rfl
  have hsection : 100 + k.widthBytes + (4 + 4 * k.glyphs) = k.sectionAt := by
    subst hk; exact (Nat.add_assoc _ 4 _).symm
  have htree : src.field m (k.sectionAt + 4) 4 = k.treeSize := hk ▸ rfl
  have hdata : src.field m (k.sectionAt + 8) 4 = k.dataSize := hk ▸ rfl
  have hglyphSize : src.field m (k.sectionAt + 16) 4 = k.glyphSize := hk ▸ rfl
  have hnumImages : src.field m (k.sectionAt + 20) 4 = k.numImages := hk ▸ rfl
  have htreeLen : ((k.treeSize : Int) - 2).toNat = k.treeSize - 2 := by omega
  simp only [parseContainer, parseHeader_eq, afterChecks_ok_bind, parsePalette_eq, parseWidthTable_eq,
    Source.skip_bind, parseSectionHeader_eq, parsePositions_eq, Nat.reduceMul, Nat.reduceAdd, hglyphs, hwidth, hheight,
    hwidthBytes, hsection, htree, hdata, hglyphSize, hnumImages, htreeLen, Int.toNat_natCast, ite_error_eq_afterChecks]
  simp only [containerChecks_eq m src ok cap hk, afterChecks_append]
  iterate 6 refine congrArg (afterChecks _) ?_
  refine afterChecks_congr fun hsize => ?_
  have htwo : 2 ≤ k.treeSize := by
    have := hsize _ (List.mem_append_right _ List.mem_cons_self)
    simp only [htree, decide_eq_false_iff_not] at this
    omega
  have htable : k.sectionAt + 32 + 2 + (k.treeSize - 2) = k.tableAt := by rw [ContainerFields.tableAt]; omega
  have himages : min k.numImages k.glyphs = k.images := rfl
  have hblob : k.tableAt + 4 * k.numImages = k.blobAt := rfl
  have hpositions :
      ((List.range k.numImages).map fun i => sext32 (src.field m (k.tableAt + 4 * i) 4)).take k.images =
        (List.range k.images).map fun i => sext32 (imagePosition m src i) := by
    rw [← List.map_take, List.take_range, ← himages, Nat.min_eq_left (Nat.min_le_left _ _), hk]
    rfl
  have hdecode := decodeImages_eq_mapM m src 0 k.images
  rw [← hk, ← List.range_eq_range'] at hdecode
  simp only [htable, himages, hblob, hpositions]
  rw [← hdecode, hk]
  rfl
end

section
variable (m : Mem) (src : Source)

theorem Source.needs_passes_iff (n o : Nat) : (src.needs n o).1 = false ↔ o + n ≤ src.len := by simp [Source.needs]

/-- Every check passes exactly when the declared sizes do and the container ends inside the source. -/
theorem firstFailure_containerChecks_eq_none_iff (ok : Word → Bool) (cap : Nat) {k : ContainerFields}
    (hk : k = containerFields m src) :
    firstFailure (containerChecks m ok src cap) = none ↔ containerPasses m ok src cap (k.blobAt + k.dataSize) := by
  have hsection : k.sectionAt = 100 + k.widthBytes + 4 + 4 * k.glyphs := hk ▸ rfl
  have htree : src.field m (k.sectionAt + 4) 4 = k.treeSize := hk ▸ rfl
  have hdata : src.field m (k.sectionAt + 8) 4 = k.dataSize := hk ▸ rfl
  have htable : k.tableAt = k.sectionAt + 32 + k.treeSize := rfl
  have hblob : k.blobAt = k.tableAt + 4 * k.numImages := rfl
  simp only [firstFailure_eq_none_iff, containerChecks_eq m src ok cap hk, containerPasses, ← hk, Source.headerChecks,
    Source.sectionChecks, htree, hdata, Source.entryChecks, widthCheck, ContainerFields.capacityCheck,
    ContainerFields.imageSizeCheck, List.forall_mem_append, List.forall_mem_cons, List.forall_mem_map,
    List.forall_mem_flatMap, List.not_mem_nil, false_imp_iff, implies_true, and_true, Source.needs_passes_iff,
    List.mem_range, decide_eq_false_iff_not, Bool.not_eq_false', true_and]
  simp only [fontImageSize]
  constructor
  · rintro ⟨⟨-, hok, -⟩, hcap, -, ⟨⟨-, hwidth⟩, -⟩, -, ⟨-, htreeSize, hdataSize⟩, -, -, -, hend, hdim⟩
    exact ⟨hok, by omega, by omega, by omega, by omega, by omega, by omega, hend, by omega⟩
  · rintro ⟨hok, heven, hwidth, htwo, htreeSize, hdataSize, hcap, hend, hdim⟩
    exact ⟨⟨by omega, hok, by omega, by omega, by omega, by omega, by omega, by omega, by omega, by omega⟩, by omega,
      fun j hj => by omega, ⟨⟨by omega, by omega⟩, fun i hi => ⟨by omega, by omega⟩⟩, by omega,
      ⟨fun j hj => by omega, by omega, by omega⟩, by omega, by omega, fun i hi => by omega, hend, by omega⟩

theorem containerPasses_iff (ok : Word → Bool) (cap consumed : Nat) {k : ContainerFields}
    (hk : k = containerFields m src) :
    containerPasses m ok src cap consumed ↔
      firstFailure (containerChecks m ok src cap) = none ∧ consumed = k.blobAt + k.dataSize := by
  rw [firstFailure_containerChecks_eq_none_iff m src ok cap hk]
  constructor
  · intro h
    obtain ⟨-, -, -, -, -, -, -, rfl, -⟩ := id h
    exact ⟨hk ▸ h, by rw [hk]⟩
  · rintro ⟨h, rfl⟩
    exact h

theorem eq_map_range_iff {α : Type} {l : List α} {n : Nat} {g : Nat → α} :
    l = (List.range n).map g ↔ l.length = n ∧ ∀ i < n, l[i]? = some (g i) := by
  constructor
  · rintro rfl
    exact ⟨by simp, fun i hi => by simp [hi]⟩
  · rintro ⟨hlen, hget⟩
    refine List.ext_getElem? fun i => ?_
    obtain hi | hi := Nat.lt_or_ge i n
    · simp [hget i hi, hi]
    · simp [hi, hlen]

theorem eq_take_append_replicate_iff {α : Type} {l : List α} {k n : Nat} {x : α} (hk : k ≤ n) :
    (k ≤ l.length ∧ l = l.take k ++ List.replicate (n - k) x) ↔ l.length = n ∧ ∀ i < n, k ≤ i → l[i]? = some x := by
  constructor
  · rintro ⟨hle, heq⟩
    have hlen : l.length = n := by
      rw [heq, List.length_append, List.length_take, List.length_replicate]
      omega
    refine ⟨hlen, fun i hi hki => ?_⟩
    rw [heq, List.getElem?_append_right (by rw [List.length_take]; omega), List.getElem?_replicate,
      if_pos (by rw [List.length_take]; omega)]
  · rintro ⟨rfl, hget⟩
    have hdrop : l.drop k = List.replicate (l.length - k) x :=
      List.ext_getElem? fun i => by
        rw [List.getElem?_drop, List.getElem?_replicate]
        split
        · exact hget _ (by omega) (by omega)
        · exact List.getElem?_eq_none (by omega)
    exact ⟨hk, by rw [← hdrop, List.take_append_drop]⟩

/-- The declared font is the only one that the container's fields describe, its first grids apart. -/
theorem declaredBy_iff {f : FontModel} {k : ContainerFields} (hk : k = containerFields m src) :
    f.declaredBy m src ↔ k.images ≤ f.grids.length ∧ f = declaredFont m src (f.grids.take k.images) := by
  have hle : k.images ≤ k.glyphs := Nat.min_le_right _ _
  obtain ⟨glyphs, charWidth, charHeight, images, palette, metrics, grids⟩ := f
  simp only [FontModel.declaredBy, declaredFont, ← hk, FontModel.mk.injEq]
  constructor
  · rintro ⟨hglyphs, hwidth, hheight, himages, hpaletteLen, hpalette, hmetricsLen, hmetrics, hgridsLen, hgrids⟩
    obtain ⟨hlen, hfill⟩ := (eq_take_append_replicate_iff hle).mpr ⟨hgridsLen, hgrids⟩
    exact ⟨hlen, hglyphs, hwidth, hheight, himages,
      eq_map_range_iff.mpr ⟨hpaletteLen, fun c hc =>
        (hpalette c hc).trans (by simp [Source.colour, Nat.add_right_comm])⟩,
      eq_map_range_iff.mpr ⟨hmetricsLen, hmetrics⟩, hfill⟩
  · rintro ⟨hlen, hglyphs, hwidth, hheight, himages, hpalette, hmetrics, hfill⟩
    obtain ⟨hpaletteLen, hpalette⟩ := eq_map_range_iff.mp hpalette
    obtain ⟨hmetricsLen, hmetrics⟩ := eq_map_range_iff.mp hmetrics
    obtain ⟨hgridsLen, hgrids⟩ := (eq_take_append_replicate_iff hle).mp ⟨hlen, hfill⟩
    exact ⟨hglyphs, hwidth, hheight, himages, hpaletteLen,
      fun c hc => (hpalette c hc).trans (by simp [Source.colour, Nat.add_right_comm]), hmetricsLen, hmetrics, hgridsLen,
      hgrids⟩

/-- A parsed font is the declared one with the images the source decodes to. -/
theorem parsedAsDeclared_iff (ok : Word → Bool) (cap : Nat) (f : FontModel) (consumed : Nat) {k : ContainerFields}
    (hk : k = containerFields m src) :
    ParsedAsDeclared m ok src cap f consumed ↔
      firstFailure (containerChecks m ok src cap) = none ∧ consumed = k.blobAt + k.dataSize ∧
        ∃ grids, (List.range k.images).mapM (imageResult m src) = .ok grids ∧ f = declaredFont m src grids := by
  simp only [ParsedAsDeclared, containerPasses_iff m src ok cap consumed hk, declaredBy_iff m src hk, imageDecodes_iff,
    mapM_range_eq_ok_iff, ← hk, and_assoc]
  refine and_congr_right fun _ => and_congr_right fun _ => ?_
  constructor
  · rintro ⟨hlen, hf, himages⟩
    refine ⟨f.grids.take k.images, by simpa using hlen, fun i hi => ?_, hf⟩
    rw [List.getElem?_take_of_lt hi]
    exact himages i hi
  · rintro ⟨grids, hlen, himages, rfl⟩
    have htake : (declaredFont m src grids).grids.take k.images = grids := List.take_left' hlen
    have hprefix : grids <+: (declaredFont m src grids).grids := List.prefix_append _ _
    refine ⟨hlen ▸ hprefix.length_le, by rw [htake], fun i hi => ?_⟩
    have himage := himages i hi
    rwa [← htake, List.getElem?_take_of_lt hi] at himage

theorem failsAsDeclared_iff (ok : Word → Bool) (cap : Nat) (err : CmdError) :
    FailsAsDeclared m ok src cap err ↔
      firstFailure (containerChecks m ok src cap) = some err ∨
        (firstFailure (containerChecks m ok src cap) = none ∧
          (List.range (containerFields m src).images).mapM (imageResult m src) = .error err) := by
  simp only [FailsAsDeclared, imageFails_iff, imageDecodes_iff, mapM_range_eq_error_iff]

end

/-- Settles O54: the parse is the rule's list of checks and then its images, and the container's fields describe one
font only. -/
theorem parseSucceedsExactlyOnDeclaredFonts : Obligations.ParseSucceedsExactlyOnDeclaredFonts := by
  intro m ok src cap r
  rw [parseContainer_eq m src ok cap rfl]
  cases hchecks : firstFailure (containerChecks m ok src cap) with
  | some e =>
    rw [afterChecks_of_some hchecks]
    cases r with
    | error err => simp [ParsesAsWritten, failsAsDeclared_iff, hchecks]
    | ok x => simp [ParsesAsWritten, parsedAsDeclared_iff m src ok cap _ _ rfl, hchecks]
  | none =>
    rw [afterChecks_of_none hchecks]
    cases himages : (List.range (containerFields m src).images).mapM (imageResult m src) with
    | error e =>
      cases r with
      | error err => simp [ParsesAsWritten, failsAsDeclared_iff, hchecks, himages]
      | ok x => simp [ParsesAsWritten, parsedAsDeclared_iff m src ok cap _ _ rfl, himages]
    | ok grids =>
      cases r with
      | error err => simp [ParsesAsWritten, failsAsDeclared_iff, hchecks, himages]
      | ok x =>
        simp [ParsesAsWritten, parsedAsDeclared_iff m src ok cap _ _ rfl, hchecks, himages, Prod.ext_iff, and_comm,
          eq_comm]

end Sys2Proof.Machine

namespace Sys2Proof.Machine

/-! ## FCP_PARSE (44_container.md R322) -/

/-- The images of a declared font have CW · CH pixels, whether decoded (R338, R339) or empty (R341), so its Font Model
image has the size that R180 gives it. -/
theorem ParsedAsDeclared.length_fontImage {m : Mem} {ok : Word → Bool} {src : Source} {cap consumed : Nat}
    {f : FontModel} (h : ParsedAsDeclared m ok src cap f consumed) :
    (fontImage f).length = fontImageSize f.numGlyphs f.charWidth f.charHeight := by
  obtain ⟨hpasses, hdeclared, himages⟩ := h
  obtain ⟨-, -, -, -, -, -, -, -, -, hsize⟩ := hpasses
  obtain ⟨hglyphs, hwidth, hheight, -, hpalette, -, hmetrics, -, hgrids, hempty⟩ := hdeclared
  have hgrid : ∀ g ∈ f.grids, g.length = f.charWidth * f.charHeight := by
    intro g hg
    obtain ⟨i, hi, rfl⟩ := List.mem_iff_getElem.mp hg
    obtain hdecoded | hfill := Nat.lt_or_ge i (containerFields m src).images
    · obtain ⟨px, hpx, -, e, hcore⟩ := himages i hdecoded
      rw [List.getElem?_eq_getElem hi, Option.some.injEq] at hpx
      rw [hpx, decodeCore_length ((decodeCoreIsTheWalkOfTheRule _ _ _ _ _).mpr hcore), hwidth, hheight]
      exact hsize.resolve_left (by omega)
    · have hzero := hempty i (hgrids ▸ hi) hfill
      rw [List.getElem?_eq_getElem hi, Option.some.injEq] at hzero
      rw [hzero, List.length_replicate, hwidth, hheight]
  have hflat : f.grids.flatten.length = f.numGlyphs * (f.charWidth * f.charHeight) := by
    rw [List.length_flatten, List.map_congr_left hgrid, List.map_const', List.sum_replicate, hgrids, hglyphs,
      smul_eq_mul]
  rw [fontImage_length, hpalette, hmetrics, hflat, fontImageSize, hglyphs, Nat.mul_assoc]

/-- The source region of an FCP_PARSE (R321). -/
def State.parseSource (s : State) : Source := { base := s.arg 0, len := s.arg 1 }

/-- The operands that FCP_PARSE's three checks let pass (R322). -/
structure State.FcpParseReady (s : State) : Prop where
  source : s.arg 0 + s.arg 1 ≤ s.params.bufSize
  dest : s.arg 2 + s.arg 3 ≤ s.params.bufSize
  apart : regionsOverlap (s.arg 0) (s.arg 1) (s.arg 2) (s.arg 3) = false

section
variable {s : State}

theorem State.FcpParseReady.checks_pass (h : s.FcpParseReady) (o₁ o₂ o₃ o : Host.Outcome State Fault Refusal) :
    (if !s.regionValid (s.arg 0) (s.arg 1) then o₁
      else if !s.regionValid (s.arg 2) (s.arg 3) then o₂
      else if regionsOverlap (s.arg 0) (s.arg 1) (s.arg 2) (s.arg 3) then o₃
      else o) = o := by
  obtain ⟨hsource, hdest, hapart⟩ := h
  exact threeChecks_pass (s.regionCheck_passes hsource) (s.regionCheck_passes hdest) (by simp [hapart])

theorem State.FcpParseReady.exec_ok (h : s.FcpParseReady) {f : FontModel} {consumed : Nat}
    (hparse : ParsedAsDeclared s.buf (hdrSizeOk s.params) s.parseSource (s.arg 3) f consumed) :
    exec .fcpParse s =
      .next ((s.withBuf (s.buf.store (s.arg 2) (fontImage f))).complete f.numGlyphs f.images
        (fontImageSize f.numGlyphs f.charWidth f.charHeight) consumed) := by
  have hcontainer := (parseSucceedsExactlyOnDeclaredFonts _ _ _ _ (.ok (f, consumed))).mpr hparse
  refine (h.checks_pass _ _ _ _).trans ?_
  rw [← State.parseSource, hcontainer]

theorem State.FcpParseReady.exec_error (h : s.FcpParseReady) {err : CmdError}
    (hparse : FailsAsDeclared s.buf (hdrSizeOk s.params) s.parseSource (s.arg 3) err) :
    exec .fcpParse s = .next ((s.havoc (s.arg 2) (s.arg 3)).raise err.code err.info) := by
  have hcontainer := (parseSucceedsExactlyOnDeclaredFonts _ _ _ _ (.error err)).mpr hparse
  refine (h.checks_pass _ _ _ _).trans ?_
  rw [← State.parseSource, hcontainer]

end

/-- Settles O38: the three checks in order, then the parse, which the declared font or the first error describes, and
one store of the font's image. -/
theorem fcpParseWritesTheFontModel : Obligations.FcpParseWritesTheFontModel := by
  refine ⟨decode_encode .fcpParse, fun s => ⟨fun f consumed hsource hdest hapart hparse => ?_,
    fun hsource => s.firstCheck_fails ((s.not_regionValid_iff _ _).mpr hsource),
    fun hsource hdest => s.secondCheck_fails (s.regionCheck_passes hsource) ((s.not_regionValid_iff _ _).mpr hdest),
    fun hsource hdest hoverlap => s.thirdCheck_fails (s.regionCheck_passes hsource) (s.regionCheck_passes hdest)
      hoverlap,
    fun err hsource hdest hapart hparse => ?_⟩⟩
  · have hlen := hparse.length_fontImage
    rw [← fontImageSize, ← hlen]
    refine ⟨_, State.FcpParseReady.exec_ok ⟨hsource, hdest, hapart⟩ hparse, ?_, s.buf.holds_store _ _,
      fun x hx => s.buf.readByte_store_of_not_mem _ _ x hx, rfl, rfl, rfl, rfl, rfl⟩
    rw [hlen]
    exact State.complete_completed _ _ _ _ _
  · obtain ⟨hfailed, -⟩ := (s.havoc (s.arg 2) (s.arg 3)).raise_failedCleanly err.code err.info
    refine ⟨_, State.FcpParseReady.exec_error ⟨hsource, hdest, hapart⟩ hparse, hfailed, fun x hx => ?_⟩
    exact s.buf.readByte_store_of_not_mem _ _ x (by rwa [length_freeBytes])

end Sys2Proof.Machine

namespace Sys2Proof.Machine

/-! ## The host's assembly contract (44_container.md R345 to R353) -/

/-! ### Pixels and their packed bytes (R346) -/

/-- Packing loses nothing of an even number of 4-bit pixels (43_huffman_encode.md R291, 42_huffman_decode.md R273). -/
theorem flatMap_nibbles_packPixels : ∀ l : List Byte, l.length % 2 = 0 → (∀ x ∈ l, x.toNat ≤ 15) →
    (packPixels l).flatMap nibbles = l
  | [], _, _ => rfl
  | [_], heven, _ => by simp at heven
  | x :: y :: rest, heven, hpixels => by
    simp only [List.forall_mem_cons] at hpixels
    obtain ⟨hx, hy, hrest⟩ := hpixels
    have hlow : (x.toNat + 16 * y.toNat) % 256 % 16 = x.toNat := by omega
    have hhigh : (x.toNat + 16 * y.toNat) % 256 / 16 = y.toNat := by omega
    simp only [List.length_cons] at heven
    rw [packPixels, List.flatMap_cons, flatMap_nibbles_packPixels rest (by omega) hrest, nibbles, BitVec.toNat_ofNat,
      hlow, hhigh, BitVec.ofNat_toNat, BitVec.ofNat_toNat, BitVec.setWidth_eq, BitVec.setWidth_eq]
    rfl

/-- What `fitsContainer` says of a font (R353). -/
structure FontModel.Fits (f : FontModel) : Prop where
  glyphs_lt : f.numGlyphs < 2 ^ 16
  width_lt : f.charWidth < 2 ^ 16
  height_lt : f.charHeight < 2 ^ 16
  even : f.charWidth * f.charHeight % 2 = 0
  images : f.images = f.numGlyphs
  palette : f.palette.length = 16
  metrics : f.metrics.length = f.numGlyphs
  grids : f.grids.length = f.numGlyphs
  record : ∀ i (h : i < f.metrics.length), f.metrics[i].code = 0x20 + i ∧ f.metrics[i].bearingX < 256 ∧
    f.metrics[i].advance < 256 ∧ f.metrics[i].width = (f.metrics[i].advance : Int) - f.metrics[i].bearingX
  grid : ∀ g ∈ f.grids, g.length = f.charWidth * f.charHeight ∧ ∀ x ∈ g, x.toNat ≤ 15

theorem FontModel.fits_of_fitsContainer {f : FontModel} (h : f.fitsContainer = true) : f.Fits := by
  simp only [FontModel.fitsContainer, Bool.and_eq_true, decide_eq_true_eq, List.all_eq_true] at h
  obtain ⟨⟨⟨⟨⟨-, hglyphs, hwidth, hheight⟩, heven, -⟩, himages, hpalette, hmetrics, hgrids⟩, hrecord⟩, hgrid⟩ := h
  refine ⟨hglyphs, hwidth, hheight, heven, himages, hpalette, hmetrics, hgrids, fun i hi => ?_, hgrid⟩
  exact hrecord (f.metrics[i], i) (List.mem_zipIdx_iff_getElem?.mpr (List.getElem?_eq_getElem hi))

section
variable {f : FontModel}

theorem FontModel.Fits.length_packedGlyphs (h : f.Fits) :
    (packedGlyphs f).length = f.numGlyphs * (f.charWidth * f.charHeight / 2) := by
  have hlen : ∀ g ∈ f.grids, (packPixels g).length = f.charWidth * f.charHeight / 2 := fun g hg => by
    rw [packPixels_length, (h.grid g hg).1]
  rw [packedGlyphs, List.length_flatMap, List.map_congr_left hlen, List.map_const', List.sum_replicate, h.grids,
    smul_eq_mul]

/-! ### The one tree (R347) -/

/-- Every byte that is counted without overflow has a codeword in the built tree (41_huffman_build.md R243 (3), (4)). -/
theorem tableGet_deriveCodes_buildTree_ne_nil {bs : List Byte} (hlen : bs.length < 2 ^ 32) {v : Byte} (hv : v ∈ bs) :
    tableGet (deriveCodes (buildTree (countSymbols (Vector.replicate 256 0) bs))) v ≠ [] := by
  have hcount := List.count_pos_iff.mpr hv
  have hle := List.count_le_length (a := v) (l := bs)
  have hfreq : 0 < (tableGet (countSymbols (Vector.replicate 256 0) bs) v).toNat := by
    rw [tableGet_countSymbols, tableGet_replicate, zero_add, BitVec.toNat_ofNat, Nat.mod_eq_of_lt (by omega)]
    exact hcount
  have hmem := (mem_buildTree_symbols _ v).mpr (.inl hfreq)
  exact List.ne_nil_of_length_pos ((one_le_length_deriveCodes_iff (buildTree_symbols_nodup _) v).mpr hmem)

/-! ### The streams and their start positions (R349) -/

theorem FetchesBits.stream {m : Mem} {d : DecodeSource} {q i : Nat} {streams : List (List Bool)}
    (h : FetchesBits m d q streams.flatten) (hi : i < streams.length) :
    FetchesBits m d ((glyphStarts q streams)[i]'(by rwa [glyphStarts_length])) streams[i] := by
  induction streams generalizing q i with
  | nil => simp at hi
  | cons w rest ih =>
    obtain ⟨hfirst, hrest⟩ := FetchesBits.append (List.flatten_cons ▸ h)
    cases i with
    | zero => exact hfirst
    | succ i => exact ih hrest (Nat.lt_of_succ_lt_succ hi)

/-- No stream starts after the end of the last. -/
theorem le_of_mem_glyphStarts {q st : Nat} {streams : List (List Bool)} (h : st ∈ glyphStarts q streams) :
    st ≤ q + streams.flatten.length := by
  induction streams generalizing q with
  | nil => simp [glyphStarts] at h
  | cons w rest ih =>
    rw [glyphStarts] at h
    rw [List.flatten_cons, List.length_append]
    obtain rfl | h := List.mem_cons.mp h
    · omega
    · have := ih h
      omega

@[simp] theorem length_contractStreams (f : FontModel) : (contractStreams f).length = f.grids.length := by
  simp [contractStreams]

@[simp] theorem length_contractBlob (f : FontModel) : (contractBlob f).length = blobBytesFor (contractBits f) :=
  Mem.length_bytes _ _ _

/-- The streams can be fetched from the assembled blob, wherever it lies. -/
theorem fetchesBits_contractBlob {m : Mem} {d : DecodeSource} (hlen : d.blobLen = (contractBlob f).length)
    (hholds : m.Holds d.blob (contractBlob f)) : FetchesBits m d 0 (contractStreams f).flatten := by
  obtain ⟨w, hw⟩ : ∃ w, w = (contractStreams f).flatten := ⟨_, rfl⟩
  obtain ⟨n, hn⟩ : ∃ n : Mem, n = padBlob (Mem.placeBits [] 0 0 w) 0 (0 + w.length) := ⟨_, rfl⟩
  have hblob : contractBlob f = n.bytes 0 (blobBytesFor w.length) := by
    rw [contractBlob, placeStreams_eq_placeBits, contractBits, hn, hw, Nat.zero_add]
  rw [hblob, Mem.length_bytes] at hlen
  rw [hblob] at hholds
  rw [← hw]
  intro j hj
  rw [blobBytesFor] at hlen
  have hfetch := fetchesBits_padBlob_placeBits [] (d := { d with blob := 0 }) (q := 0) (w := w)
    (by rw [Nat.zero_add, blobBytesFor]; exact hlen) j hj
  have hbyte : m.readByte (d.blob + j / 8) = n.readByte (0 + j / 8) := by
    have hlt : j / 8 < (n.bytes 0 (blobBytesFor w.length)).length := by rw [Mem.length_bytes, blobBytesFor]; omega
    have hread := hholds.getElem? hlt
    rw [List.getElem?_eq_getElem hlt, Mem.getElem_bytes, Option.some.injEq] at hread
    exact hread.symm
  rw [← hn, fetchBit_of_le (by dsimp only; omega), Mem.wordBit_eq_bit, Mem.bit] at hfetch
  rw [fetchBit_of_le (by omega), Mem.wordBit_eq_bit, Mem.bit]
  simp only [Nat.zero_add] at hbyte hfetch ⊢
  rwa [hbyte]

end

/-! ### SIM_FIELD leaves every field the parse reads (R351) -/

/-- The offsets of a container of `g` glyphs whose bytes the font is read from: counts, colours, width table, HTS, CDS,
GS, NI, and everything after the sub-header (30_encoding.md R168 to R179). -/
def ReadOffset (g x : Nat) : Prop :=
  (14 ≤ x ∧ x < 20) ∨ (32 ≤ x ∧ x < 96 ∧ x % 4 ≠ 3) ∨ (96 ≤ x ∧ x < 100 + 2 * g) ∨
    (108 + 6 * g ≤ x ∧ x < 116 + 6 * g) ∨ (120 + 6 * g ≤ x ∧ x < 128 + 6 * g) ∨ 138 + 6 * g ≤ x

theorem readOffset_of_le {g x : Nat} (h : 138 + 6 * g ≤ x) : ReadOffset g x := by
  unfold ReadOffset
  omega

theorem IgnoredField.outside_of_readOffset {g x : Nat} (hx : ReadOffset g x) {field : IgnoredField}
    (h : field.present g = true) : x < field.offset g ∨ field.offset g + field.width ≤ x := by
  unfold ReadOffset at hx
  cases field with
  | alpha c | reservedBlock o w =>
    simp only [IgnoredField.present, decide_eq_true_eq] at h
    simp only [IgnoredField.offset, IgnoredField.width]
    omega
  | _ => simp only [IgnoredField.offset, IgnoredField.width]; omega

/-- Every ignored field ends before the tree begins. -/
theorem IgnoredField.end_le {g : Nat} {field : IgnoredField} (h : field.present g = true) :
    field.offset g + field.width ≤ 138 + 6 * g := by
  cases field with
  | alpha c | reservedBlock o w =>
    simp only [IgnoredField.present, decide_eq_true_eq] at h
    simp only [IgnoredField.offset, IgnoredField.width]
    omega
  | _ => simp only [IgnoredField.offset, IgnoredField.width]; omega

theorem length_patchBytes {l : List Byte} {o : Nat} {bs : List Byte} (h : o + bs.length ≤ l.length) :
    (patchBytes l o bs).length = l.length := by
  simp only [patchBytes, List.length_append, List.length_take, List.length_drop]
  omega

theorem getElem?_patchBytes {l : List Byte} {o x : Nat} {bs : List Byte} (h : o + bs.length ≤ l.length)
    (hx : x < o ∨ o + bs.length ≤ x) : (patchBytes l o bs)[x]? = l[x]? := by
  have htake : (l.take o).length = o := by rw [List.length_take]; omega
  rw [patchBytes, List.append_assoc]
  obtain hx | hx := hx
  · rw [List.getElem?_append_left (by omega), List.getElem?_take_of_lt hx]
  · rw [List.getElem?_append_right (by omega), List.getElem?_append_right (by omega), List.getElem?_drop, htake]
    congr 1
    omega

section
variable {p : ContractParams} {f : FontModel}

/-- The assembled container has the length and the read bytes of the container before SIM_FIELD. -/
theorem assembleContainer_readOffset (hfits : p.fits f = true)
    (hlen : 138 + 6 * f.numGlyphs ≤ (containerBeforeSim p f).length) :
    (assembleContainer p f).length = (containerBeforeSim p f).length ∧
      ∀ x, ReadOffset f.numGlyphs x → (assembleContainer p f)[x]? = (containerBeforeSim p f)[x]? := by
  simp only [ContractParams.fits, Bool.and_eq_true] at hfits
  obtain ⟨-, hsim⟩ := hfits
  rw [assembleContainer]
  cases h : p.simField with
  | none => exact ⟨rfl, fun x _ => rfl⟩
  | some s =>
    rw [h, Option.all_some] at hsim
    have hend := IgnoredField.end_le hsim
    have hinside : ∀ v,
        s.field.offset f.numGlyphs + (leBytes s.field.width v).length ≤ (containerBeforeSim p f).length := by
      intro v
      rw [length_leBytes]
      omega
    refine ⟨length_patchBytes (hinside _), fun x hx => getElem?_patchBytes (hinside _) ?_⟩
    rw [length_leBytes]
    exact IgnoredField.outside_of_readOffset hx hsim

end

/-! ### The fields of the assembled container (30_encoding.md R168 to R179) -/

/-- The bytes at `a` hold what the assembly writes for the font `f` at the offsets the parse reads. -/
structure Mem.CarriesFont (m : Mem) (a : Nat) (f : FontModel) : Prop where
  glyphs : m.Holds (a + 14) (leBytes 2 f.numGlyphs)
  width : m.Holds (a + 16) (leBytes 2 f.charWidth)
  height : m.Holds (a + 18) (leBytes 2 f.charHeight)
  colour : ∀ c (h : c < f.palette.length),
    m.Holds (a + (32 + 4 * c)) [f.palette[c].1, f.palette[c].2.1, f.palette[c].2.2]
  widthBytes : m.Holds (a + 96) (leBytes 4 (2 * f.numGlyphs))
  metrics : m.Holds (a + 100) (f.metrics.flatMap fun g => [BitVec.ofNat 8 g.bearingX, BitVec.ofNat 8 g.advance])
  treeSize : m.Holds (a + (108 + 6 * f.numGlyphs)) (leBytes 4 (contractTreeSize f))
  dataSize : m.Holds (a + (112 + 6 * f.numGlyphs)) (leBytes 4 (contractBlob f).length)
  glyphSize : m.Holds (a + (120 + 6 * f.numGlyphs)) (leBytes 4 (f.charWidth * f.charHeight / 2))
  numImages : m.Holds (a + (124 + 6 * f.numGlyphs)) (leBytes 4 f.numGlyphs)
  tree : m.Holds (a + (138 + 6 * f.numGlyphs)) (serializeTree (contractTree f))
  positions : m.Holds (a + (138 + 6 * f.numGlyphs + 6 * (contractTree f).size))
    (positionTable (glyphStarts 0 (contractStreams f)))
  blob : m.Holds (a + (138 + 6 * f.numGlyphs + 6 * (contractTree f).size + 4 * f.numGlyphs)) (contractBlob f)

theorem length_flatMap_colourBytes (alpha : Byte) (l : List (Byte × Byte × Byte)) :
    (l.flatMap fun c => [c.1, c.2.1, c.2.2, alpha]).length = l.length * 4 := by
  simp [List.length_flatMap]

theorem length_flatMap_widthEntries (l : List GlyphMetrics) :
    (l.flatMap fun g => [BitVec.ofNat 8 g.bearingX, BitVec.ofNat 8 g.advance]).length = l.length * 2 := by
  simp [List.length_flatMap]

section
variable {p : ContractParams} {f : FontModel}

theorem length_containerBeforeSim (hf : f.Fits) (hflags : p.flags.length = 6) :
    (containerBeforeSim p f).length =
      138 + 6 * f.numGlyphs + 6 * (contractTree f).size + 4 * f.numGlyphs + (contractBlob f).length := by
  simp only [containerBeforeSim, containerFixedPart, containerSectionHeader, List.length_append, length_leBytes,
    List.length_replicate, List.length_cons, List.length_nil, hflags, hf.palette, hf.metrics, hf.grids, serializeTree,
    length_flatMap_colourBytes, length_flatMap_widthEntries, serializeFrom_length, positionTable_length,
    glyphStarts_length, length_contractStreams]
  omega

/-- A memory with the read bytes of the container before SIM_FIELD carries the font. -/
theorem Mem.Holds.carriesFont {m n : Mem} {a : Nat} (h : n.Holds a (containerBeforeSim p f)) (hf : f.Fits)
    (hflags : p.flags.length = 6) (hread : ∀ x, ReadOffset f.numGlyphs x → m.readByte (a + x) = n.readByte (a + x)) :
    m.CarriesFont a f := by
  have hpalette := hf.palette
  have keep : ∀ {o b : Nat} {bs : List Byte}, n.Holds b bs →
      (b = a + o ∧ ∀ k < bs.length, ReadOffset f.numGlyphs (o + k)) → m.Holds (a + o) bs := by
    rintro o b bs hbs ⟨rfl, hoffsets⟩
    refine Eq.trans ?_ hbs
    rw [Mem.bytes_eq_map, Mem.bytes_eq_map]
    refine List.map_congr_left fun k hk => ?_
    rw [Nat.add_assoc, hread _ (hoffsets k (List.mem_range.mp hk))]
  simp only [containerBeforeSim, containerFixedPart, containerSectionHeader, serializeTree, Mem.holds_append_iff,
    List.length_append, length_leBytes, List.length_replicate, List.length_cons, List.length_nil, hflags, hf.palette,
    hf.metrics, hf.grids, length_flatMap_colourBytes, length_flatMap_widthEntries, serializeFrom_length,
    positionTable_length, glyphStarts_length, length_contractStreams] at h
  obtain ⟨⟨⟨⟨⟨⟨⟨⟨⟨⟨⟨⟨⟨⟨⟨⟨⟨-, -⟩, -⟩, hglyphs⟩, hwidth⟩, hheight⟩, -⟩, -⟩, -⟩, hcolours⟩, hwidthBytes⟩, hmetrics⟩, -⟩,
    ⟨⟨⟨⟨⟨⟨⟨-, htreeSize⟩, hdataSize⟩, -⟩, hglyphSize⟩, hnumImages⟩, -⟩, -⟩⟩, -⟩, htree⟩, hpositionTable⟩, hblob⟩ := h
  have hcolour : ∀ c (hc : c < f.palette.length), n.Holds (a + (4 + 4 + 6 + 2 + 2 + 2 + 2 + 2 + 8) + c * 4)
      [f.palette[c].1, f.palette[c].2.1, f.palette[c].2.2] := fun c hc =>
    ((n.holds_append_iff _ [_, _, _] [p.alpha]).mp (hcolours.record (w := 4) (fun _ _ => rfl) hc)).1
  refine ⟨keep hglyphs ?_, keep hwidth ?_, keep hheight ?_, fun c hc => keep (hcolour c hc) ?_, keep hwidthBytes ?_,
    keep hmetrics ?_, keep htreeSize ?_, keep hdataSize ?_, keep hglyphSize ?_, keep hnumImages ?_,
    keep htree ⟨by omega, fun k _ => readOffset_of_le (by omega)⟩,
    keep hpositionTable ⟨by omega, fun k _ => readOffset_of_le (by omega)⟩,
    keep hblob ⟨by omega, fun k _ => readOffset_of_le (by omega)⟩⟩
  all_goals
    refine ⟨by omega, fun k hk => ?_⟩
    simp only [length_leBytes, length_flatMap_widthEntries, hf.metrics, List.length_cons, List.length_nil] at hk
    unfold ReadOffset
    omega

theorem ContractParams.length_flags (hp : p.fits f = true) : p.flags.length = 6 := by
  simp only [ContractParams.fits, Bool.and_eq_true, decide_eq_true_eq] at hp
  exact hp.1

theorem length_assembleContainer (hf : f.Fits) (hp : p.fits f = true) :
    (assembleContainer p f).length =
      138 + 6 * f.numGlyphs + 6 * (contractTree f).size + 4 * f.numGlyphs + (contractBlob f).length := by
  have hbefore := length_containerBeforeSim hf (p.length_flags hp)
  rw [(assembleContainer_readOffset hp (by omega)).1, hbefore]

/-- The assembled container carries its font, SIM_FIELD written or not. -/
theorem Mem.Holds.carriesFont_of_assembled {m : Mem} {a : Nat} (h : m.Holds a (assembleContainer p f)) (hf : f.Fits)
    (hp : p.fits f = true) : m.CarriesFont a f := by
  have hbefore := length_containerBeforeSim hf (p.length_flags hp)
  obtain ⟨hlen, hread⟩ := assembleContainer_readOffset hp (by omega)
  have hstored := m.holds_store a (containerBeforeSim p f)
  refine hstored.carriesFont hf (p.length_flags hp) fun x hx => ?_
  obtain hin | hout := Nat.lt_or_ge x (containerBeforeSim p f).length
  · have hin' : x < (assembleContainer p f).length := by rwa [hlen]
    have hbyte := hread x hx
    rw [h.getElem? hin', hstored.getElem? hin, Option.some.injEq] at hbyte
    exact hbyte
  · exact (m.readByte_store_of_not_mem a _ _ (by omega)).symm

end

/-! ### The round trip (R353) -/

/-- What the fields of the assembled container of `f` say (30_encoding.md R168 to R179). -/
def contractFields (f : FontModel) : ContainerFields where
  glyphs := f.numGlyphs
  charWidth := f.charWidth
  charHeight := f.charHeight
  widthBytes := 2 * f.numGlyphs
  sectionAt := 104 + 6 * f.numGlyphs
  treeSize := contractTreeSize f
  dataSize := (contractBlob f).length
  glyphSize := f.charWidth * f.charHeight / 2
  numImages := f.numGlyphs

section
variable {m : Mem} {src : Source} {f : FontModel}

theorem Mem.CarriesFont.containerFields_eq (h : m.CarriesFont src.base f) (hf : f.Fits)
    (hblob : (contractBlob f).length < 2 ^ 31) : containerFields m src = contractFields f := by
  have hpixels : f.charWidth * f.charHeight < 2 ^ 16 * 2 ^ 16 := Nat.mul_lt_mul'' hf.width_lt hf.height_lt
  have hnodes : (contractTree f).size ≤ 511 := buildTree_size_le _
  have hcount := hf.glyphs_lt
  have hglyphs : src.field m 14 2 = f.numGlyphs := h.glyphs.littleEndianAt_eq hcount
  have hwidth : src.field m 16 2 = f.charWidth := h.width.littleEndianAt_eq hf.width_lt
  have hheight : src.field m 18 2 = f.charHeight := h.height.littleEndianAt_eq hf.height_lt
  have hwidthBytes : src.field m 96 4 = 2 * f.numGlyphs := h.widthBytes.littleEndianAt_eq (by omega)
  have hsection : 100 + 2 * f.numGlyphs + 4 + 4 * f.numGlyphs = 104 + 6 * f.numGlyphs := by omega
  have htree : src.field m (104 + 6 * f.numGlyphs + 4) 4 = contractTreeSize f := by
    rw [Nat.add_right_comm]
    exact h.treeSize.littleEndianAt_eq (by rw [contractTreeSize]; omega)
  have hdata : src.field m (104 + 6 * f.numGlyphs + 8) 4 = (contractBlob f).length := by
    rw [Nat.add_right_comm]
    exact h.dataSize.littleEndianAt_eq (by omega)
  have hsize : src.field m (104 + 6 * f.numGlyphs + 16) 4 = f.charWidth * f.charHeight / 2 := by
    rw [Nat.add_right_comm]
    exact h.glyphSize.littleEndianAt_eq (by omega)
  have himages : src.field m (104 + 6 * f.numGlyphs + 20) 4 = f.numGlyphs := by
    rw [Nat.add_right_comm]
    exact h.numImages.littleEndianAt_eq (by omega)
  simp only [containerFields, contractFields, hglyphs, hwidth, hheight, hwidthBytes, hsection, htree, hdata, hsize,
    himages]

/-- The palette and the metrics of an assembled container read back (R326, R328 to R331). -/
theorem Mem.CarriesFont.declaredBy (h : m.CarriesFont src.base f) (hf : f.Fits)
    (hfields : containerFields m src = contractFields f) : f.declaredBy m src := by
  have hallImages : (contractFields f).images = f.numGlyphs := Nat.min_self _
  rw [FontModel.declaredBy, hfields]
  refine ⟨rfl, rfl, rfl, hf.images.trans hallImages.symm, hf.palette, fun c hc => ?_, hf.metrics, fun i hi => ?_,
    hf.grids, fun i hi hempty => absurd (hallImages.ge.trans hempty) (Nat.not_le.mpr hi)⟩
  · have hlen : c < f.palette.length := by rwa [hf.palette]
    have hcolour := h.colour c hlen
    simp only [Mem.holds_cons_iff] at hcolour
    obtain ⟨hred, hgreen, hblue, -⟩ := hcolour
    rw [List.getElem?_eq_getElem hlen, Option.some.injEq]
    refine Prod.ext hred.symm (Prod.ext (hgreen.symm.trans ?_) (hblue.symm.trans ?_))
    · exact congrArg m.readByte (by omega)
    · exact congrArg m.readByte (by omega)
  · have hlen : i < f.metrics.length := by rwa [hf.metrics]
    have hentry := (Mem.holds_append_iff m _ (leBytes 1 f.metrics[i].bearingX) (leBytes 1 f.metrics[i].advance)).mp
      (h.metrics.record (w := 2) (fun _ _ => rfl) hlen)
    obtain ⟨hbearingAt, hadvanceAt⟩ := hentry
    obtain ⟨hcode, hbearing, hadvance, hwidth⟩ := hf.record i hlen
    have hbx : src.field m (100 + 2 * i) 1 = f.metrics[i].bearingX := by
      rw [Source.field, show src.base + (100 + 2 * i) = src.base + 100 + i * 2 by omega]
      exact hbearingAt.littleEndianAt_eq hbearing
    have hadv : src.field m (101 + 2 * i) 1 = f.metrics[i].advance := by
      rw [Source.field, show src.base + (101 + 2 * i) = src.base + 100 + i * 2 + 1 by omega]
      exact hadvanceAt.littleEndianAt_eq hadvance
    have hentries : (contractFields f).widthBytes / 2 = f.numGlyphs := Nat.mul_div_cancel_left _ (by decide)
    rw [if_pos (by rwa [hentries]), hbx, hadv, ← hcode, ← hwidth, List.getElem?_eq_getElem hlen]

/-- Image `i` of an assembled container is grid `i` of its font (R339). -/
theorem Mem.CarriesFont.grid_decodes (h : m.CarriesFont src.base f) (hf : f.Fits)
    (hblob : (contractBlob f).length < 2 ^ 24) (hpacked : (packedGlyphs f).length < 2 ^ 32)
    (hfields : containerFields m src = contractFields f) {i : Nat} (hi : i < f.grids.length) :
    imageDecodes m src i f.grids[i] := by
  have htreeNodup : (contractTree f).symbols.Nodup := buildTree_symbols_nodup _
  have hnodes : (contractTree f).size ≤ 511 := buildTree_size_le _
  have hstreams : i < (contractStreams f).length := by rwa [length_contractStreams]
  have hstarts : i < (glyphStarts 0 (contractStreams f)).length := by rwa [glyphStarts_length]
  have hstart := le_of_mem_glyphStarts (List.getElem_mem hstarts)
  obtain ⟨hgridLen, hpixels⟩ := hf.grid _ (List.getElem_mem hi)
  rw [length_contractBlob, blobBytesFor, contractBits] at hblob
  have hposition : imagePosition m src i = (glyphStarts 0 (contractStreams f))[i] := by
    have hentry := h.positions.record (w := 4) (fun st _ => length_leBytes 4 st) hstarts
    have haddr : src.base + ((contractFields f).tableAt + 4 * i) =
        src.base + (138 + 6 * f.numGlyphs + 6 * (contractTree f).size) + i * 4 := by
      simp only [ContainerFields.tableAt, contractFields, contractTreeSize]
      omega
    rw [imagePosition, hfields, Source.field, haddr]
    exact hentry.littleEndianAt_eq (by omega)
  obtain ⟨d, hd⟩ : ∃ d, d = (contractFields f).decodeSource src := ⟨_, rfl⟩
  have htreeAt : d.tree + 6 * 0 = src.base + (138 + 6 * f.numGlyphs) := by
    simp only [hd, ContainerFields.decodeSource, contractFields]
    omega
  have htreeLen : d.treeLen = 6 * (contractTree f).size := by
    simp only [hd, ContainerFields.decodeSource, contractFields, contractTreeSize]
    omega
  have hblobAt : d.blob = src.base + (138 + 6 * f.numGlyphs + 6 * (contractTree f).size + 4 * f.numGlyphs) := by
    simp only [hd, ContainerFields.decodeSource, ContainerFields.blobAt, ContainerFields.tableAt, contractFields,
      contractTreeSize]
    omega
  have hrecords : RecordsAt m d 0 (contractTree f) := ⟨htreeAt ▸ h.tree, by omega, by omega⟩
  have hfetch := (fetchesBits_contractBlob (d := d) (by rw [hd]; rfl) (hblobAt ▸ h.blob)).stream hstreams
  have hcoded : ∀ v ∈ packPixels f.grids[i], tableGet (deriveCodes (contractTree f)) v ≠ [] := fun v hv =>
    tableGet_deriveCodes_buildTree_ne_nil hpacked (List.mem_flatMap_of_mem (List.getElem_mem hi) hv)
  have hstream : (contractStreams f)[i] = codeBits (deriveCodes (contractTree f)) (packPixels f.grids[i]) := by
    simp [contractStreams]
  rw [hstream] at hfetch
  have hdecode := decodeCore_of_codeBits htreeNodup hrecords hcoded hfetch
  rw [packPixels_length, hgridLen, flatMap_nibbles_packPixels _ (hgridLen ▸ hf.even) hpixels] at hdecode
  rw [imageDecodes, hposition, hfields, ← hd]
  exact ⟨by omega, _, (decodeCoreIsTheWalkOfTheRule _ _ _ _ _).mp hdecode⟩

/-- An assembled container is parsed as declared, with its own font and length. -/
theorem Mem.CarriesFont.parsedAsDeclared (h : m.CarriesFont src.base f) (hf : f.Fits) {ok : Word → Bool} {cap : Nat}
    (hok : ok (BitVec.ofNat 32 (src.field m 0 4)) = true)
    (hcap : fontImageSize f.numGlyphs f.charWidth f.charHeight ≤ cap) (hcap' : cap < 2 ^ 32)
    (hlen : src.len = 138 + 6 * f.numGlyphs + 6 * (contractTree f).size + 4 * f.numGlyphs + (contractBlob f).length)
    (hsrc : src.len ≤ 2 ^ 24) : ParsedAsDeclared m ok src cap f src.len := by
  have hfields := h.containerFields_eq hf (by omega)
  have hpacked : (packedGlyphs f).length < 2 ^ 32 := by
    have hle : f.numGlyphs * (f.charWidth * f.charHeight / 2) ≤ f.numGlyphs * (f.charWidth * f.charHeight) :=
      Nat.mul_le_mul_left _ (Nat.div_le_self _ 2)
    rw [fontImageSize, Nat.mul_assoc] at hcap
    rw [hf.length_packedGlyphs]
    omega
  refine ⟨?_, h.declaredBy hf hfields, fun i hi => ?_⟩
  · have hnodes : (contractTree f).size ≤ 511 := buildTree_size_le _
    have heven := hf.even
    rw [fontImageSize] at hcap
    simp only [containerPasses, hfields, contractFields, ContainerFields.blobAt, ContainerFields.tableAt,
      contractTreeSize]
    exact ⟨hok, by omega, by omega, by omega, by omega, by omega, hcap, by omega, le_rfl, .inr (by omega)⟩
  · rw [hfields] at hi
    have hgrid : i < f.grids.length := hf.grids ▸ hi.trans_le (Nat.min_le_left _ _)
    exact ⟨_, List.getElem?_eq_getElem hgrid, h.grid_decodes hf (by omega) hpacked hfields hgrid⟩

end

/-- Settles O56: the assembled container, SIM_FIELD or not, holds the fields of its font, each image's stream decodes to
its grid, and so the parse of the container is the one that R322 declares. -/
theorem assembledContainerParsesToItsFont : Obligations.AssembledContainerParsesToItsFont := by
  intro s p f hparams hfits hp hok hlen hbytes hsource hdest hapart hcap
  have hf := FontModel.fits_of_fitsContainer hfits
  have hsize := Params.bufSize_le hparams
  have hholds : s.buf.Holds (s.arg 0) (assembleContainer p f) := by rw [Mem.Holds, ← hlen, hbytes]
  have hcarries := hholds.carriesFont_of_assembled hf hp
  have hparse : ParsedAsDeclared s.buf (hdrSizeOk s.params) s.parseSource (s.arg 3) f (s.arg 1) := by
    have hlen' := hlen.trans (length_assembleContainer hf hp)
    have hroom : s.arg 1 ≤ 2 ^ 24 := by omega
    exact Mem.CarriesFont.parsedAsDeclared hcarries hf hok hcap (by omega) hlen' hroom
  have himage := hparse.length_fontImage
  refine ⟨_, State.FcpParseReady.exec_ok ⟨hsource, hdest, hapart⟩ hparse, ?_, ?_⟩
  · rw [hf.images]
    exact State.complete_completed _ _ _ _ _
  · rw [← himage]
    exact s.buf.holds_store _ _

end Sys2Proof.Machine

namespace Sys2Proof.Machine

/-! ## The interrupt line (10_state.md R49, 60_exceptions.md R380) -/

/-- IRQ_EN reads as a number of its two bits, so bits 31:2 read 0 (10_state.md R49). -/
theorem IrqEnable.toNat_toWord (e : IrqEnable) : e.toWord.toNat = e.doneIE.toNat + 2 * e.errIE.toNat := by
  obtain ⟨doneIE, errIE⟩ := e
  cases doneIE <;> cases errIE <;> rfl

theorem step_irqEnLine (s : State) (v : Word) (rest : List Event) :
    step { s with script := irqEnLine v :: rest } =
      .next ((State.writeIrqEn { s with script := rest } v).respond .written) :=
  step_regLine s (by omega) rfl v rest

/-- The line after a W1C write of STATUS: each of the three sources stands unless its bit is written 1 (60_exceptions.md R380). -/
theorem State.writeStatus_irq (s : State) (v : Word) :
    (s.writeStatus v).irq =
      ((s.status.done && !v.getLsbD 1 && s.irqEn.doneIE) ||
        (((s.status.err && !v.getLsbD 2) || (s.status.rejected && !v.getLsbD 3)) && s.irqEn.errIE)) := rfl

/-- Settles O11: the line is a function of STATUS and IRQ_EN, so each write moves it with the bits it writes. -/
theorem interruptLineFollowsStatusAndEnables : Obligations.InterruptLineFollowsStatusAndEnables := by
  have hread (s : State) : s.answersRead 0x058 s.irqEn.toWord :=
    s.answersRead_regValue (r := .irqEn) rfl (.inr rfl) (by omega) rfl
  refine ⟨fun s => rfl, fun s v rest => ?_, fun s => ?_, ?_, fun s v rest => ?_, fun s c rest hidle => ?_⟩
  · exact ⟨_, step_irqEnLine s v rest, rfl, rfl⟩
  · exact ⟨s.irqEn.toWord, hread s, s.irqEn.toNat_toWord⟩
  · exact hread State.reset
  · exact ⟨_, step_regLine s (by omega) rfl v rest, State.writeStatus_irq s v⟩
  · -- An acceptance clears DONE and ERR, so only REJECTED can hold the line.
    exact ⟨_, cmdWriteWhileIdleIsAccepted s c rest hidle, by simp [State.irq]⟩

end Sys2Proof.Machine

namespace Sys2Proof.Machine

/-! ## The power-on reset (70_reset_and_hazards.md R410) -/

theorem getElem_freeBytes (i n k : Nat) (h : k < (freeBytes i n).length) : (freeBytes i n)[k] = Config.freeByte (i + k) := by
  simp [freeBytes]

/-- Byte `k` of a havocked region is the `k`-th of the next free values. -/
theorem State.readByte_havoc (s : State) (b : Nat) {n k : Nat} (h : k < n) :
    (s.havoc b n).buf.readByte (b + k) = Config.freeByte (s.freeIdx + k) := by
  rw [State.havoc_buf, Mem.readByte_store_of_mem _ _ _ _ (by omega) (by simpa using h), getElem_freeBytes]
  simp

/-- What a power-on reset havocs is BUF alone, so the registers stay as reset. -/
theorem State.powerOn_atResetValues (s : State) : s.powerOn.atResetValues := s.resetRegisters_atResetValues

theorem State.powerOn_irq (s : State) : s.powerOn.irq = false := rfl

theorem State.powerOn_readByte (s : State) {x : Nat} (h : x < s.params.bufSize) :
    s.powerOn.buf.readByte x = Config.freeByte (s.freeIdx + x) := by
  simpa [State.powerOn] using s.resetRegisters.readByte_havoc 0 h

/-- Settles O13: the event is a power-on reset, busy or not: the registers are reset, then every byte of BUF is havocked. -/
theorem powerOnResetLeavesBufUnspecified : Obligations.PowerOnResetLeavesBufUnspecified := by
  intro s rest
  have hpower : step { s with script := .powerOn :: rest } = .next (State.powerOn { s with script := rest }) := rfl
  exact ⟨_, hpower, State.powerOn_atResetValues _, State.powerOn_irq _, rfl, rfl, rfl, rfl,
    fun _ hx => State.powerOn_readByte { s with script := rest } hx⟩

/-! ## A running command completes (70_reset_and_hazards.md R430) -/

theorem State.lifecycleOk.exists_pending {s : State} (h : s.lifecycleOk) (hbusy : s.status.busy = true) :
    ∃ p, s.pending = some p := by
  obtain ⟨hpending, -⟩ := h
  exact Option.isSome_iff_exists.mp (hpending.symm.trans hbusy)

/-- No host access touches the events still to come. -/
theorem HostEffect.script {s t : State} {a : HostAccess} (h : HostEffect s a t) : t.script = s.script := by
  cases h with
  | softReset => exact s.softReset_kept.2
  | answer | accept | reject | writeStatus | writeArg | writeIrqEn | store => rfl

/-- A step after which the block is still busy was a host access that was not held, so it used up an event: the engine would have
completed the command, and a power-on reset would have discarded it. -/
theorem script_of_step_still_busy {s t : State} {p : Pending} (hp : s.pending = some p) (h : step s = .next t)
    (hbusy : t.status.busy = true) : ∃ e, s.script = e :: t.script := by
  obtain ⟨-, u, -, hpending, hengine⟩ | ⟨rest, -, rfl⟩ | ⟨a, rest, hscript, rfl⟩ := step_cases_by_mover h
  · obtain ⟨-, hidle⟩ := State.executePending_completes (hpending.trans hp) hengine
    simp [hidle] at hbusy
  · simp [State.powerOn, State.reset] at hbusy
  · refine ⟨.host a, ?_⟩
    rw [(s.dropEvent.hostAccess_effect a).script, State.dropEvent_script, hscript, List.tail_cons]

theorem runSteps_succ {s t : State} (h : step s = .next t) (n : Nat) : runSteps (n + 1) s = runSteps n t := by
  simp [runSteps, h]

/-- Settles O6, by induction on the number of events left: a step leaves the block idle, by a completion or a reset, or
leaves it busy with one event fewer. -/
theorem runningCommandCompletes : Obligations.RunningCommandCompletes := by
  intro s hinv hbusy
  induction hleft : s.script.length using Nat.strong_induction_on generalizing s with
  | _ left ih =>
    subst hleft
    obtain ⟨t, ht, htinv⟩ := invariantStatesStepToInvariantStates s hinv
    cases htbusy : t.status.busy with
    | false =>
      refine ⟨1, t, by omega, runSteps_succ ht 0, htbusy, fun hnoreset => ?_⟩
      obtain ⟨-, -, hreport, -⟩ | ⟨e, rest, hscript, hresets⟩ := (onlyTheNamedEventsChangeBusy s t ht).2 hbusy htbusy
      · exact hreport
      · exact absurd hresets (hnoreset e (by simp [hscript]))
    | true =>
      obtain ⟨p, hp⟩ := hinv.lifecycle.exists_pending hbusy
      obtain ⟨e, hscript⟩ := script_of_step_still_busy hp ht htbusy
      have hlength : s.script.length = t.script.length + 1 := by simp [hscript]
      obtain ⟨n, u, hn, hrun, hidle, hreport⟩ := ih t.script.length (by omega) t htinv htbusy rfl
      refine ⟨n + 1, u, by omega, (runSteps_succ ht n).trans hrun, hidle, fun hnoreset => hreport fun e' he' => ?_⟩
      exact hnoreset e' (by simp [hscript, he'])

end Sys2Proof.Machine
